-- ==== Sys2Proof/Word.lean ====
section
/-! DEFINITION. The machine word and the byte.

Every register, descriptor and address of the MMU is a 32-bit word whose bits are numbered 31 down to
0 (R6). Main memory is byte addressed (R24). The MMU performs no arithmetic on words beyond field
extraction and concatenation (R7), so nothing more stands here. -/

namespace Sys2Proof

/-- A 32-bit word: a register, a descriptor, a virtual or a physical address (R6). -/
abbrev Word := BitVec 32

/-- One byte of main memory (R24). -/
abbrev Byte := BitVec 8

end Sys2Proof
end

