-- ==== Sys2Proof/Config.lean ====
section
/-! DEFINITION. What an implementation fixes (the parameters of R5), as plain data, and the free values:
constants without a body that stand for what the spec leaves open.

A statement about every state is a statement about every configuration, since the configuration is a
field of the state. No statement may rest on the value of a free value. -/

namespace Sys2Proof

/-- Parameter `TLB_ORG` (R5, R18): one TLB, or an instruction TLB and a data TLB. -/
inductive TlbOrg where
  | unified
  | split
deriving DecidableEq, Repr

/-- Parameter `BYTE_ORDER` (R5, R45): how the four bytes of a word lie in memory. -/
inductive ByteOrder where
  | little
  | big
deriving DecidableEq, Repr

/-- Parameter `SBZ_POLICY` (R5, R82): a nonzero should-be-zero field is ignored, or the value that
holds it is refused. -/
inductive SbzPolicy where
  | ignoreBits
  | refuseBits
deriving DecidableEq, Repr

/-- Parameter `WALK_SEES` (R5, R44): what the table walk's reads can see. -/
inductive WalkSees where
  | mainMemoryOnly
  | throughBuffer
deriving DecidableEq, Repr

/-- What the parameters without a described effect hold: a label that no rule reads (R5). -/
structure Label where
  id : Nat
deriving DecidableEq, Repr

/-- The implementation parameters (R5), every one of them. -/
structure Config where
  /-- `TLB_ORG`. -/
  tlbOrg : TlbOrg
  /-- `TLB_ENTRIES`: the capacity of each TLB, none for unbounded (R20, D5, log entry 4). -/
  tlbEntries : Option Nat
  /-- `TLB_CACHES_FAULTS`: a walk that ends in a translation fault is held in the TLB (R34, D6, log entry
  28). -/
  tlbCachesFaults : Bool
  /-- `TLB_LOCKDOWN`: walk results can be locked in a TLB (R147). -/
  tlbLockdown : Bool
  /-- `HAS_CACHE` (R23). -/
  hasCache : Bool
  /-- `HAS_WRITE_BUFFER` (R23). -/
  hasWriteBuffer : Bool
  /-- `CACHE_WITH_MMU_OFF` (R39). -/
  cacheWithMmuOff : Bool
  /-- `IMP_L1_SECTION_BIT4`: what bit [4] of a section descriptor means; no rule reads it (R83). -/
  impSectionBit4 : Label
  /-- `IMP_L1_PAGETABLE_BITS4_2`: what bits [4:2] of a page table descriptor mean; no rule reads them
  (R83). -/
  impPageTableBits : Label
  /-- `FCSE`: the virtual address of every request is the modified one (R56). How the processor forms it is
  outside the spec, so no rule reads the parameter (log entry 26). -/
  fcse : Bool
  /-- `BYTE_ORDER`. -/
  byteOrder : ByteOrder
  /-- `S_BIT_POS`: the bit of CP15 register 1 that is the System bit (R12). -/
  sBitPos : Fin 32
  /-- `R_BIT_POS`: the bit of CP15 register 1 that is the ROM bit (R12). -/
  rBitPos : Fin 32
  /-- `DACR_REGNUM`: the CP15 register number of the domain access control register (R15). -/
  dacrRegnum : BitVec 4
  /-- `DACR_FIELD_ORDER`: the bit pair of the domain access control register that is the field of each
  domain, pair `k` being bits `[2k+1:2k]` (R15, log entry 9). -/
  dacrFieldOrder : Vector (Fin 16) 16
  /-- `SBZ_POLICY`. -/
  sbzPolicy : SbzPolicy
  /-- `WALK_SEES`. -/
  walkSees : WalkSees
  /-- Whether a faulting instruction fetch updates the fault status and fault address registers,
  which R169 calls implementation defined. -/
  fetchAbortRecorded : Bool
  /-- `ARCH_VERSION`: a label that no rule reads (R1). -/
  archVersion : Label
deriving DecidableEq, Repr

/-- FREE VALUE. Which of the admitted branches of R31's `choose` a TLB lookup takes: one of the
matching entries, or a fresh walk (log entry 3). -/
opaque Config.freeTlbChoice : Nat → Nat

/-- FREE VALUE. Whether the fill numbered by the first argument overwrites the unlocked entry that
stands at the position given by the second (R102's `choose V`; log entry 4). -/
opaque Config.freeEvict : Nat → Nat → Bool

/-- FREE VALUE. Whether the processor write that stands at the given position among those not yet in
main memory reaches it now (R49 (c), R44; log entry 12). -/
opaque Config.freeDrain : Nat → Nat → Bool

/-- FREE VALUE. Whether a cacheable access finds its virtual address in a cache that may hold
something (R38; log entry 13). -/
opaque Config.freeCacheHit : Nat → Bool

/-- FREE VALUE. The byte at the given offset that the cache holds for the access's virtual address on
a hit (R38, R149; log entry 13). -/
opaque Config.freeCacheByte : Nat → Nat → Byte

/-- FREE VALUE. The physical address to which the cache line that a cacheable write hits belongs: on a
hit the physical address of the access is ignored (R38; log entry 14). -/
opaque Config.freeLineAddress : Nat → Word

/-- FREE VALUE. Whether an instruction fetch sees, at an address, the processor write that stands at the
given position among those not yet in main memory (R53: not in the source; log entry 15). -/
opaque Config.freeFetchSees : Nat → Nat → Word → Bool

/-- FREE VALUE. The undescribed and should-be-zero bits of a register that is read back (R145; log
entry 17). -/
opaque Config.freeRegBits : Nat → Word

/-- FREE VALUE. The domain field of the fault status register after a fault that has no valid domain
(R169, column "domain field valid"; log entry 18). -/
opaque Config.freeDomain : Nat → BitVec 4

end Sys2Proof
end

