-- ==== Sys2Proof/Syntax.lean ====
section
/-! DEFINITION. The bit patterns the MMU decodes, one constructor per row of `spec/opcode_table.json`.

The MMU has no instruction set (R4): the rows are the descriptor kinds, the domain access control field
values, the two register formats, the three descriptor-address formats and the coprocessor register
transfer. Many rows share their bits (the first-level descriptor `...00`, the second-level descriptor
`...00` and a descriptor address are the same words); which row a word is, is said by the ROLE in which
the MMU meets it, never by the word alone. -/

namespace Sys2Proof

/-- The two kinds of second-level table (R80). -/
inductive TableKind where
  | coarse
  | fine
deriving DecidableEq, Repr

/-- The role in which the MMU meets a word: what it is about to decode it as (R60). -/
inductive Role where
  /-- A first-level descriptor (R63). -/
  | l1Desc
  /-- A second-level descriptor, from a coarse or a fine table (R68). -/
  | l2Desc (t : TableKind)
  /-- A 2-bit field of the domain access control register (R76). -/
  | dacField
  /-- A value written to CP15 register 2 (R77). -/
  | ttbReg
  /-- A value written to CP15 register 1 (R78). -/
  | ctrlReg
  /-- The address of a first-level descriptor (R62). -/
  | l1Addr
  /-- The address of a second-level descriptor (R74, R75). -/
  | l2Addr (t : TableKind)
  /-- A coprocessor register transfer to or from coprocessor 15 (R86). -/
  | coproc
deriving DecidableEq, Repr

/-- The rows of the opcode table, with the fields of each from most to least significant bit. -/
inductive Instr where
  /-- `L1_FAULT` (R64): bits [31:2] are ignored by the hardware. -/
  | l1Fault (ignored : BitVec 30)
  /-- `L1_COARSE` (R66): coarse page table base [31:10], sbz [9], domain [8:5], imp [4:2]. -/
  | l1Coarse (base : BitVec 22) (sbz : BitVec 1) (domain : BitVec 4) (imp : BitVec 3)
  /-- `L1_SECTION` (R65): base [31:20], SBZ [19:12], AP [11:10], sbz [9], domain [8:5], imp [4], C [3],
  B [2]. -/
  | l1Section (base : BitVec 12) (sbzHi : BitVec 8) (ap : BitVec 2) (sbz : BitVec 1)
      (domain : BitVec 4) (imp : BitVec 1) (c b : Bool)
  /-- `L1_FINE` (R67): fine page table base [31:12], SBZ [11:9], domain [8:5], imp [4:2]. -/
  | l1Fine (base : BitVec 20) (sbz : BitVec 3) (domain : BitVec 4) (imp : BitVec 3)
  /-- `L2C_FAULT` (R69), in a coarse table. -/
  | l2cFault (ignored : BitVec 30)
  /-- `L2C_LARGE` (R70), in a coarse table: base [31:16], SBZ [15:12], AP3 to AP0 [11:4], C, B. -/
  | l2cLarge (base : BitVec 16) (sbz : BitVec 4) (ap3 ap2 ap1 ap0 : BitVec 2) (c b : Bool)
  /-- `L2C_SMALL` (R71), in a coarse table: base [31:12], AP3 to AP0 [11:4], C, B. -/
  | l2cSmall (base : BitVec 20) (ap3 ap2 ap1 ap0 : BitVec 2) (c b : Bool)
  /-- `L2C_TINY` (R73): type `0b11` in a coarse table, whose other bits the spec does not describe. -/
  | l2cTiny (undescribed : BitVec 30)
  /-- `L2F_FAULT` (R69), in a fine table. -/
  | l2fFault (ignored : BitVec 30)
  /-- `L2F_LARGE` (R70), in a fine table. -/
  | l2fLarge (base : BitVec 16) (sbz : BitVec 4) (ap3 ap2 ap1 ap0 : BitVec 2) (c b : Bool)
  /-- `L2F_SMALL` (R71), in a fine table. -/
  | l2fSmall (base : BitVec 20) (ap3 ap2 ap1 ap0 : BitVec 2) (c b : Bool)
  /-- `L2F_TINY` (R72): base [31:10], SBZ [9:6], AP [5:4], C, B. -/
  | l2fTiny (base : BitVec 22) (sbz : BitVec 4) (ap : BitVec 2) (c b : Bool)
  /-- `DAC_NOACCESS` (R76, R122): field value `0b00`. -/
  | dacNoAccess
  /-- `DAC_CLIENT` (R76, R123): field value `0b01`. -/
  | dacClient
  /-- `DAC_RESERVED` (R76, R124): field value `0b10`. -/
  | dacReserved
  /-- `DAC_MANAGER` (R76, R125): field value `0b11`. -/
  | dacManager
  /-- `TTB` (R77): translation base [31:14], SBZ [13:0]. -/
  | ttb (base : BitVec 18) (sbz : BitVec 14)
  /-- `CTRL` (R78): the whole word, since the places of S and R are parameters. -/
  | ctrl (value : Word)
  /-- `L1_ADDR` (R62): `TTB[31:14] : va[31:20] : 0b00`. -/
  | l1Addr (base : BitVec 18) (index : BitVec 12)
  /-- `L2_ADDR_COARSE` (R74): `L1D[31:10] : va[19:12] : 0b00`. -/
  | l2AddrCoarse (base : BitVec 22) (index : BitVec 8)
  /-- `L2_ADDR_FINE` (R75): `L1D[31:12] : va[19:10] : 0b00`. -/
  | l2AddrFine (base : BitVec 20) (index : BitVec 10)
  /-- `MCR_MRC_p15` (R86): cond [31:28], opc1 [23:21], L [20], CRn [19:16], Rd [15:12], opc2 [7:5],
  CRm [3:0]; `load` is L, true for MRC. -/
  | mcrMrc (cond : BitVec 4) (opc1 : BitVec 3) (load : Bool) (crn rd : BitVec 4) (opc2 : BitVec 3)
      (crm : BitVec 4)
deriving DecidableEq, Repr

/-- Why a word is not one of the rows of its role. -/
inductive DecodeError where
  /-- Fewer bytes than the role's pattern needs. -/
  | truncated
  /-- A descriptor address whose bits [1:0] are not `0b00` (R62, R74, R75). -/
  | notADescriptorAddress
  /-- A domain access control field wider than its two bits (R76). -/
  | notADomainField
  /-- A word without the fixed bits of a transfer to coprocessor 15 (R86). -/
  | notACoprocessorTransfer
deriving DecidableEq, Repr

end Sys2Proof
end

