-- ==== Sys2Proof/WellFormed.lean ====
section
/-! DEFINITION. What software may write: the should-be-zero fields are zero (R82), no encoding is one the
spec calls UNPREDICTABLE (R73, R76, R85, R202), and the implementation parameters do not collide (R5).

An ill-formed row still decodes, encodes and has the meaning the spec gives it; well-formedness is what
R192 and R202 ask of software. -/

namespace Sys2Proof

/-- Every should-be-zero field of the row is zero (R82). -/
def Instr.sbzZero : Instr → Bool
  | .l1Fault _ => true
  | .l1Coarse _ sbz _ _ => sbz = 0
  | .l1Section _ sbzHi _ sbz _ _ _ _ => sbzHi = 0 ∧ sbz = 0
  | .l1Fine _ sbz _ _ => sbz = 0
  | .l2cFault _ => true
  | .l2cLarge _ sbz _ _ _ _ _ _ => sbz = 0
  | .l2cSmall _ _ _ _ _ _ _ => true
  | .l2cTiny _ => true
  | .l2fFault _ => true
  | .l2fLarge _ sbz _ _ _ _ _ _ => sbz = 0
  | .l2fSmall _ _ _ _ _ _ _ => true
  | .l2fTiny _ sbz _ _ _ => sbz = 0
  | .dacNoAccess => true
  | .dacClient => true
  | .dacReserved => true
  | .dacManager => true
  | .ttb _ sbz => sbz = 0
  | .ctrl _ => true
  | .l1Addr _ _ => true
  | .l2AddrCoarse _ _ => true
  | .l2AddrFine _ _ => true
  | .mcrMrc _ _ _ _ _ _ _ => true

/-- The row is not one of the encodings the spec calls UNPREDICTABLE (R73, R76, R85). -/
def Instr.predictable : Instr → Bool
  | .l1Fault _ => true
  | .l1Coarse _ _ _ _ => true
  | .l1Section _ _ _ _ _ _ _ _ => true
  | .l1Fine _ _ _ _ => true
  | .l2cFault _ => true
  | .l2cLarge _ _ _ _ _ _ _ _ => true
  | .l2cSmall _ _ _ _ _ _ _ => true
  | .l2cTiny _ => false
  | .l2fFault _ => true
  | .l2fLarge _ _ _ _ _ _ _ _ => true
  | .l2fSmall _ _ _ _ _ _ _ => true
  | .l2fTiny _ _ _ _ _ => true
  | .dacNoAccess => true
  | .dacClient => true
  | .dacReserved => false
  | .dacManager => true
  | .ttb _ _ => true
  | .ctrl _ => true
  | .l1Addr _ _ => true
  | .l2AddrCoarse _ _ => true
  | .l2AddrFine _ _ => true
  | .mcrMrc _ _ _ _ _ _ _ => true

/-- What software may write (R192, R202). -/
def Instr.wellFormed (i : Instr) : Bool :=
  i.sbzZero && i.predictable

/-- The parameters of R5 do not collide: M, S and R are three different bits of CP15 register 1 (R78),
the domain access control register has a register number of its own, no two domains share a field (R15), and
a TLB has room for an entry. -/
def Config.wellFormed (c : Config) : Bool :=
  c.sBitPos ≠ 0 && c.rBitPos ≠ 0 && c.sBitPos ≠ c.rBitPos &&
    c.dacrRegnum ≠ 1 && c.dacrRegnum ≠ 2 && c.dacrRegnum ≠ 5 && c.dacrRegnum ≠ 6 && c.dacrRegnum ≠ 8 &&
    decide c.dacrFieldOrder.toList.Nodup && c.tlbEntries ≠ some 0

end Sys2Proof
end

