-- ==== Sys2Proof/Decode.lean ====
section
/-! DEFINITION. The decoder of every role, total on any word and on any bytes, rejecting by name; and the
encoder, written from the same tables (R62 to R78, R86).

The type bits [1:0] of a descriptor choose its row (R63, R68); the misprints of the source's tables are
resolved as `spec/90_conflicts.md` C1 to C4 and C7 resolve them. -/

namespace Sys2Proof

/-- Bits `[lo+len-1 : lo]` of a word (R6). -/
abbrev field (w : Word) (lo len : Nat) : BitVec len :=
  w.extractLsb' lo len

/-- A first-level descriptor by its type bits (R63): the four values exhaust the field. -/
def decodeL1Desc (w : Word) : Instr :=
  if field w 0 2 = 0 then .l1Fault (field w 2 30)
  else if field w 0 2 = 1 then .l1Coarse (field w 10 22) (field w 9 1) (field w 5 4) (field w 2 3)
  else if field w 0 2 = 2 then
    .l1Section (field w 20 12) (field w 12 8) (field w 10 2) (field w 9 1) (field w 5 4) (field w 4 1)
      (w.getLsbD 3) (w.getLsbD 2)
  else .l1Fine (field w 12 20) (field w 9 3) (field w 5 4) (field w 2 3)

/-- A second-level descriptor of a coarse table by its type bits (R68); type `0b11` is the row that the
spec calls unpredictable (R73). -/
def decodeL2Coarse (w : Word) : Instr :=
  if field w 0 2 = 0 then .l2cFault (field w 2 30)
  else if field w 0 2 = 1 then
    .l2cLarge (field w 16 16) (field w 12 4) (field w 10 2) (field w 8 2) (field w 6 2) (field w 4 2)
      (w.getLsbD 3) (w.getLsbD 2)
  else if field w 0 2 = 2 then
    .l2cSmall (field w 12 20) (field w 10 2) (field w 8 2) (field w 6 2) (field w 4 2)
      (w.getLsbD 3) (w.getLsbD 2)
  else .l2cTiny (field w 2 30)

/-- A second-level descriptor of a fine table by its type bits (R68). -/
def decodeL2Fine (w : Word) : Instr :=
  if field w 0 2 = 0 then .l2fFault (field w 2 30)
  else if field w 0 2 = 1 then
    .l2fLarge (field w 16 16) (field w 12 4) (field w 10 2) (field w 8 2) (field w 6 2) (field w 4 2)
      (w.getLsbD 3) (w.getLsbD 2)
  else if field w 0 2 = 2 then
    .l2fSmall (field w 12 20) (field w 10 2) (field w 8 2) (field w 6 2) (field w 4 2)
      (w.getLsbD 3) (w.getLsbD 2)
  else
    .l2fTiny (field w 10 22) (field w 6 4) (field w 4 2) (w.getLsbD 3) (w.getLsbD 2)

/-- A domain access control field (R76), held in the low two bits of the word. -/
def decodeDacField (w : Word) : Except DecodeError Instr :=
  if field w 2 30 ≠ 0 then .error .notADomainField
  else if field w 0 2 = 0 then .ok .dacNoAccess
  else if field w 0 2 = 1 then .ok .dacClient
  else if field w 0 2 = 2 then .ok .dacReserved
  else .ok .dacManager

/-- The fixed bits of a transfer to or from coprocessor 15 (R86): `[27:24] = 0b1110`,
`[11:8] = 0b1111`, `[4] = 1`. -/
def isCoprocTransfer (w : Word) : Bool :=
  field w 24 4 = 0b1110 ∧ field w 8 4 = 0b1111 ∧ field w 4 1 = 1

/-- A coprocessor register transfer (R86). -/
def decodeCoproc (w : Word) : Except DecodeError Instr :=
  if isCoprocTransfer w then
    .ok (.mcrMrc (field w 28 4) (field w 21 3) (w.getLsbD 20) (field w 16 4) (field w 12 4)
      (field w 5 3) (field w 0 4))
  else .error .notACoprocessorTransfer

/-- The decoder: the row that a word is in a given role, or the name of what is wrong with it. -/
def decodeWord (r : Role) (w : Word) : Except DecodeError Instr :=
  match r with
  | .l1Desc => .ok (decodeL1Desc w)
  | .l2Desc .coarse => .ok (decodeL2Coarse w)
  | .l2Desc .fine => .ok (decodeL2Fine w)
  | .dacField => decodeDacField w
  | .ttbReg => .ok (.ttb (field w 14 18) (field w 0 14))
  | .ctrlReg => .ok (.ctrl w)
  | .l1Addr =>
    if field w 0 2 = 0 then .ok (.l1Addr (field w 14 18) (field w 2 12))
    else .error .notADescriptorAddress
  | .l2Addr .coarse =>
    if field w 0 2 = 0 then .ok (.l2AddrCoarse (field w 10 22) (field w 2 8))
    else .error .notADescriptorAddress
  | .l2Addr .fine =>
    if field w 0 2 = 0 then .ok (.l2AddrFine (field w 12 20) (field w 2 10))
    else .error .notADescriptorAddress
  | .coproc => decodeCoproc w

/-- The role in which the MMU meets a row. -/
def Instr.role : Instr → Role
  | .l1Fault _ => .l1Desc
  | .l1Coarse _ _ _ _ => .l1Desc
  | .l1Section _ _ _ _ _ _ _ _ => .l1Desc
  | .l1Fine _ _ _ _ => .l1Desc
  | .l2cFault _ => .l2Desc .coarse
  | .l2cLarge _ _ _ _ _ _ _ _ => .l2Desc .coarse
  | .l2cSmall _ _ _ _ _ _ _ => .l2Desc .coarse
  | .l2cTiny _ => .l2Desc .coarse
  | .l2fFault _ => .l2Desc .fine
  | .l2fLarge _ _ _ _ _ _ _ _ => .l2Desc .fine
  | .l2fSmall _ _ _ _ _ _ _ => .l2Desc .fine
  | .l2fTiny _ _ _ _ _ => .l2Desc .fine
  | .dacNoAccess => .dacField
  | .dacClient => .dacField
  | .dacReserved => .dacField
  | .dacManager => .dacField
  | .ttb _ _ => .ttbReg
  | .ctrl _ => .ctrlReg
  | .l1Addr _ _ => .l1Addr
  | .l2AddrCoarse _ _ => .l2Addr .coarse
  | .l2AddrFine _ _ => .l2Addr .fine
  | .mcrMrc _ _ _ _ _ _ _ => .coproc

/-- A large page descriptor (R70). -/
def encodeLarge (base : BitVec 16) (sbz : BitVec 4) (ap3 ap2 ap1 ap0 : BitVec 2) (c b : Bool) : Word :=
  base ++ sbz ++ ap3 ++ ap2 ++ ap1 ++ ap0 ++ BitVec.ofBool c ++ BitVec.ofBool b ++ 0b01#2

/-- A small page descriptor (R71). -/
def encodeSmall (base : BitVec 20) (ap3 ap2 ap1 ap0 : BitVec 2) (c b : Bool) : Word :=
  base ++ ap3 ++ ap2 ++ ap1 ++ ap0 ++ BitVec.ofBool c ++ BitVec.ofBool b ++ 0b10#2

/-- The encoder: the word of a row, its fields joined from most to least significant bit as the opcode
table has them. A domain access control field stands in the low two bits. -/
def encode : Instr → Word
  | .l1Fault ignored => ignored ++ 0b00#2
  | .l1Coarse base sbz domain imp => base ++ sbz ++ domain ++ imp ++ 0b01#2
  | .l1Section base sbzHi ap sbz domain imp c b =>
    base ++ sbzHi ++ ap ++ sbz ++ domain ++ imp ++ BitVec.ofBool c ++ BitVec.ofBool b ++ 0b10#2
  | .l1Fine base sbz domain imp => base ++ sbz ++ domain ++ imp ++ 0b11#2
  | .l2cFault ignored => ignored ++ 0b00#2
  | .l2cLarge base sbz ap3 ap2 ap1 ap0 c b => encodeLarge base sbz ap3 ap2 ap1 ap0 c b
  | .l2cSmall base ap3 ap2 ap1 ap0 c b => encodeSmall base ap3 ap2 ap1 ap0 c b
  | .l2cTiny undescribed => undescribed ++ 0b11#2
  | .l2fFault ignored => ignored ++ 0b00#2
  | .l2fLarge base sbz ap3 ap2 ap1 ap0 c b => encodeLarge base sbz ap3 ap2 ap1 ap0 c b
  | .l2fSmall base ap3 ap2 ap1 ap0 c b => encodeSmall base ap3 ap2 ap1 ap0 c b
  | .l2fTiny base sbz ap c b =>
    base ++ sbz ++ ap ++ BitVec.ofBool c ++ BitVec.ofBool b ++ 0b11#2
  | .dacNoAccess => 0#30 ++ 0b00#2
  | .dacClient => 0#30 ++ 0b01#2
  | .dacReserved => 0#30 ++ 0b10#2
  | .dacManager => 0#30 ++ 0b11#2
  | .ttb base sbz => base ++ sbz
  | .ctrl value => value
  | .l1Addr base index => base ++ index ++ 0b00#2
  | .l2AddrCoarse base index => base ++ index ++ 0b00#2
  | .l2AddrFine base index => base ++ index ++ 0b00#2
  | .mcrMrc cond opc1 load crn rd opc2 crm =>
    cond ++ 0b1110#4 ++ opc1 ++ BitVec.ofBool load ++ crn ++ rd ++ 0b1111#4 ++ opc2 ++ 0b1#1 ++ crm

/-- The word whose bytes lie at four rising addresses, in a byte order (R45). -/
def wordOfBytes (o : ByteOrder) (b0 b1 b2 b3 : Byte) : Word :=
  match o with
  | .little => b3 ++ b2 ++ b1 ++ b0
  | .big => b0 ++ b1 ++ b2 ++ b3

/-- The four bytes of a word at rising addresses, in a byte order (R45). -/
def bytesOfWord (o : ByteOrder) (w : Word) : List Byte :=
  match o with
  | .little => [field w 0 8, field w 8 8, field w 16 8, field w 24 8]
  | .big => [field w 24 8, field w 16 8, field w 8 8, field w 0 8]

/-- The decoder on bytes: one byte for a domain access control field, four for every other role; it
answers the row and the bytes that are left. -/
def decode (o : ByteOrder) (r : Role) (bytes : List Byte) : Except DecodeError (Instr × List Byte) :=
  match r, bytes with
  | .dacField, b :: rest => (decodeWord .dacField (b.setWidth 32)).map (·, rest)
  | .dacField, [] => .error .truncated
  | r, b0 :: b1 :: b2 :: b3 :: rest => (decodeWord r (wordOfBytes o b0 b1 b2 b3)).map (·, rest)
  | _, _ => .error .truncated

/-- The encoder on bytes. -/
def encodeBytes (o : ByteOrder) (i : Instr) : List Byte :=
  match i.role with
  | .dacField => [field (encode i) 0 8]
  | _ => bytesOfWord o (encode i)

/-- The role in which a bare table word is read when nothing says its role (log entry 2): eight bits are
a domain access control field, a word with the fixed bits of R86 is a coprocessor register transfer, and
any other word is a first-level descriptor, the first thing a walk meets (R90). -/
def tableRole (nbits w : Nat) : Role :=
  if nbits ≤ 8 then .dacField
  else if isCoprocTransfer (BitVec.ofNat 32 w) then .coproc
  else .l1Desc

/-- The bytes of a bare table word as they lie in memory, the byte order being `little` (log entry 5). -/
def tableBytes (nbits w : Nat) : List Byte :=
  if nbits ≤ 8 then [BitVec.ofNat 8 w] else bytesOfWord .little (BitVec.ofNat 32 w)

/-- The row the decoder reads from a bare word of the opcode table. -/
def decodeTableWord (nbits w : Nat) : Option Instr :=
  match decode .little (tableRole nbits w) (tableBytes nbits w) with
  | .ok (i, _) => some i
  | .error _ => none

end Sys2Proof
end

