-- ==== Sys2Proof/Machine/ResetValues.lean ====
section
/-! DEFINITION. The values of the state right after reset that the spec leaves open, and what a byte of
main memory that nothing has written reads as.

R28 gives the one reset value there is, `CTRL.M = 0`; R29 leaves every other value unspecified. Each
value here is a DESIGN CHOICE (log entries 6, 7, 8 and 16), unsafe; a statement that names one of them says so.
-/

namespace Sys2Proof.Machine

/-- The implementation parameters of the machine at reset: R5's defaults where it gives one, the
convention of `95_test_vectors.md` for the others (log entry 16); the two positions, the register number and
the field order are PRESUMED (log entry 9). -/
def resetConfig : Config where
  tlbOrg := .unified
  tlbEntries := none
  tlbCachesFaults := false
  tlbLockdown := true
  hasCache := false
  hasWriteBuffer := false
  cacheWithMmuOff := false
  impSectionBit4 := ⟨0⟩
  impPageTableBits := ⟨0⟩
  fcse := false
  byteOrder := .little
  sBitPos := 8
  rBitPos := 9
  dacrRegnum := 3
  dacrFieldOrder := #v[0, 1, 2, 3, 4, 5, 6, 7, 8, 9, 10, 11, 12, 13, 14, 15]
  sbzPolicy := .ignoreBits
  walkSees := .mainMemoryOnly
  fetchAbortRecorded := false
  archVersion := ⟨0⟩

/-- CP15 register 1 at reset: bit 0 is 0 (R28); the other bits are log entry 6's. -/
def resetCtrl : Word := 0

/-- CP15 register 2 at reset (log entry 6). -/
def resetTtb : Word := 0

/-- The domain access control register at reset (log entry 6). -/
def resetDac : Word := 0

/-- The fault status register at reset (log entry 6). -/
def resetFsr : Word := 0

/-- The fault address register at reset (log entry 6). -/
def resetFar : Word := 0

/-- What a byte of main memory that nothing has written reads as (log entry 8). -/
def unlistedByte : Byte := 0

end Sys2Proof.Machine
end

