-- ==== Sys2Proof/Machine/State.lean ====
section
/-! DEFINITION. The state of the MMU-based memory system, as plain data: every piece of state the spec
names (R10), the implementation parameters (R5), and the model's own fields that say where the MMU stands
in the operation it is performing. -/

namespace Sys2Proof.Machine

/-- The kind of an access (R26). -/
inductive AccessKind where
  | fetch
  | read
  | write
deriving DecidableEq, Repr

/-- The privilege state of the processor (R26, R174). -/
inductive Priv where
  | user
  | privileged
deriving DecidableEq, Repr

/-- What an access carries: how many bytes are fetched or read, or the bytes written (R8). -/
inductive Transfer where
  | fetch (size : Nat)
  | read (size : Nat)
  | write (data : List Byte)
deriving DecidableEq, Repr

/-- One access the processor issues (R26, R31). -/
structure Access where
  va : Word
  transfer : Transfer
  priv : Priv
deriving DecidableEq, Repr

/-- The level that qualifies a fault: `section` or `page` (R8). -/
inductive Level where
  | sect
  | page
deriving DecidableEq, Repr

/-- The six abort kinds (R8, R161 to R164). -/
inductive AbortKind where
  | translation (l : Level)
  | domain (l : Level)
  | permission (l : Level)
deriving DecidableEq, Repr

/-- The abstract record of the last abort (R17, R168). -/
structure FaultRecord where
  kind : AbortKind
  va : Word
  domain : Option (BitVec 4)
deriving DecidableEq, Repr

/-- The mapping of a TLB entry (R19): its kind, its virtual and physical base at that kind's width, and
its raw access permission bits. -/
inductive Mapping where
  | sect (vbase pbase : BitVec 12) (ap : BitVec 2)
  | large (vbase pbase : BitVec 16) (ap3 ap2 ap1 ap0 : BitVec 2)
  | small (vbase pbase : BitVec 20) (ap3 ap2 ap1 ap0 : BitVec 2)
  | tiny (vbase pbase : BitVec 22) (ap : BitVec 2)
deriving DecidableEq, Repr

/-- One TLB entry (R19). -/
structure TlbEntry where
  mapping : Mapping
  domain : BitVec 4
  c : Bool
  b : Bool
  locked : Bool
deriving DecidableEq, Repr

/-- A translation fault that a TLB holds under `TLB_CACHES_FAULTS` (D6, log entry 28): the virtual base of
the region that one fault descriptor leaves unmapped, 1MB at the first level, 4KB in a coarse table and 1KB
in a fine one, and the domain where it is known (R161, R162). -/
inductive HeldFault where
  | sect (vbase : BitVec 12)
  | coarse (vbase : BitVec 20) (domain : BitVec 4)
  | fine (vbase : BitVec 22) (domain : BitVec 4)
deriving DecidableEq, Repr

/-- One line of a TLB: an entry (R19) or, under `TLB_CACHES_FAULTS`, a held translation fault. -/
inductive TlbLine where
  | entry (e : TlbEntry)
  | fault (f : HeldFault)
deriving DecidableEq, Repr

/-- Which of the two TLBs of a split organisation an access goes to (R32). -/
inductive TlbSide where
  | instruction
  | data
deriving DecidableEq, Repr

/-- The argument of `TLBFlush` (R146). -/
inductive FlushWhich where
  | all
  | instruction
  | data
deriving DecidableEq, Repr

/-- The control operations (R140 to R149), as the processor asks for them. -/
inductive ControlOp where
  /-- `WriteControl(v)`, performed by code at virtual address `codeVa` (R140 to R142, R198). -/
  | writeControl (v codeVa : Word)
  /-- `WriteTTB(v)` (R143). -/
  | writeTtb (v : Word)
  /-- `WriteDAC(v)` (R144). -/
  | writeDac (v : Word)
  /-- `ReadControl` (R145). -/
  | readControl
  /-- `ReadTTB` (R145). -/
  | readTtb
  /-- `ReadDAC` (R145). -/
  | readDac
  /-- Reading the fault status information (R145, R168). -/
  | readFault
  /-- `TLBFlush(which)` (R146). -/
  | tlbFlush (which : FlushWhich)
  /-- `TLBLock(T, va)` (R147). -/
  | tlbLock (side : TlbSide) (va : Word)
  /-- `TLBUnlock(T, e)` (R147). -/
  | tlbUnlock (side : TlbSide) (e : TlbEntry)
  /-- `CacheFlush` (R149). -/
  | cacheFlush
deriving DecidableEq, Repr

/-- What the processor does to the MMU (R3 (a)), in program order (R150). -/
inductive Request where
  /-- `Access(va, kind, priv)` with its data (R31). -/
  | access (a : Access)
  /-- A control operation, with the privilege state it is issued from (R148). -/
  | control (op : ControlOp) (priv : Priv)
  /-- A coprocessor register transfer (R86): its word, the value the processor holds in Rd, the virtual
  address of the instruction, and whether the processor's flags meet its condition. -/
  | coproc (word rdValue codeVa : Word) (condPassed : Bool) (priv : Priv)
  /-- The processor makes sure that its writes have reached main memory (R194 step 2, R199). -/
  | drain
deriving DecidableEq, Repr

/-- What the MMU answers the processor. -/
inductive Response where
  /-- The access proceeded: its physical address, cache control bits and data (R31). -/
  | ok (pa : Word) (c b : Bool) (data : List Byte)
  /-- The memory abort (R160). -/
  | abort (kind : AbortKind) (va : Word)
  /-- A control operation is over. -/
  | done
  /-- The value of a register that was read (R145). -/
  | value (v : Word)
  /-- The fault status information (R145, R168). -/
  | faultRecord (r : Option FaultRecord)
  /-- The value an MRC transfers to Rd (R86). -/
  | coprocValue (rd : BitVec 4) (v : Word)
deriving DecidableEq, Repr

/-- For what a table walk is made: an access (R31) or a `TLBLock` (R147). -/
inductive Purpose where
  | access (a : Access)
  | lock (side : TlbSide) (va : Word)
deriving DecidableEq, Repr

/-- Where the MMU stands in the operation it performs, and the word it is about to decode. -/
inductive Phase where
  /-- No operation is in progress. -/
  | idle
  /-- A value is being written to CP15 register 1. -/
  | ctrlWrite (v codeVa : Word) (priv : Priv)
  /-- A value is being written to CP15 register 2. -/
  | ttbWrite (v : Word) (priv : Priv)
  /-- A coprocessor register transfer is being performed. -/
  | coproc (word rdValue codeVa : Word) (condPassed : Bool) (priv : Priv)
  /-- The address of the first-level descriptor has been formed (R92). -/
  | l1Addr (addr : Word) (p : Purpose)
  /-- The first-level descriptor has been read (R93). -/
  | l1Desc (desc : Word) (p : Purpose)
  /-- The address of the second-level descriptor has been formed (R95, R96). -/
  | l2Addr (t : TableKind) (addr : Word) (domain : BitVec 4) (p : Purpose)
  /-- The second-level descriptor has been read (R97). -/
  | l2Desc (t : TableKind) (desc : Word) (domain : BitVec 4) (p : Purpose)
  /-- The entry that governs the access is at hand and is being checked (R139). -/
  | check (e : TlbEntry) (a : Access)
deriving DecidableEq, Repr

/-- A processor write that has not yet reached main memory (R44, R49 (c)). -/
structure PendingWrite where
  pa : Word
  data : List Byte
deriving DecidableEq, Repr

/-- Main memory (R24): its bytes in rising order of address, without the bytes that are equal to what
an unlisted address reads as. -/
abbrev Memory := List Host.Cell

/-- The machine. -/
structure State where
  /-- The implementation parameters (R5). Fixed: no step changes them. -/
  cfg : Config
  /-- CP15 register 1 (R11 to R13). -/
  ctrl : Word
  /-- CP15 register 2 (R14). -/
  ttb : Word
  /-- The domain access control register (R15). -/
  dac : Word
  /-- `LastFault` (R17, R168). -/
  lastFault : Option FaultRecord
  /-- The fault status register, CP15 register 5 (R169). -/
  fsr : Word
  /-- The fault address register, CP15 register 6 (R169). -/
  far : Word
  /-- The TLB of a unified organisation (R18). -/
  tlb : List TlbLine
  /-- The instruction TLB of a split organisation (R18). -/
  itlb : List TlbLine
  /-- The data TLB of a split organisation (R18). -/
  dtlb : List TlbLine
  /-- Whether the cache may hold anything (R23, R54): its contents themselves are out of scope. -/
  cacheHolds : Bool
  /-- The processor's writes that are held in the write buffer or the cache and have not yet reached
  main memory, oldest first (R23, R44, R49 (c)). -/
  pending : List PendingWrite
  /-- Main memory (R24). -/
  mem : Memory
  /-- The processor's operations still to come, in program order (R27, R49). -/
  inputs : List Request
  /-- Where the MMU stands in the operation it performs. -/
  phase : Phase
  /-- The MMU's answers, the newest first. -/
  outputs : List Response
  /-- The descriptor addresses that the operation in progress, or else the last one, has read (R205). -/
  walkReads : List Word
  /-- How many free values have been drawn: the index of the next one. -/
  draws : Nat
deriving DecidableEq, Repr

/-- Why the machine stops. Each is one of the conditions the spec calls UNPREDICTABLE and is none of the
memory aborts (R165). -/
inductive Fault where
  /-- Raised by the row `L2C_TINY`: a tiny page descriptor in a coarse table (R73). Safe: the hardware
  may go on, the model proves nothing of it. -/
  | tinyInCoarse
  /-- Raised by the row `DAC_RESERVED`: an access whose domain field is `0b10` (R124). Safe. -/
  | domainReserved
  /-- Raised by the row `DAC_CLIENT` when `AP = 0b00`, `S = 1` and `R = 1` (R129). Safe. -/
  | apWithSystemAndRom
deriving DecidableEq, Repr

/-- Why the machine gives an operation no meaning. -/
inductive Refusal where
  /-- Raised by `exec` for an instruction whose meaning is not written. Safe. -/
  | notModelled (mnemonic : String)
  /-- Raised by a row that is given a state in which the MMU is not about to decode a word of that row's
  role: a descriptor with no walk in progress has no meaning. No step raises it. Safe. -/
  | noOperation
  /-- Raised by the step for a word that is no row of its role. Safe. -/
  | undecodable (e : DecodeError)
  /-- Raised by a row with a nonzero should-be-zero field under `SBZ_POLICY = refuse` (R82). Safe. -/
  | sbzNonzero
  /-- Raised by an access that runs past the end of its translation region (R47). Safe. -/
  | spansRegions
  /-- Raised by a control operation attempted from user state (R148). Safe. -/
  | userControlOperation
  /-- Raised by a `WriteControl` that changes M from code that the tables do not map to itself (R141,
  R198). Safe. -/
  | enableNotIdentityMapped
  /-- Raised by `TLBLock` and `TLBUnlock` when `TLB_LOCKDOWN` is false (R147). Safe. -/
  | noTlbLockdown
  /-- Raised by a transfer to or from a CP15 register, or in a form, that the spec does not describe
  (R2, R86). Safe. -/
  | cp15NotDescribed (crn crm : BitVec 4) (opc2 : BitVec 3)
deriving DecidableEq, Repr

/-- The machine right after reset: `CTRL.M = 0` (R28); every other value is unspecified (R29) and is
the one its log entry names. -/
def State.reset : State where
  cfg := resetConfig
  ctrl := resetCtrl
  ttb := resetTtb
  dac := resetDac
  lastFault := none
  fsr := resetFsr
  far := resetFar
  tlb := []
  itlb := []
  dtlb := []
  cacheHolds := true
  pending := []
  mem := []
  inputs := []
  phase := .idle
  outputs := []
  walkReads := []
  draws := 0

end Sys2Proof.Machine
end

