-- ==== Sys2Proof/Machine/Flags.lean ====
section
/-! DEFINITION. The MMU has no flags (R27). What stands here are the status bits that its operations
read: the control bits M, S and R, the access permissions of table 3-3, and the status codes of the fault
status register. -/

namespace Sys2Proof.Machine

/-- `CTRL.M`: the MMU is enabled (R11). -/
def State.mmuOn (s : State) : Bool := s.ctrl.getLsbD 0

/-- `CTRL.S` (R12, log entry 9). -/
def State.systemBit (s : State) : Bool := s.ctrl.getLsbD s.cfg.sBitPos

/-- `CTRL.R` (R12, log entry 9). -/
def State.romBit (s : State) : Bool := s.ctrl.getLsbD s.cfg.rBitPos

/-- The three levels of permission (R126 to R133). -/
inductive Permission where
  | noAccess
  | readOnly
  | readWrite
deriving DecidableEq, Repr

/-- Table 3-3 (R126 to R132): the permission level, or none where the table says unpredictable (R129). -/
def permission (ap : BitVec 2) (system rom : Bool) (priv : Priv) : Option Permission :=
  if ap = 0b00 then
    match system, rom, priv with
    | false, false, _ => some .noAccess
    | true, false, .privileged => some .readOnly
    | true, false, .user => some .noAccess
    | false, true, _ => some .readOnly
    | true, true, _ => none
  else if ap = 0b01 then
    match priv with
    | .privileged => some .readWrite
    | .user => some .noAccess
  else if ap = 0b10 then
    match priv with
    | .privileged => some .readWrite
    | .user => some .readOnly
  else some .readWrite

/-- Whether a level of permission allows a kind of access (R133): a fetch is checked as a read (R134). -/
def Permission.allows : Permission → AccessKind → Bool
  | .noAccess, _ => false
  | .readOnly, .write => false
  | .readOnly, .read => true
  | .readOnly, .fetch => true
  | .readWrite, _ => true

/-- `FSR[3:0]` of a fault (R169). -/
def faultStatus : AbortKind → BitVec 4
  | .translation .sect => 0b0101
  | .translation .page => 0b0111
  | .domain .sect => 0b1001
  | .domain .page => 0b1011
  | .permission .sect => 0b1101
  | .permission .page => 0b1111

/-- The fault status register after a fault (R169): status [3:0], domain [7:4], bit 8 zero; bits [31:9],
which R169 does not describe, are left as they are. -/
def faultStatusWord (old : Word) (domain status : BitVec 4) : Word :=
  field old 9 23 ++ 0b0#1 ++ domain ++ status

/-- The mask of the bits of CP15 register 1 that the spec describes: M, S and R (R11 to R13). -/
def ctrlMask (cfg : Config) : Word :=
  1#32 <<< 0 ||| 1#32 <<< cfg.sBitPos.val ||| 1#32 <<< cfg.rBitPos.val

/-- The mask of the significant bits of CP15 register 2 (R14). -/
def ttbMask : Word := 0xFFFFC000

/-- The mask of the bits of the fault status register that R169 describes. -/
def fsrMask : Word := 0x000001FF

/-- A register as it is read back (R145): the described bits as stored, the others free. -/
def readBack (mask stored free : Word) : Word :=
  (stored &&& mask) ||| (free &&& ~~~mask)

end Sys2Proof.Machine
end

