-- ==== Sys2Proof/Machine/Operands.lean ====
section
/-! DEFINITION. The operands of the MMU's operations: the fields of a virtual address (R61), the
descriptor addresses (R62, R74, R75), the parts of a TLB entry (R19, R33, R101, R107), the fields of the
registers (R11, R12, R15), and which word the MMU decodes next. -/

namespace Sys2Proof.Machine

/-- How many bytes a transfer moves. -/
def Transfer.size : Transfer → Nat
  | .fetch n => n
  | .read n => n
  | .write data => data.length

/-- The kind of a transfer (R26). -/
def Transfer.kind : Transfer → AccessKind
  | .fetch _ => .fetch
  | .read _ => .read
  | .write _ => .write

/-- The kind of an access (R26). -/
def Access.kind (a : Access) : AccessKind :=
  a.transfer.kind

/-- The address a walk translates. -/
def Purpose.va : Purpose → Word
  | .access a => a.va
  | .lock _ va => va

/-- The TLB of an access by its kind (R32): the instruction TLB for fetches, the data TLB for all other
kinds. -/
def AccessKind.side : AccessKind → TlbSide
  | .fetch => .instruction
  | .read => .data
  | .write => .data

/-- The TLB that a walk fills (R102, R147). -/
def Purpose.side : Purpose → TlbSide
  | .access a => a.kind.side
  | .lock side _ => side

/-- First-level table index, `va[31:20]` (R61). -/
def l1Index (va : Word) : BitVec 12 := field va 20 12

/-- Second-level table index in a coarse table, `va[19:12]` (R61). -/
def coarseIndex (va : Word) : BitVec 8 := field va 12 8

/-- Second-level table index in a fine table, `va[19:10]` (R61). -/
def fineIndex (va : Word) : BitVec 10 := field va 10 10

/-- `TTB[31:14] : va[31:20] : 0b00` (R62). -/
def l1DescAddr (ttb va : Word) : Word := field ttb 14 18 ++ l1Index va ++ 0b00#2

/-- `L1D[31:10] : va[19:12] : 0b00`, from the base field of a coarse page table descriptor (R74). -/
def coarseDescAddr (base : BitVec 22) (va : Word) : Word := base ++ coarseIndex va ++ 0b00#2

/-- `L1D[31:12] : va[19:10] : 0b00`, from the base field of a fine page table descriptor (R75). -/
def fineDescAddr (base : BitVec 20) (va : Word) : Word := base ++ fineIndex va ++ 0b00#2

/-- Whether an entry's mapping covers a virtual address (R33): the bits above the kind's index equal its
virtual base. -/
def Mapping.covers (m : Mapping) (va : Word) : Bool :=
  match m with
  | .sect v _ _ => field va 20 12 = v
  | .large v _ _ _ _ _ => field va 16 16 = v
  | .small v _ _ _ _ _ => field va 12 20 = v
  | .tiny v _ _ => field va 10 22 = v

/-- Whether a held translation fault covers a virtual address: the address selects the same fault
descriptor (R61, log entry 28). -/
def HeldFault.covers (f : HeldFault) (va : Word) : Bool :=
  match f with
  | .sect v => field va 20 12 = v
  | .coarse v _ => field va 12 20 = v
  | .fine v _ => field va 10 22 = v

/-- The level of a held translation fault (R161, R162). -/
def HeldFault.level : HeldFault → Level
  | .sect _ => .sect
  | .coarse _ _ => .page
  | .fine _ _ => .page

/-- The domain of a held translation fault, where it is known (R161, R162). -/
def HeldFault.domain : HeldFault → Option (BitVec 4)
  | .sect _ => none
  | .coarse _ d => some d
  | .fine _ d => some d

/-- The translation fault of a second-level descriptor in a table of kind `t` (R162). -/
def HeldFault.page (t : TableKind) (va : Word) (domain : BitVec 4) : HeldFault :=
  match t with
  | .coarse => .coarse (field va 12 20) domain
  | .fine => .fine (field va 10 22) domain

/-- `Matches` for a line of a TLB (R33). -/
def TlbLine.covers (x : TlbLine) (va : Word) : Bool :=
  match x with
  | .entry e => e.mapping.covers va
  | .fault f => f.covers va

/-- Only an entry can be locked (R21, R147). -/
def TlbLine.locked : TlbLine → Bool
  | .entry e => e.locked
  | .fault _ => false

/-- The physical address of an access through an entry: its physical base joined with the low bits of
the virtual address (R79, R107). -/
def Mapping.physAddr (m : Mapping) (va : Word) : Word :=
  match m with
  | .sect _ p _ => p ++ field va 0 20
  | .large _ p _ _ _ _ => p ++ field va 0 16
  | .small _ p _ _ _ _ => p ++ field va 0 12
  | .tiny _ p _ => p ++ field va 0 10

/-- One of four subpage permissions, AP0 being that of the subpage lowest in address (R101). -/
def subpage (k ap3 ap2 ap1 ap0 : BitVec 2) : BitVec 2 :=
  if k = 0 then ap0 else if k = 1 then ap1 else if k = 2 then ap2 else ap3

/-- The access permission bits that govern an access through an entry (R101, R135). -/
def Mapping.ap (m : Mapping) (va : Word) : BitVec 2 :=
  match m with
  | .sect _ _ ap => ap
  | .large _ _ ap3 ap2 ap1 ap0 => subpage (field va 14 2) ap3 ap2 ap1 ap0
  | .small _ _ ap3 ap2 ap1 ap0 => subpage (field va 10 2) ap3 ap2 ap1 ap0
  | .tiny _ _ ap => ap

/-- How many bytes of the translation region lie at or above a virtual address (R9): 1MB, 64KB, 4KB or
1KB less the offset in the region. -/
def Mapping.room (m : Mapping) (va : Word) : Nat :=
  match m with
  | .sect _ _ _ => 2 ^ 20 - (field va 0 20).toNat
  | .large _ _ _ _ _ _ => 2 ^ 16 - (field va 0 16).toNat
  | .small _ _ _ _ _ _ => 2 ^ 12 - (field va 0 12).toNat
  | .tiny _ _ _ => 2 ^ 10 - (field va 0 10).toNat

/-- How many bytes of the flat address space lie at or above an address (R43). -/
def flatRoom (va : Word) : Nat := 2 ^ 32 - va.toNat

/-- The level a fault of an entry is qualified with (R139): `section` for a section, else `page`. -/
def Mapping.level : Mapping → Level
  | .sect _ _ _ => .sect
  | .large _ _ _ _ _ _ => .page
  | .small _ _ _ _ _ _ => .page
  | .tiny _ _ _ => .page

/-- `DAC.D(n)` of a value of the domain access control register: the bit pair that `DACR_FIELD_ORDER` gives
the domain (R15, log entry 9). -/
def dacField (cfg : Config) (dac : Word) (domain : BitVec 4) : BitVec 2 :=
  field dac (2 * (cfg.dacrFieldOrder[domain.toNat]'domain.isLt).val) 2

/-- `DAC.D(n)` (R15, R121). -/
def State.domainField (s : State) (domain : BitVec 4) : BitVec 2 :=
  dacField s.cfg s.dac domain

/-- The walk that waits for a first-level descriptor address, with that of a first-level descriptor. -/
def Phase.atL1Addr : Phase → Option Purpose
  | .l1Addr _ p => some p
  | _ => none

/-- The walk that waits for a first-level descriptor. -/
def Phase.atL1Desc : Phase → Option Purpose
  | .l1Desc _ p => some p
  | _ => none

/-- The walk that waits for the address of a second-level descriptor of a table of kind `t`, with the
domain of its first-level descriptor. -/
def Phase.atL2Addr (t : TableKind) : Phase → Option (BitVec 4 × Purpose)
  | .l2Addr t' _ d p => if t' = t then some (d, p) else none
  | _ => none

/-- The walk that waits for a second-level descriptor of a table of kind `t`, with the domain of its
first-level descriptor. -/
def Phase.atL2Desc (t : TableKind) : Phase → Option (BitVec 4 × Purpose)
  | .l2Desc t' _ d p => if t' = t then some (d, p) else none
  | _ => none

/-- The access that waits for the domain access control field of its entry. -/
def Phase.atCheck : Phase → Option (TlbEntry × Access)
  | .check e a => some (e, a)
  | _ => none

/-- The word the MMU decodes next, and in which role; none when it waits for the processor. -/
def State.nextWord (s : State) : Option (Role × Word) :=
  match s.phase with
  | .idle => none
  | .ctrlWrite v _ _ => some (.ctrlReg, v)
  | .ttbWrite v _ => some (.ttbReg, v)
  | .coproc w _ _ _ _ => some (.coproc, w)
  | .l1Addr a _ => some (.l1Addr, a)
  | .l1Desc d _ => some (.l1Desc, d)
  | .l2Addr t a _ _ => some (.l2Addr t, a)
  | .l2Desc t d _ _ => some (.l2Desc t, d)
  | .check e _ => some (.dacField, (s.domainField e.domain).setWidth 32)

end Sys2Proof.Machine
end

