-- ==== Sys2Proof/Machine/Ops.lean ====
section
/-! DEFINITION. The named operations over the state that the meanings share: record updates, main memory,
the processor's writes on their way to it, the TLBs, taking a memory abort, ending a walk, and moving an
access's data. -/

namespace Sys2Proof.Machine

/-- What every operation that can stop answers. -/
abbrev Result := Host.Outcome State Fault Refusal

/-! ## Updates of one piece of state -/

def State.withPhase (p : Phase) (s : State) : State := { s with phase := p }

def State.withCtrl (v : Word) (s : State) : State := { s with ctrl := v }

def State.withTtb (v : Word) (s : State) : State := { s with ttb := v }

def State.withDac (v : Word) (s : State) : State := { s with dac := v }

def State.withFsr (v : Word) (s : State) : State := { s with fsr := v }

def State.withFar (v : Word) (s : State) : State := { s with far := v }

def State.withLastFault (r : FaultRecord) (s : State) : State := { s with lastFault := some r }

def State.withCacheHolds (h : Bool) (s : State) : State := { s with cacheHolds := h }

def State.withMem (m : Memory) (s : State) : State := { s with mem := m }

def State.withPending (ps : List PendingWrite) (s : State) : State := { s with pending := ps }

def State.withInputs (rs : List Request) (s : State) : State := { s with inputs := rs }

def State.withWalkReads (as : List Word) (s : State) : State := { s with walkReads := as }

/-- One free value has been drawn. -/
def State.tick (s : State) : State := { s with draws := s.draws + 1 }

/-- The operation in progress is over and the processor has its answer. -/
def State.respond (r : Response) (s : State) : State :=
  { s with outputs := r :: s.outputs, phase := .idle }

/-! ## Main memory (R24, R45) -/

/-- The byte at an address. -/
def Memory.read : Memory → Nat → Byte
  | [], _ => unlistedByte
  | (k, v) :: rest, a => if a = k then v else Memory.read rest a

/-- Write the byte at an address, keeping the canonical form. -/
def Memory.write : Memory → Nat → Byte → Memory
  | [], a, b => if b = unlistedByte then [] else [(a, b)]
  | (k, v) :: rest, a, b =>
    if a < k then (if b = unlistedByte then (k, v) :: rest else (a, b) :: (k, v) :: rest)
    else if a = k then (if b = unlistedByte then rest else (a, b) :: rest)
    else (k, v) :: Memory.write rest a b

/-- The canonical form: addresses strictly rising and inside the 32-bit physical address space, and no
entry equal to what an unlisted address reads as. -/
abbrev Memory.wf (m : Memory) : Prop :=
  (m.map Prod.fst).Pairwise (· < ·) ∧ ∀ x ∈ m, x.1 < 2 ^ 32 ∧ x.2 ≠ unlistedByte

/-- Write bytes at rising physical addresses. -/
def Memory.writeBytes : Memory → Word → List Byte → Memory
  | m, _, [] => m
  | m, a, b :: bs => Memory.writeBytes (m.write a.toNat b) (a + 1) bs

/-! ## The processor's writes that are not yet in main memory (R44, R49 (c), log entry 12) -/

/-- The byte a held write has for an address, if it writes there. -/
def PendingWrite.byteAt (p : PendingWrite) (a : Word) : Option Byte :=
  p.data[(a - p.pa).toNat]?

/-- Whether two held writes touch a common byte. -/
def PendingWrite.overlaps (p q : PendingWrite) : Bool :=
  (List.range p.data.length).any fun i => (q.byteAt (p.pa + BitVec.ofNat 32 i)).isSome

/-- The byte the newest held write has for an address. -/
def pendingByte : List PendingWrite → Word → Option Byte
  | [], _ => none
  | p :: ps, a => (pendingByte ps a).or (p.byteAt a)

/-- The byte of main memory at a physical address. -/
def State.memByte (s : State) (a : Word) : Byte :=
  s.mem.read a.toNat

/-- The byte the processor sees at a physical address: its own newest write there, in program order
(R49), whether or not that has reached main memory. -/
def State.coherentByte (s : State) (a : Word) : Byte :=
  (pendingByte s.pending a).getD (s.memByte a)

/-- `n` bytes of a view of memory at rising addresses. -/
def readBytes (view : Word → Byte) (a : Word) (n : Nat) : List Byte :=
  (List.range n).map fun i => view (a + BitVec.ofNat 32 i)

/-- Let some of the held writes reach main memory, each whole (R47): which ones is free, but a write does
not overtake an older one to the same byte. -/
def drainGo (n : Nat) : Nat → List PendingWrite → List PendingWrite → Memory → List PendingWrite × Memory
  | _, held, [], m => (held, m)
  | i, held, p :: ps, m =>
    if Config.freeDrain n i && !(held.any p.overlaps) then
      drainGo n (i + 1) held ps (m.writeBytes p.pa p.data)
    else drainGo n (i + 1) (held ++ [p]) ps m

/-- Some of the held writes reach main memory. -/
def State.drainSome (s : State) : State :=
  let r := drainGo s.draws 0 [] s.pending s.mem
  ((s.withPending r.1).withMem r.2).tick

/-- Every write of a list reaches main memory, oldest first. -/
def Memory.writeAll : Memory → List PendingWrite → Memory
  | m, [] => m
  | m, p :: ps => Memory.writeAll (m.writeBytes p.pa p.data) ps

/-- Every held write reaches main memory (R199). -/
def State.drainAll (s : State) : State :=
  (s.withMem (s.mem.writeAll s.pending)).withPending []

/-! ## The table walk's reads (R44) -/

/-- What the walk's reads see at an address (R44, `WALK_SEES`): main memory, or that under the held writes. With
`through cache and write buffer` the spec does not say what a walk gets from a cache that holds stale data: here
it gets none of that, and never the free bytes that a cacheable read of the processor may get (DESIGN CHOICE,
unsafe, log entries 12 and 13). -/
def State.walkByte (s : State) (a : Word) : Byte :=
  match s.cfg.walkSees with
  | .mainMemoryOnly => s.memByte a
  | .throughBuffer => s.coherentByte a

/-- The word at a word-aligned physical address, in the machine's byte order (R44, R45). -/
def State.walkWord (s : State) (a : Word) : Word :=
  wordOfBytes s.cfg.byteOrder (s.walkByte a) (s.walkByte (a + 1)) (s.walkByte (a + 2))
    (s.walkByte (a + 3))

/-- `PhysRead32(pa)` (R44), before which writes may reach main memory: the word and the state. The read fills no
cache, also where it is made through one, of which the spec says nothing (DESIGN CHOICE, unsafe, log entry 13). -/
def State.physRead32 (a : Word) (s : State) : Word × State :=
  let t := s.drainSome
  (t.walkWord a, t.withWalkReads (t.walkReads ++ [a]))

/-! ## The TLBs (R18 to R22) -/

/-- `SelectTLB` (R32). -/
def State.tlbOf (side : TlbSide) (s : State) : List TlbLine :=
  match s.cfg.tlbOrg, side with
  | .unified, _ => s.tlb
  | .split, .instruction => s.itlb
  | .split, .data => s.dtlb

/-- Replace the contents of the TLB that `SelectTLB` selects. -/
def State.withTlbOf (side : TlbSide) (es : List TlbLine) (s : State) : State :=
  match s.cfg.tlbOrg, side with
  | .unified, _ => { s with tlb := es }
  | .split, .instruction => { s with itlb := es }
  | .split, .data => { s with dtlb := es }

/-- The locked lines of a TLB and at most `k` unlocked ones. -/
def tlbTrim : Nat → List TlbLine → List TlbLine
  | _, [] => []
  | k, x :: xs =>
    if x.locked then x :: tlbTrim k xs
    else
      match k with
      | 0 => tlbTrim 0 xs
      | k + 1 => x :: tlbTrim k xs

/-- The lines that stay when one more is placed in a TLB of this capacity (R20). It is applied to what a free
set of overwritten lines has left; where that is still too many, those that stand last go too (DESIGN CHOICE,
log entry 4). -/
def tlbFit (capacity : Option Nat) (xs : List TlbLine) : List TlbLine :=
  match capacity with
  | none => xs
  | some n => tlbTrim (n - 1 - xs.countP TlbLine.locked) xs

/-- `T union { x }` in a TLB of this capacity: a TLB is a set (R19, R20). -/
def tlbInsert (capacity : Option Nat) (x : TlbLine) (xs : List TlbLine) : List TlbLine :=
  if x ∈ xs then xs else x :: tlbFit capacity xs

/-- `T \ V` for a free set V of unlocked lines (R102): position `i` on is looked at. -/
def tlbEvict (n : Nat) : Nat → List TlbLine → List TlbLine
  | _, [] => []
  | i, x :: xs =>
    if !x.locked && Config.freeEvict n i then tlbEvict n (i + 1) xs
    else x :: tlbEvict n (i + 1) xs

/-- `TLBFill(T, e)` (R102). -/
def State.tlbFill (side : TlbSide) (x : TlbLine) (s : State) : State :=
  (s.withTlbOf side (tlbInsert s.cfg.tlbEntries x (tlbEvict s.draws 0 (s.tlbOf side)))).tick

/-- The lines that a `TLBLock` leaves to stand beside its own (R147, log entry 4): all of them where a TLB has
no capacity, for then its rule is a plain union; else all but a free set of unlocked ones, as in a fill, since
which entry is overwritten is not stated (R20). -/
def tlbYield (capacity : Option Nat) (n : Nat) (xs : List TlbLine) : List TlbLine :=
  match capacity with
  | none => xs
  | some _ => tlbEvict n 0 xs

/-- `T union { e with locked = true }` (R147) in a TLB of this machine's capacity (R20). -/
def State.lockIn (side : TlbSide) (e : TlbEntry) (s : State) : State :=
  (s.withTlbOf side (tlbInsert s.cfg.tlbEntries (.entry { e with locked := true })
    (tlbYield s.cfg.tlbEntries s.draws (s.tlbOf side)))).tick

/-- `TLBLookup(T, va)` (R91). -/
def State.tlbLookup (side : TlbSide) (va : Word) (s : State) : List TlbLine :=
  (s.tlbOf side).filter fun x => x.covers va

/-- Remove from a TLB the unlocked lines that meet a test (R146). -/
def State.tlbRemove (side : TlbSide) (test : TlbLine → Bool) (s : State) : State :=
  s.withTlbOf side ((s.tlbOf side).filter fun x => x.locked || !test x)

/-- Remove the unlocked lines that meet a test from each TLB that `which` selects (R146). -/
def State.tlbFlush (which : FlushWhich) (test : TlbLine → Bool) (s : State) : State :=
  match which with
  | .all => (s.tlbRemove .instruction test).tlbRemove .data test
  | .instruction => s.tlbRemove .instruction test
  | .data => s.tlbRemove .data test

/-- `TLBUnlock(T, e)` (R147): the entry stays, unlocked. -/
def tlbUnlocked (e : TlbEntry) (xs : List TlbLine) : List TlbLine :=
  if e.locked ∧ .entry e ∈ xs then
    tlbInsert none (.entry { e with locked := false }) (xs.filter (· ≠ .entry e))
  else xs

/-! ## Taking a memory abort (R160, R168 to R170) -/

/-- Whether an abort of this kind of access updates the fault status and fault address registers
(R169). -/
def AccessKind.updatesFaultRegs (cfg : Config) : AccessKind → Bool
  | .fetch => cfg.fetchAbortRecorded
  | .read => true
  | .write => true

/-- Whether an abort of this walk updates the fault status and fault address registers (R169): a
`TLBLock` is no data access. -/
def Purpose.updatesFaultRegs (cfg : Config) : Purpose → Bool
  | .access a => a.kind.updatesFaultRegs cfg
  | .lock _ _ => false

/-- The fault status and fault address registers after an abort (R169). -/
def State.withFaultRegs (kind : AbortKind) (va : Word) (domain : Option (BitVec 4)) (s : State) : State :=
  (s.withFsr (faultStatusWord s.fsr (domain.getD (Config.freeDomain s.draws)) (faultStatus kind))).withFar va

/-- `raise Abort(kind, va)` (R160, R168): the fault is recorded, the processor is told, the access is
over. Where the processor goes on is the processor's (R171). There is no return from an abort in the MMU. -/
def State.raiseAbort (kind : AbortKind) (va : Word) (domain : Option (BitVec 4)) (toFaultRegs : Bool)
    (s : State) : State :=
  ((if toFaultRegs then s.withFaultRegs kind va domain else s).withLastFault ⟨kind, va, domain⟩).tick.respond
    (.abort kind va)

/-! ## Ending a walk -/

/-- The walk has found its entry: for an access it fills the TLB (R34, R102) and is checked next (R36);
for a `TLBLock` it is placed locked (R147). -/
def State.finishWalk (e : TlbEntry) (p : Purpose) (s : State) : State :=
  match p with
  | .access a => (s.tlbFill a.kind.side (.entry e)).withPhase (.check e a)
  | .lock side _ => (s.lockIn side e).respond .done

/-- A walk that ends in a translation fault puts nothing in the TLB (R34, D6), unless `TLB_CACHES_FAULTS`
holds: then the fault is held as a fill would hold an entry (log entry 28). -/
def State.holdFault (side : TlbSide) (f : HeldFault) (s : State) : State :=
  if s.cfg.tlbCachesFaults then s.tlbFill side (.fault f) else s

/-- Whether an abort of a walk for this purpose is signalled: while the MMU is disabled it generates no abort
signal (R42, R166), so a `TLBLock` whose walk faults then ends with nothing locked (log entry 27). -/
def State.signalsAbort (p : Purpose) (s : State) : Bool :=
  match p with
  | .access _ => true
  | .lock _ _ => s.mmuOn

/-- The walk has met a fault descriptor (R161, R162). -/
def State.walkFault (f : HeldFault) (p : Purpose) (s : State) : State :=
  if s.signalsAbort p then
    (s.holdFault p.side f).raiseAbort (.translation f.level) p.va f.domain (p.updatesFaultRegs s.cfg)
  else (s.holdFault p.side f).respond .done

/-! ## Moving an access's data (R8, R35 to R38) -/

/-- Whether an access with this C bit is looked up in a cache that may hold something, and hits: free
(R38, log entry 13). -/
def State.cacheHit (c : Bool) (s : State) : Bool :=
  c && s.cfg.hasCache && s.cacheHolds && Config.freeCacheHit s.draws

/-- After an access with this C bit the cache may hold something. -/
def State.touchCache (c : Bool) (s : State) : State :=
  s.withCacheHolds (s.cacheHolds || (c && s.cfg.hasCache))

/-- The bytes a data read gets: what the cache holds on a hit (R38), else the memory the processor
sees. -/
def State.loadData (pa : Word) (c : Bool) (n : Nat) (s : State) : List Byte :=
  if s.cacheHit c then (List.range n).map (Config.freeCacheByte s.draws)
  else readBytes s.coherentByte pa n

/-- The held writes that an instruction fetch sees at an address: free, write by write and byte by byte
(R53, log entry 15). -/
def fetchSees (n : Nat) (a : Word) : Nat → List PendingWrite → List PendingWrite
  | _, [] => []
  | i, p :: ps =>
    if Config.freeFetchSees n i a then p :: fetchSees n a (i + 1) ps else fetchSees n a (i + 1) ps

/-- The byte an instruction fetch sees at a physical address (R53). -/
def State.fetchByte (s : State) (a : Word) : Byte :=
  (pendingByte (fetchSees s.draws a 0 s.pending) a).getD (s.memByte a)

/-- The bytes an instruction fetch gets: as a data read, but which of the writes that have not reached main
memory it sees is open (R53). -/
def State.fetchData (pa : Word) (c : Bool) (n : Nat) (s : State) : List Byte :=
  if s.cacheHit c then (List.range n).map (Config.freeCacheByte s.draws)
  else readBytes s.fetchByte pa n

/-- Whether a write with these control bits may be held back from main memory (R35): its C bit with a
cache, or its B bit with a write buffer. -/
def holdsBack (cfg : Config) (c b : Bool) : Bool :=
  (c && cfg.hasCache) || (b && cfg.hasWriteBuffer)

/-- The physical address a held write goes to: on a cache hit the access's own is ignored (R38). -/
def State.writeAddress (pa : Word) (c : Bool) (s : State) : Word :=
  if s.cacheHit c then Config.freeLineAddress s.draws else pa

/-- A data write: held back where a cache or a write buffer takes it, else made in main memory, after
any older held write to the same bytes (R49). Where there is one, every held write arrives before it, those to
other bytes too, of which the spec says nothing (DESIGN CHOICE, unsafe, log entry 12). -/
def State.storeData (pa : Word) (c b : Bool) (data : List Byte) (s : State) : State :=
  if holdsBack s.cfg c b then s.withPending (s.pending ++ [⟨s.writeAddress pa c, data⟩])
  else
    let t := if s.pending.any (PendingWrite.overlaps ⟨pa, data⟩) then s.drainAll else s
    t.withMem (t.mem.writeBytes pa data)

/-- The data an access gives the processor, and the state after its data has moved. -/
def State.moveData (pa : Word) (c b : Bool) (t : Transfer) (s : State) : List Byte × State :=
  match t with
  | .fetch n => (s.fetchData pa c n, s)
  | .read n => (s.loadData pa c n, s)
  | .write data => ([], s.storeData pa c b data)

/-- The access proceeds (R31, R36): its data moves at the physical address and the processor gets
`(pa, c, b)`. An access that runs past the end of its region is outside the spec (R47). -/
def State.proceed (pa : Word) (c b : Bool) (room : Nat) (t : Transfer) (s : State) : Result :=
  if room < t.size then .refused .spansRegions
  else
    let r := s.moveData pa c b t
    .next ((r.2.touchCache c).tick.respond (.ok pa c b r.1))

/-- The access proceeds through the entry that was checked (R107). -/
def State.proceedThrough (e : TlbEntry) (a : Access) (s : State) : Result :=
  s.proceed (e.mapping.physAddr a.va) e.c e.b (e.mapping.room a.va) a.transfer

end Sys2Proof.Machine
end

