-- ==== Sys2Proof/Machine/Walk.lean ====
section
/-! DEFINITION. The translation table walk and the access check as functions of the state (R106, R139):
what the tables now say. The machine itself walks row by row (FirstLevel, SecondLevel,
DescriptorAddress); the walk as one function serves the identity-mapping condition of
`WriteControl` (R198) and the statements. -/

namespace Sys2Proof.Machine

/-- What a walk ends in (R90). -/
inductive WalkResult where
  | entry (e : TlbEntry)
  | abort (kind : AbortKind) (domain : Option (BitVec 4))
  | tinyInCoarse
  /-- A descriptor with a nonzero should-be-zero field under `SBZ_POLICY = refuse` (R82). -/
  | sbzNonzero
deriving DecidableEq, Repr

/-- The entry of a section descriptor (R94). -/
def sectEntry (va : Word) (base : BitVec 12) (ap : BitVec 2) (domain : BitVec 4) (c b : Bool) : TlbEntry :=
  ⟨.sect (field va 20 12) base ap, domain, c, b, false⟩

/-- The entry of a large page descriptor (R98). -/
def largeEntry (va : Word) (base : BitVec 16) (ap3 ap2 ap1 ap0 : BitVec 2) (domain : BitVec 4)
    (c b : Bool) : TlbEntry :=
  ⟨.large (field va 16 16) base ap3 ap2 ap1 ap0, domain, c, b, false⟩

/-- The entry of a small page descriptor (R99). -/
def smallEntry (va : Word) (base : BitVec 20) (ap3 ap2 ap1 ap0 : BitVec 2) (domain : BitVec 4)
    (c b : Bool) : TlbEntry :=
  ⟨.small (field va 12 20) base ap3 ap2 ap1 ap0, domain, c, b, false⟩

/-- The entry of a tiny page descriptor (R100). -/
def tinyEntry (va : Word) (base : BitVec 22) (ap : BitVec 2) (domain : BitVec 4) (c b : Bool) : TlbEntry :=
  ⟨.tiny (field va 10 22) base ap, domain, c, b, false⟩

/-- Whether a value with this should-be-zero test is refused (R82): only under `SBZ_POLICY = refuse`. -/
def refusesSbz (cfg : Config) (sbzIsZero : Bool) : Bool :=
  match cfg.sbzPolicy with
  | .ignoreBits => false
  | .refuseBits => !sbzIsZero

/-- The end of a walk at a second-level descriptor (R106, its second `case`). -/
def walkL2 (cfg : Config) (t : TableKind) (domain : BitVec 4) (va l2d : Word) : WalkResult :=
  if field l2d 0 2 = 0 then .abort (.translation .page) (some domain)
  else if field l2d 0 2 = 1 then
    if refusesSbz cfg (field l2d 12 4 = 0) then .sbzNonzero
    else .entry (largeEntry va (field l2d 16 16) (field l2d 10 2) (field l2d 8 2) (field l2d 6 2)
      (field l2d 4 2) domain (l2d.getLsbD 3) (l2d.getLsbD 2))
  else if field l2d 0 2 = 2 then
    .entry (smallEntry va (field l2d 12 20) (field l2d 10 2) (field l2d 8 2) (field l2d 6 2)
      (field l2d 4 2) domain (l2d.getLsbD 3) (l2d.getLsbD 2))
  else
    match t with
    | .fine =>
      if refusesSbz cfg (field l2d 6 4 = 0) then .sbzNonzero
      else .entry (tinyEntry va (field l2d 10 22) (field l2d 4 2) domain (l2d.getLsbD 3) (l2d.getLsbD 2))
    | .coarse => .tinyInCoarse

/-- The whole walk of R106, over what the walk's reads see of memory, with the tables refused where
`SBZ_POLICY` refuses them (R82). -/
def State.walk (s : State) (va : Word) : WalkResult :=
  let l1d := s.walkWord (l1DescAddr s.ttb va)
  if field l1d 0 2 = 0 then .abort (.translation .sect) none
  else if field l1d 0 2 = 2 then
    if refusesSbz s.cfg (field l1d 12 8 = 0 ∧ field l1d 9 1 = 0) then .sbzNonzero
    else
      .entry (sectEntry va (field l1d 20 12) (field l1d 10 2) (field l1d 5 4) (l1d.getLsbD 3)
        (l1d.getLsbD 2))
  else if field l1d 0 2 = 1 then
    if refusesSbz s.cfg (field l1d 9 1 = 0) then .sbzNonzero
    else walkL2 s.cfg .coarse (field l1d 5 4) va (s.walkWord (coarseDescAddr (field l1d 10 22) va))
  else
    if refusesSbz s.cfg (field l1d 9 3 = 0) then .sbzNonzero
    else walkL2 s.cfg .fine (field l1d 5 4) va (s.walkWord (fineDescAddr (field l1d 12 20) va))

/-- The tables map a virtual address to itself (R198). Tables that `SBZ_POLICY` refuses map nothing. The look
counts no held write as arrived in main memory, although a walk lets a free set of them arrive before each read
(DESIGN CHOICE, log entry 22). -/
def State.mapsToItself (s : State) (va : Word) : Bool :=
  match s.walk va with
  | .entry e => e.mapping.physAddr va = va
  | .abort _ _ => false
  | .tinyInCoarse => false
  | .sbzNonzero => false

/-- What the access check answers (R120). -/
inductive Verdict where
  | allowed
  | abort (kind : AbortKind)
  | unpredictable (f : Fault)
deriving DecidableEq, Repr

/-- The permission check in a client domain (R123, R126 to R133). -/
def State.apCheck (s : State) (e : TlbEntry) (a : Access) : Verdict :=
  match permission (e.mapping.ap a.va) s.systemBit s.romBit a.priv with
  | none => .unpredictable .apWithSystemAndRom
  | some p => if p.allows a.kind then .allowed else .abort (.permission e.mapping.level)

/-- `CheckAccess` as a whole (R139). -/
def State.checkAccess (s : State) (e : TlbEntry) (a : Access) : Verdict :=
  if s.domainField e.domain = 0b00 then .abort (.domain e.mapping.level)
  else if s.domainField e.domain = 0b01 then s.apCheck e a
  else if s.domainField e.domain = 0b10 then .unpredictable .domainReserved
  else .allowed

end Sys2Proof.Machine
end

