-- ==== Sys2Proof/Machine/FirstLevel.lean ====
section
/-! DEFINITION. The meanings of the first-level descriptors (R93 to R96): what the walk does with the
descriptor it has just read. -/

namespace Sys2Proof.Machine

/-- A section translation (R94). -/
def sectionTranslate (base : BitVec 12) (ap : BitVec 2) (domain : BitVec 4) (c b : Bool) (p : Purpose)
    (s : State) : State :=
  s.finishWalk (sectEntry p.va base ap domain c b) p

/-- `L1_FAULT` (R64, R93, R161): a translation fault at the first level, with no domain. -/
def execL1Fault (_ignored : BitVec 30) (s : State) : Result :=
  match s.phase.atL1Desc with
  | none => .refused .noOperation
  | some p => .next (s.walkFault (.sect (field p.va 20 12)) p)

/-- `L1_COARSE` (R66, R95): the walk goes on to the coarse second-level table. -/
def execL1Coarse (base : BitVec 22) (sbz : BitVec 1) (domain : BitVec 4) (_imp : BitVec 3)
    (s : State) : Result :=
  match s.phase.atL1Desc with
  | none => .refused .noOperation
  | some p =>
    if refusesSbz s.cfg (sbz = 0) then .refused .sbzNonzero
    else .next (s.withPhase (.l2Addr .coarse (coarseDescAddr base p.va) domain p))

/-- `L1_SECTION` (R65, R94): the walk ends in a section entry. -/
def execL1Section (base : BitVec 12) (sbzHi : BitVec 8) (ap : BitVec 2) (sbz : BitVec 1)
    (domain : BitVec 4) (_imp : BitVec 1) (c b : Bool) (s : State) : Result :=
  match s.phase.atL1Desc with
  | none => .refused .noOperation
  | some p =>
    if refusesSbz s.cfg (sbzHi = 0 ∧ sbz = 0) then .refused .sbzNonzero
    else .next (sectionTranslate base ap domain c b p s)

/-- `L1_FINE` (R67, R96): the walk goes on to the fine second-level table. -/
def execL1Fine (base : BitVec 20) (sbz : BitVec 3) (domain : BitVec 4) (_imp : BitVec 3)
    (s : State) : Result :=
  match s.phase.atL1Desc with
  | none => .refused .noOperation
  | some p =>
    if refusesSbz s.cfg (sbz = 0) then .refused .sbzNonzero
    else .next (s.withPhase (.l2Addr .fine (fineDescAddr base p.va) domain p))

end Sys2Proof.Machine
end

