-- ==== Sys2Proof/Machine/Control.lean ====
section
/-! DEFINITION. The control operations (R140 to R149) and the meanings of the two register formats. -/

namespace Sys2Proof.Machine

/-- Every control operation is available in privileged state only (R148). -/
def asPrivileged (priv : Priv) (r : Result) : Result :=
  match priv with
  | .privileged => r
  | .user => .refused .userControlOperation

/-- `WriteControl(v)` (R140 to R142). A write that changes M has a meaning only when the code that
performs it is mapped by the tables to itself (R141, R198). -/
def State.writeControl (v codeVa : Word) (s : State) : Result :=
  if v.getLsbD 0 ≠ s.mmuOn ∧ s.mapsToItself codeVa = false then .refused .enableNotIdentityMapped
  else .next ((s.withCtrl v).respond .done)

/-- `WriteTTB(v)` (R143): the TLB is not changed. -/
def State.writeTtb (v : Word) (s : State) : Result :=
  if refusesSbz s.cfg (field v 0 14 = 0) then .refused .sbzNonzero
  else .next ((s.withTtb v).respond .done)

/-- `WriteDAC(v)` (R144): a reserved field value is harmless until an access uses it (R124). -/
def State.writeDac (v : Word) (s : State) : Result :=
  .next ((s.withDac v).respond .done)

/-- CP15 register 1 as it is read back (R145). -/
def State.ctrlValue (s : State) : Word :=
  readBack (ctrlMask s.cfg) s.ctrl (Config.freeRegBits s.draws)

/-- CP15 register 2 as it is read back (R145). -/
def State.ttbValue (s : State) : Word :=
  readBack ttbMask s.ttb (Config.freeRegBits s.draws)

/-- The fault status register as it is read back (R169): bit 8 reads as zero. -/
def State.fsrValue (s : State) : Word :=
  readBack fsrMask (s.fsr &&& 0x000000FF) (Config.freeRegBits s.draws)

/-- The processor gets the value of a register. -/
def State.answerValue (v : Word) (s : State) : State :=
  s.tick.respond (.value v)

/-- `TLB_LOCKDOWN` (R147): without it walk results cannot be locked. -/
def ifLockdown (cfg : Config) (r : Result) : Result :=
  if cfg.tlbLockdown then r else .refused .noTlbLockdown

/-- The walk of an operation starts (R90): its descriptor address is formed. -/
def State.startWalk (p : Purpose) (s : State) : State :=
  (s.withWalkReads []).withPhase (.l1Addr (l1DescAddr s.ttb p.va) p)

/-- A control operation of the processor in privileged state (R140 to R149). A write of CP15 register 1
or 2 becomes the word that the next step decodes. Three points the spec leaves open are the model's: `TLBLock`
walks the tables also while the MMU is disabled (R147 gives its walk no condition on M; DESIGN CHOICE, unsafe,
log entry 27); `CacheFlush` also drops code and data locked in a cache (R23 says that they can be locked, R149
that the flush is not described; DESIGN CHOICE, unsafe, log entry 13); and it leaves the writes on their way to
main memory alone (log entry 13). -/
def State.control (op : ControlOp) (priv : Priv) (s : State) : Result :=
  match op with
  | .writeControl v codeVa => .next (s.withPhase (.ctrlWrite v codeVa priv))
  | .writeTtb v => .next (s.withPhase (.ttbWrite v priv))
  | .writeDac v => asPrivileged priv (s.writeDac v)
  | .readControl => asPrivileged priv (.next (s.answerValue s.ctrlValue))
  | .readTtb => asPrivileged priv (.next (s.answerValue s.ttbValue))
  | .readDac => asPrivileged priv (.next (s.answerValue s.dac))
  | .readFault => asPrivileged priv (.next (s.respond (.faultRecord s.lastFault)))
  | .tlbFlush which => asPrivileged priv (.next ((s.tlbFlush which fun _ => true).respond .done))
  | .tlbLock side va => asPrivileged priv (ifLockdown s.cfg (.next (s.startWalk (.lock side va))))
  | .tlbUnlock side e =>
    asPrivileged priv
      (ifLockdown s.cfg (.next ((s.withTlbOf side (tlbUnlocked e (s.tlbOf side))).respond .done)))
  | .cacheFlush => asPrivileged priv (.next ((s.withCacheHolds false).respond .done))

/-- `TTB` (R77, R143): the value is written to CP15 register 2. -/
def execTtb (base : BitVec 18) (sbz : BitVec 14) (s : State) : Result :=
  match s.phase with
  | .ttbWrite _ priv => asPrivileged priv (s.writeTtb (base ++ sbz))
  | _ => .refused .noOperation

/-- `CTRL` (R78, R140): the value is written to CP15 register 1. -/
def execCtrl (value : Word) (s : State) : Result :=
  match s.phase with
  | .ctrlWrite _ codeVa priv => asPrivileged priv (s.writeControl value codeVa)
  | _ => .refused .noOperation

end Sys2Proof.Machine
end

