-- ==== Sys2Proof/Machine/Accept.lean ====
section
/-! DEFINITION. Taking the processor's next operation (R31, R49, R150): the access with the MMU disabled
(R39 to R43), the TLB lookup (R31 to R34), and the control operations. -/

namespace Sys2Proof.Machine

/-- The cache control bits of an access with the MMU disabled (R39 to R41, R43). -/
def disabledBits (cfg : Config) (kind : AccessKind) : Bool × Bool :=
  match cfg.cacheWithMmuOff, kind, cfg.tlbOrg with
  | false, _, _ => (false, false)
  | true, .read, _ => (false, false)
  | true, .write, _ => (false, false)
  | true, .fetch, .unified => (false, false)
  | true, .fetch, .split => (true, false)

/-- `DisabledAccess` (R43): flat mapping, no check, no abort. -/
def State.disabledAccess (a : Access) (s : State) : Result :=
  (s.withWalkReads []).proceed a.va (disabledBits s.cfg a.kind).1 (disabledBits s.cfg a.kind).2
    (flatRoom a.va) a.transfer

/-- The branch of R31's `choose` taken for a lookup with result `ms`: one of the matching lines, or none
for a fresh walk, which is open only when no matching entry is locked (R21, R33). Where the replicated copies of
a large or small page descriptor differ, so may the lines, and any of them answers: such tables are admitted
with all their behaviours, not refused (R104, U13, D20; DESIGN CHOICE, log entry 33). -/
def chooseLine (n : Nat) (ms : List TlbLine) : Option TlbLine :=
  ms[Config.freeTlbChoice n % (if ms.any TlbLine.locked then ms.length else ms.length + 1)]?

/-- A lookup has hit: the entry is checked (R36), or the translation fault that the TLB holds is raised again
(D6, log entry 28). -/
def State.tlbHit (x : TlbLine) (a : Access) (s : State) : State :=
  match x with
  | .entry e => s.withPhase (.check e a)
  | .fault f => s.raiseAbort (.translation f.level) a.va f.domain (a.kind.updatesFaultRegs s.cfg)

/-- `Access` with the MMU enabled (R31): the TLB is looked up first (R33); on a miss a walk starts (R34).
-/
def State.enabledAccess (a : Access) (s : State) : State :=
  match s.tlbLookup a.kind.side a.va with
  | [] => s.startWalk (.access a)
  | x :: xs =>
    match chooseLine s.draws (x :: xs) with
    | some hit => ((s.withWalkReads []).tlbHit hit a).tick
    | none => (s.startWalk (.access a)).tick

/-- `Access` (R31). -/
def State.beginAccess (a : Access) (s : State) : Result :=
  if s.mmuOn then .next (s.enabledAccess a) else s.disabledAccess a

/-- The processor's next operation is taken. -/
def State.perform (r : Request) (s : State) : Result :=
  match r with
  | .access a => s.beginAccess a
  | .control op priv => s.control op priv
  | .coproc w rdValue codeVa condPassed priv => .next (s.withPhase (.coproc w rdValue codeVa condPassed priv))
  | .drain => .next (s.drainAll.respond .done)

/-- With no operation in progress the MMU takes the processor's next one, or waits for it. -/
def State.accept (s : State) : Result :=
  match s.inputs with
  | [] => .next s
  | r :: rest => (s.withInputs rest).perform r

end Sys2Proof.Machine
end

