-- ==== Sys2Proof/Machine/Coproc.lean ====
section
/-! DEFINITION. The meaning of the coprocessor register transfer (R86): the instruction by which the
processor performs the control operations.

The whole row is general knowledge in the spec (R86, `93_implementation_defined.md` G3, G4, G7, G8) and is
PRESUMED here (log entries 19 and 20). -/

namespace Sys2Proof.Machine

/-- Which TLBs a transfer to CP15 register 8 flushes (R146): CRm 7 all, 5 the instruction TLB, 6 the data
TLB. -/
def flushOfCrm (crm : BitVec 4) : Option FlushWhich :=
  if crm = 7 then some .all
  else if crm = 5 then some .instruction
  else if crm = 6 then some .data
  else none

/-- Which entries a transfer to CP15 register 8 flushes (R146): opc2 0 every line, opc2 1 those that
cover the virtual address in Rd. -/
def flushTest (opc2 : BitVec 3) (va : Word) : Option (TlbLine → Bool) :=
  if opc2 = 0 then some fun _ => true
  else if opc2 = 1 then some fun x => x.covers va
  else none

/-- An MCR: the processor writes a CP15 register (R86, R146, R169). -/
def State.cp15Write (crn crm : BitVec 4) (opc2 : BitVec 3) (v codeVa : Word) (s : State) : Result :=
  if crn = 8 then
    match flushOfCrm crm, flushTest opc2 v with
    | some which, some test => .next ((s.tlbFlush which test).respond .done)
    | _, _ => .refused (.cp15NotDescribed crn crm opc2)
  else if crm ≠ 0 ∨ opc2 ≠ 0 then .refused (.cp15NotDescribed crn crm opc2)
  else if crn = 1 then s.writeControl v codeVa
  else if crn = 2 then s.writeTtb v
  else if crn = s.cfg.dacrRegnum then s.writeDac v
  else if crn = 5 then .next ((s.withFsr v).respond .done)
  else if crn = 6 then .next ((s.withFar v).respond .done)
  else .refused (.cp15NotDescribed crn crm opc2)

/-- The value of a CP15 register that the spec describes (R86, R145, R169). -/
def State.cp15Value (crn : BitVec 4) (s : State) : Option Word :=
  if crn = 1 then some s.ctrlValue
  else if crn = 2 then some s.ttbValue
  else if crn = s.cfg.dacrRegnum then some s.dac
  else if crn = 5 then some s.fsrValue
  else if crn = 6 then some s.far
  else none

/-- An MRC: the processor reads a CP15 register into Rd (R86, R145). -/
def State.cp15Read (crn rd crm : BitVec 4) (opc2 : BitVec 3) (s : State) : Result :=
  if crm ≠ 0 ∨ opc2 ≠ 0 then .refused (.cp15NotDescribed crn crm opc2)
  else
    match s.cp15Value crn with
    | some v => .next (s.tick.respond (.coprocValue rd v))
    | none => .refused (.cp15NotDescribed crn crm opc2)

/-- `MCR_MRC_p15` (R86): a transfer whose condition the processor's flags do not meet does nothing; the
others are control operations, in privileged state only (R148). -/
def execMcrMrc (cond : BitVec 4) (opc1 : BitVec 3) (load : Bool) (crn rd : BitVec 4) (opc2 : BitVec 3)
    (crm : BitVec 4) (s : State) : Result :=
  match s.phase with
  | .coproc _ rdValue codeVa condPassed priv =>
    if cond ≠ 0b1110 ∧ condPassed = false then .next (s.respond .done)
    else
      asPrivileged priv
        (if opc1 ≠ 0 then .refused (.cp15NotDescribed crn crm opc2)
         else if load then s.cp15Read crn rd crm opc2
         else s.cp15Write crn crm opc2 rdValue codeVa)
  | _ => .refused .noOperation

end Sys2Proof.Machine
end

