-- ==== Sys2Proof/Machine/DescriptorAddress.lean ====
section
/-! DEFINITION. The meanings of the descriptor addresses (R62, R74, R75): the walk reads the descriptor at
the address (R44, R92, R95, R96). The address is physical; the read is not translated, not checked and
raises no fault. -/

namespace Sys2Proof.Machine

/-- `L1_ADDR` (R62, R92): the first-level descriptor is read. -/
def execL1Addr (base : BitVec 18) (index : BitVec 12) (s : State) : Result :=
  match s.phase.atL1Addr with
  | none => .refused .noOperation
  | some p =>
    let r := s.physRead32 (base ++ index ++ 0b00#2)
    .next (r.2.withPhase (.l1Desc r.1 p))

/-- A second-level descriptor is read (R95, R96). -/
def readL2Desc (t : TableKind) (addr : Word) (s : State) : Result :=
  match s.phase.atL2Addr t with
  | none => .refused .noOperation
  | some (domain, p) =>
    let r := s.physRead32 addr
    .next (r.2.withPhase (.l2Desc t r.1 domain p))

/-- `L2_ADDR_COARSE` (R74, R95). -/
def execL2AddrCoarse (base : BitVec 22) (index : BitVec 8) (s : State) : Result :=
  readL2Desc .coarse (base ++ index ++ 0b00#2) s

/-- `L2_ADDR_FINE` (R75, R96). -/
def execL2AddrFine (base : BitVec 20) (index : BitVec 10) (s : State) : Result :=
  readL2Desc .fine (base ++ index ++ 0b00#2) s

end Sys2Proof.Machine
end

