-- ==== Sys2Proof/Machine/Domain.lean ====
section
/-! DEFINITION. The meanings of the domain access control field values (R76, R121 to R125): what the field
of the entry's domain says about the access that is being checked. -/

namespace Sys2Proof.Machine

/-- A domain or permission fault of the access that is being checked (R163, R164). -/
def checkAbort (kind : AbortKind) (e : TlbEntry) (a : Access) (s : State) : State :=
  s.raiseAbort kind a.va (some e.domain) (a.kind.updatesFaultRegs s.cfg)

/-- `DAC_NOACCESS` (R122): any access causes a domain fault. -/
def execDacNoAccess (s : State) : Result :=
  match s.phase.atCheck with
  | none => .refused .noOperation
  | some (e, a) => .next (checkAbort (.domain e.mapping.level) e a s)

/-- `DAC_CLIENT` (R123): the access permission bits decide (R126 to R133). -/
def execDacClient (s : State) : Result :=
  match s.phase.atCheck with
  | none => .refused .noOperation
  | some (e, a) =>
    match s.apCheck e a with
    | .allowed => s.proceedThrough e a
    | .abort kind => .next (checkAbort kind e a s)
    | .unpredictable f => .fault f

/-- `DAC_RESERVED` (R124): the spec gives the access no result. -/
def execDacReserved (s : State) : Result :=
  match s.phase.atCheck with
  | none => .refused .noOperation
  | some _ => .fault .domainReserved

/-- `DAC_MANAGER` (R125): the access is allowed whatever its permission bits are. -/
def execDacManager (s : State) : Result :=
  match s.phase.atCheck with
  | none => .refused .noOperation
  | some (e, a) => s.proceedThrough e a

end Sys2Proof.Machine
end

