-- ==== Sys2Proof/Machine/SecondLevel.lean ====
section
/-! DEFINITION. The meanings of the second-level descriptors, in a coarse and in a fine table (R97 to
R100): each row has a definition of its own over one shared translation per kind of page. -/

namespace Sys2Proof.Machine

/-- A second-level translation fault (R97, R162): the domain of the first-level descriptor is known. -/
def pageFault (t : TableKind) (s : State) : Result :=
  match s.phase.atL2Desc t with
  | none => .refused .noOperation
  | some (domain, p) => .next (s.walkFault (.page t p.va domain) p)

/-- `LargePageTranslate` (R98), the same in both kinds of table. -/
def largePageTranslate (t : TableKind) (base : BitVec 16) (sbz : BitVec 4)
    (ap3 ap2 ap1 ap0 : BitVec 2) (c b : Bool) (s : State) : Result :=
  match s.phase.atL2Desc t with
  | none => .refused .noOperation
  | some (domain, p) =>
    if refusesSbz s.cfg (sbz = 0) then .refused .sbzNonzero
    else .next (s.finishWalk (largeEntry p.va base ap3 ap2 ap1 ap0 domain c b) p)

/-- `SmallPageTranslate` (R99), the same in both kinds of table. -/
def smallPageTranslate (t : TableKind) (base : BitVec 20) (ap3 ap2 ap1 ap0 : BitVec 2) (c b : Bool)
    (s : State) : Result :=
  match s.phase.atL2Desc t with
  | none => .refused .noOperation
  | some (domain, p) => .next (s.finishWalk (smallEntry p.va base ap3 ap2 ap1 ap0 domain c b) p)

/-- `L2C_FAULT` (R69, R97). -/
def execL2cFault (_ignored : BitVec 30) (s : State) : Result :=
  pageFault .coarse s

/-- `L2C_LARGE` (R70, R98). -/
def execL2cLarge (base : BitVec 16) (sbz : BitVec 4) (ap3 ap2 ap1 ap0 : BitVec 2) (c b : Bool)
    (s : State) : Result :=
  largePageTranslate .coarse base sbz ap3 ap2 ap1 ap0 c b s

/-- `L2C_SMALL` (R71, R99). -/
def execL2cSmall (base : BitVec 20) (ap3 ap2 ap1 ap0 : BitVec 2) (c b : Bool) (s : State) : Result :=
  smallPageTranslate .coarse base ap3 ap2 ap1 ap0 c b s

/-- `L2C_TINY` (R73, R97): the spec calls the result unpredictable; nothing is filled into a TLB. -/
def execL2cTiny (_undescribed : BitVec 30) (s : State) : Result :=
  match s.phase.atL2Desc .coarse with
  | none => .refused .noOperation
  | some _ => .fault .tinyInCoarse

/-- `L2F_FAULT` (R69, R97). -/
def execL2fFault (_ignored : BitVec 30) (s : State) : Result :=
  pageFault .fine s

/-- `L2F_LARGE` (R70, R98). -/
def execL2fLarge (base : BitVec 16) (sbz : BitVec 4) (ap3 ap2 ap1 ap0 : BitVec 2) (c b : Bool)
    (s : State) : Result :=
  largePageTranslate .fine base sbz ap3 ap2 ap1 ap0 c b s

/-- `L2F_SMALL` (R71, R99). -/
def execL2fSmall (base : BitVec 20) (ap3 ap2 ap1 ap0 : BitVec 2) (c b : Bool) (s : State) : Result :=
  smallPageTranslate .fine base ap3 ap2 ap1 ap0 c b s

/-- `L2F_TINY` (R72, R100). -/
def execL2fTiny (base : BitVec 22) (sbz : BitVec 4) (ap : BitVec 2) (c b : Bool) (s : State) : Result :=
  match s.phase.atL2Desc .fine with
  | none => .refused .noOperation
  | some (domain, p) =>
    if refusesSbz s.cfg (sbz = 0) then .refused .sbzNonzero
    else .next (s.finishWalk (tinyEntry p.va base ap domain c b) p)

end Sys2Proof.Machine
end

