-- ==== Sys2Proof/Machine/Dispatch.lean ====
section
/-! DEFINITION. One arm per row of the opcode table, each a direct call of the row's meaning. -/

namespace Sys2Proof.Machine

def exec (i : Instr) (s : State) : Host.Outcome State Fault Refusal :=
  match i with
  | .l1Fault ignored => Sys2Proof.Machine.execL1Fault ignored s
  | .l1Coarse base sbz domain imp => Sys2Proof.Machine.execL1Coarse base sbz domain imp s
  | .l1Section base sbzHi ap sbz domain imp c b => Sys2Proof.Machine.execL1Section base sbzHi ap sbz domain imp c b s
  | .l1Fine base sbz domain imp => Sys2Proof.Machine.execL1Fine base sbz domain imp s
  | .l2cFault ignored => Sys2Proof.Machine.execL2cFault ignored s
  | .l2cLarge base sbz ap3 ap2 ap1 ap0 c b => Sys2Proof.Machine.execL2cLarge base sbz ap3 ap2 ap1 ap0 c b s
  | .l2cSmall base ap3 ap2 ap1 ap0 c b => Sys2Proof.Machine.execL2cSmall base ap3 ap2 ap1 ap0 c b s
  | .l2cTiny undescribed => Sys2Proof.Machine.execL2cTiny undescribed s
  | .l2fFault ignored => Sys2Proof.Machine.execL2fFault ignored s
  | .l2fLarge base sbz ap3 ap2 ap1 ap0 c b => Sys2Proof.Machine.execL2fLarge base sbz ap3 ap2 ap1 ap0 c b s
  | .l2fSmall base ap3 ap2 ap1 ap0 c b => Sys2Proof.Machine.execL2fSmall base ap3 ap2 ap1 ap0 c b s
  | .l2fTiny base sbz ap c b => Sys2Proof.Machine.execL2fTiny base sbz ap c b s
  | .dacNoAccess => Sys2Proof.Machine.execDacNoAccess s
  | .dacClient => Sys2Proof.Machine.execDacClient s
  | .dacReserved => Sys2Proof.Machine.execDacReserved s
  | .dacManager => Sys2Proof.Machine.execDacManager s
  | .ttb base sbz => Sys2Proof.Machine.execTtb base sbz s
  | .ctrl value => Sys2Proof.Machine.execCtrl value s
  | .l1Addr base index => Sys2Proof.Machine.execL1Addr base index s
  | .l2AddrCoarse base index => Sys2Proof.Machine.execL2AddrCoarse base index s
  | .l2AddrFine base index => Sys2Proof.Machine.execL2AddrFine base index s
  | .mcrMrc cond opc1 load crn rd opc2 crm => Sys2Proof.Machine.execMcrMrc cond opc1 load crn rd opc2 crm s

end Sys2Proof.Machine
end

