-- ==== Sys2Proof/Machine/Probe.lean ====
section
/-! DEFINITION. A bare word of the opcode table placed where the next step decodes it. A descriptor has a
meaning only in a walk, a domain access control field only in a check and a transfer only as the
processor's instruction, so the operation in progress is set with the word (log entry 2). -/

namespace Sys2Proof.Machine

/-- The access in progress when a bare descriptor or domain field is placed: a privileged read of one
word at virtual address 0. -/
def probeAccess : Access := ⟨0, .read 4, .privileged⟩

/-- The entry being checked when a bare domain field is placed: a section at 0 of domain 0 with
`AP = 0b11`. -/
def probeEntry : TlbEntry := ⟨.sect 0 0 0b11, 0, false, false, false⟩

/-- A value of the domain access control register with another field for a domain (R15). -/
def setDacField (cfg : Config) (dac : Word) (domain : BitVec 4) (v : BitVec 2) : Word :=
  let k := 2 * (cfg.dacrFieldOrder[domain.toNat]'domain.isLt).val
  (dac &&& ~~~(0b11#32 <<< k)) ||| (v.setWidth 32 <<< k)

/-- The word placed where the next step decodes it: a domain field as the field of domain 0, a transfer
as the processor's instruction in privileged state with 0 in Rd, a descriptor as the first-level
descriptor that a walk has just read. The MMU walks and checks only while it is enabled, so M is set with the
first and the last. -/
def State.placeTableWord (s : State) (nbits w : Nat) : State :=
  match tableRole nbits w with
  | .dacField =>
    ((s.withDac (setDacField s.cfg s.dac probeEntry.domain (BitVec.ofNat 2 w))).withCtrl
      (s.ctrl ||| 1)).withPhase (.check probeEntry probeAccess)
  | .coproc => s.withPhase (.coproc (BitVec.ofNat 32 w) 0 0 true .privileged)
  | _ => (s.withCtrl (s.ctrl ||| 1)).withPhase (.l1Desc (BitVec.ofNat 32 w) (.access probeAccess))

end Sys2Proof.Machine
end

