-- ==== Sys2Proof/Machine/Step.lean ====
section
/-! DEFINITION. One step: the MMU decodes the word it has at hand, in the role in which it has it, and runs
the row; with no word at hand it takes the processor's next operation. -/

namespace Sys2Proof.Machine

/-- One step of the machine. -/
def step (s : State) : Host.Outcome State Fault Refusal :=
  match s.nextWord with
  | none => s.accept
  | some (r, w) =>
    match decodeWord r w with
    | .ok i => exec i s
    | .error e => .refused (.undecodable e)

/-- The state with a bare word of the opcode table where the next step decodes it, in the role that
`tableRole` gives a bare word. -/
def State.withFetchWord (s : State) (nbits w : Nat) : State :=
  s.placeTableWord nbits w

end Sys2Proof.Machine
end

