-- ==== Sys2Proof/Safety.lean ====
section
/-! DEFINITION. What the statements speak of: what an operation leaves alone, what counts as a legal
configuration (R202), when the TLBs agree with the tables (R50), the invariant of the machine, and what one
access is to give (R31). -/

namespace Sys2Proof.Machine

/-! ## What is left alone -/

/-- The parameters and the three control registers are unchanged. -/
structure SameRegisters (s t : State) : Prop where
  cfg : t.cfg = s.cfg
  ctrl : t.ctrl = s.ctrl
  ttb : t.ttb = s.ttb
  dac : t.dac = s.dac

/-- The fault status information is unchanged. -/
structure SameFaultState (s t : State) : Prop where
  lastFault : t.lastFault = s.lastFault
  fsr : t.fsr = s.fsr
  far : t.far = s.far

/-- The TLBs are unchanged. -/
structure SameTlbs (s t : State) : Prop where
  tlb : t.tlb = s.tlb
  itlb : t.itlb = s.itlb
  dtlb : t.dtlb = s.dtlb

/-- Every byte of main memory is unchanged, and so is every write on its way to it. -/
structure SameMemory (s t : State) : Prop where
  bytes : ∀ a : Word, t.memByte a = s.memByte a
  pending : t.pending = s.pending
  cacheHolds : t.cacheHolds = s.cacheHolds

/-- The processor's operations still to come are unchanged. -/
structure SameInputs (s t : State) : Prop where
  inputs : t.inputs = s.inputs

/-- A line has been placed in the TLB that `SelectTLB` gives (R102, R147): it is there, every locked line is
still there, nothing else has come, the TLB stays within its capacity unless locked entries fill it (R20), and
the other TLB of a split organisation is unchanged. -/
structure Placed (x : TlbLine) (side : TlbSide) (s t : State) : Prop where
  line : x ∈ t.tlbOf side
  lockedStay : ∀ y ∈ s.tlbOf side, y.locked = true → y ∈ t.tlbOf side
  noOther : ∀ y ∈ t.tlbOf side, y = x ∨ y ∈ s.tlbOf side
  capacity : ∀ n, s.cfg.tlbEntries = some n → (s.tlbOf side).length ≤ n →
    (s.tlbOf side).countP TlbLine.locked < n → (t.tlbOf side).length ≤ n
  otherTlb : s.cfg.tlbOrg = .split → ∀ other, other ≠ side → t.tlbOf other = s.tlbOf other

/-- The TLB fill of a walk for an access (R102): the entry is placed and is checked next (R36); everything
else is unchanged. -/
structure Filled (e : TlbEntry) (a : Access) (s t : State) : Prop where
  phase : t.phase = .check e a
  placed : Placed (.entry e) a.kind.side s t
  registers : SameRegisters s t
  faultState : SameFaultState s t
  memory : SameMemory s t
  inputs : SameInputs s t
  outputs : t.outputs = s.outputs

/-- The end of a `TLBLock` (R147): the entry is placed, locked, in a TLB without a capacity beside all that
was there; everything else is unchanged and the operation is over. -/
structure LockedIn (e : TlbEntry) (side : TlbSide) (s t : State) : Prop where
  phase : t.phase = .idle
  placed : Placed (.entry { e with locked := true }) side s t
  allStay : s.cfg.tlbEntries = none → ∀ y ∈ s.tlbOf side, y ∈ t.tlbOf side
  registers : SameRegisters s t
  faultState : SameFaultState s t
  memory : SameMemory s t
  inputs : SameInputs s t
  outputs : t.outputs = .done :: s.outputs

/-- The end of a walk that has found an entry, by what the walk was made for. -/
def WalkEnds (e : TlbEntry) (p : Purpose) (s t : State) : Prop :=
  match p with
  | .access a => Filled e a s t
  | .lock side _ => LockedIn e side s t

/-- The fault status and fault address registers after an abort that updates them (R169): the address, the
status, the domain where there is one, bit 8 zero, and the bits that R169 does not describe as they were. -/
structure FaultRegsWritten (kind : AbortKind) (va : Word) (domain : Option (BitVec 4)) (s t : State) :
    Prop where
  address : t.far = va
  status : field t.fsr 0 4 = faultStatus kind
  domain : ∀ d, domain = some d → field t.fsr 4 4 = d
  bit8 : t.fsr.getLsbD 8 = false
  others : field t.fsr 9 23 = field s.fsr 9 23

/-- The fault status and fault address registers after an abort, by whether it updates them. -/
structure FaultRegs (kind : AbortKind) (va : Word) (domain : Option (BitVec 4)) (upd : Bool) (s t : State) :
    Prop where
  written : upd = true → FaultRegsWritten kind va domain s t
  kept : upd = false → t.fsr = s.fsr ∧ t.far = s.far

/-- The abort of an operation (R160, R170): the processor is told, the fault is recorded (R168, R169), the
operation is over, and no control register and no byte of memory changes. What becomes of the TLBs is said
beside it. -/
structure Aborted (kind : AbortKind) (va : Word) (domain : Option (BitVec 4)) (upd : Bool) (s t : State) :
    Prop where
  outputs : t.outputs = .abort kind va :: s.outputs
  lastFault : t.lastFault = some ⟨kind, va, domain⟩
  faultRegs : FaultRegs kind va domain upd s t
  phase : t.phase = .idle
  registers : SameRegisters s t
  memory : SameMemory s t
  inputs : SameInputs s t

/-- An operation has ended with nothing done: the processor is told that it is over. -/
structure EndedQuietly (s t : State) : Prop where
  outputs : t.outputs = .done :: s.outputs
  phase : t.phase = .idle
  registers : SameRegisters s t
  faultState : SameFaultState s t
  memory : SameMemory s t
  inputs : SameInputs s t

/-- The end of a walk that has met a fault descriptor (R161, R162): a memory abort, but not while the MMU is
disabled, when a `TLBLock` ends quietly (R166, log entry 27); the fault is held in the TLB under
`TLB_CACHES_FAULTS` and the TLBs are unchanged without it (R34, D6, log entry 28). -/
structure WalkFaults (f : HeldFault) (p : Purpose) (s t : State) : Prop where
  aborts : (∃ a, p = .access a) ∨ s.ctrl.getLsbD 0 = true →
    Aborted (.translation f.level) p.va f.domain (p.updatesFaultRegs s.cfg) s t
  quiet : (∀ a, p ≠ .access a) → s.ctrl.getLsbD 0 = false → EndedQuietly s t
  tlbs : s.cfg.tlbCachesFaults = false → SameTlbs s t
  held : s.cfg.tlbCachesFaults = true → Placed (.fault f) p.side s t

/-- The access proceeds at a physical address (R31): the processor gets the address, C, B and the data, the
operation is over, and no register and no TLB entry changes. A cache that may hold something keeps so, and may
hold something after a cacheable access (R38, R54, log entry 13). -/
structure Proceeded (pa : Word) (c b : Bool) (data : List Byte) (s t : State) : Prop where
  outputs : t.outputs = .ok pa c b data :: s.outputs
  phase : t.phase = .idle
  registers : SameRegisters s t
  faultState : SameFaultState s t
  tlbs : SameTlbs s t
  inputs : SameInputs s t
  walkReads : t.walkReads = s.walkReads
  cacheHolds : t.cacheHolds = (s.cacheHolds || (c && s.cfg.hasCache))

/-- What an access that proceeds gives the processor and does to memory. A read that does not hit a cache
gives the bytes that the processor sees from the physical address on (R37); a fetch that does not gives bytes
of main memory or of held writes there (R53). Neither changes a byte. A write that a cache or a write buffer
takes changes no byte of main memory and is held back whole. Any other write changes the bytes from the
physical address on, and beyond them only bytes that an older held write has. -/
structure MovedData (pa : Word) (c b : Bool) (tr : Transfer) (data : List Byte) (s t : State) : Prop where
  size : tr.kind ≠ .write → data.length = tr.size
  read : ∀ n, tr = .read n → s.cacheHit c = false → data = readBytes s.coherentByte pa n
  fetch : ∀ n, tr = .fetch n → s.cacheHit c = false → ∀ i (h : i < data.length),
    data[i] = s.memByte (pa + BitVec.ofNat 32 i) ∨
      ∃ p ∈ s.pending, p.byteAt (pa + BitVec.ofNat 32 i) = some data[i]
  noStore : tr.kind ≠ .write → (∀ x : Word, t.memByte x = s.memByte x) ∧ t.pending = s.pending
  noData : ∀ bytes, tr = .write bytes → data = []
  held : ∀ bytes, tr = .write bytes → holdsBack s.cfg c b = true →
    (∀ x : Word, t.memByte x = s.memByte x) ∧ t.pending = s.pending ++ [⟨s.writeAddress pa c, bytes⟩]
  stored : ∀ bytes, tr = .write bytes → holdsBack s.cfg c b = false →
    ∀ i (h : i < bytes.length), t.memByte (pa + BitVec.ofNat 32 i) = bytes[i]
  outside : ∀ bytes, tr = .write bytes → holdsBack s.cfg c b = false →
    ∀ x : Word, (∀ i < bytes.length, x ≠ pa + BitVec.ofNat 32 i) → pendingByte s.pending x = none →
      t.memByte x = s.memByte x

/-- The word whose bytes a view of memory has from an address on, in a byte order (R44, R45). -/
def wordAt (o : ByteOrder) (view : Word → Byte) (a : Word) : Word :=
  wordOfBytes o (view a) (view (a + 1)) (view (a + 2)) (view (a + 3))

/-- A descriptor read with writes on their way (R44, R49): some may have reached main memory, which changes
only bytes that such a write has; the word is what the walk sees afterwards (D7), and nothing else changes. -/
structure ReadAmongArrivals (a w : Word) (s t : State) : Prop where
  seesMemory : s.cfg.walkSees = .mainMemoryOnly → w = wordAt s.cfg.byteOrder t.memByte a
  seesThrough : s.cfg.walkSees = .throughBuffer → w = wordAt s.cfg.byteOrder t.coherentByte a
  otherBytes : ∀ x : Word, pendingByte s.pending x = none → t.memByte x = s.memByte x
  pending : t.pending.Sublist s.pending
  walkReads : t.walkReads = s.walkReads ++ [a]
  outputs : t.outputs = s.outputs
  registers : SameRegisters s t
  faultState : SameFaultState s t
  tlbs : SameTlbs s t
  inputs : SameInputs s t
  cacheHolds : t.cacheHolds = s.cacheHolds

/-- A translation fault that the TLB holds is raised again (D6): the processor is told and the fault is
recorded. -/
structure HeldFaultRaised (f : HeldFault) (a : Access) (s t : State) : Prop where
  outputs : t.outputs = .abort (.translation f.level) a.va :: s.outputs
  lastFault : t.lastFault = some ⟨.translation f.level, a.va, f.domain⟩
  faultRegs : FaultRegs (.translation f.level) a.va f.domain (a.kind.updatesFaultRegs s.cfg) s t
  phase : t.phase = .idle

/-- The operation that is in progress or comes next, if it is a walk, a check or an access. -/
def State.purpose (s : State) : Option Purpose :=
  match s.phase, s.inputs with
  | .l1Addr _ p, _ => some p
  | .l1Desc _ p, _ => some p
  | .l2Addr _ _ _ p, _ => some p
  | .l2Desc _ _ _ p, _ => some p
  | .check _ a, _ => some (.access a)
  | .idle, .access a :: _ => some (.access a)
  | _, _ => none

/-- A descriptor that a walk has read is the word at hand (R90). -/
def State.hasDescriptor (s : State) : Prop :=
  (∃ d p, s.phase = .l1Desc d p) ∨ ∃ t d domain p, s.phase = .l2Desc t d domain p

/-! ## Legal configurations (R202) -/

/-- No domain has the reserved access type (R124, R202). -/
def State.noReservedDomain (s : State) : Prop :=
  ∀ d : BitVec 4, s.domainField d ≠ 0b10

/-- S and R are not both set (R129, R202). -/
def State.notBothSystemAndRom (s : State) : Prop :=
  ¬(s.systemBit = true ∧ s.romBit = true)

/-- No tiny page descriptor has been read from a coarse table (R73, R202). -/
def State.noTinyInCoarse (s : State) : Prop :=
  ∀ d dom p, s.phase = .l2Desc .coarse d dom p → field d 0 2 ≠ 0b11

/-- Nothing is on its way to main memory: the walk sees what the processor wrote (R199). -/
def State.drained (s : State) : Prop :=
  s.pending = []

/-- Should-be-zero fields are ignored (R82). -/
def State.ignoresSbz (s : State) : Prop :=
  s.cfg.sbzPolicy = .ignoreBits

/-- What a walk must give for a line of a TLB to be what the tables now say. -/
def TlbLine.asWalked : TlbLine → WalkResult
  | .entry e => .entry { e with locked := false }
  | .fault f => .abort (.translation f.level) f.domain

/-- Every line of the TLB on this side is what a walk of the tables now gives, for every address it
covers: nothing is stale (R50) and the copies of large and small page descriptors are alike (R81). -/
def State.tlbAgrees (s : State) (side : TlbSide) : Prop :=
  ∀ x ∈ s.tlbOf side, ∀ va, x.covers va = true → s.walk va = x.asWalked

/-- The tables map a virtual address to itself (R198, D24): a walk of them as they now are ends in an entry
through which the address is its own physical address. -/
def State.identityMapped (s : State) (va : Word) : Prop :=
  ∃ e, s.walk va = .entry e ∧ e.mapping.physAddr va = va

/-! ## The invariant of the machine -/

/-- The descriptor address at hand, if there is one, is word aligned (R46). -/
def Phase.aligned : Phase → Prop
  | .l1Addr a _ => field a 0 2 = 0
  | .l2Addr _ a _ _ => field a 0 2 = 0
  | _ => True

/-- How many descriptors the operation in progress can have read when it stands at this point (R103). -/
def Phase.readsSoFar : Phase → List Word → Prop
  | .l1Addr _ _, as => as.length = 0
  | .l1Desc _ _, as => as.length = 1
  | .l2Addr _ _ _ _, as => as.length = 1
  | .l2Desc _ _ _ _, as => as.length = 2
  | _, as => as.length ≤ 2

/-- The MMU is translating an access: it walks or checks for one. -/
def Phase.translates : Phase → Prop
  | .l1Addr _ p => ∃ a, p = .access a
  | .l1Desc _ p => ∃ a, p = .access a
  | .l2Addr _ _ _ p => ∃ a, p = .access a
  | .l2Desc _ _ _ p => ∃ a, p = .access a
  | .check _ _ => True
  | _ => False

/-- The invariant: main memory is canonical, each TLB is a set (R19) that holds faults only under
`TLB_CACHES_FAULTS` (R34, D6), a write on its way to main memory is no longer than the address space (R24),
descriptor addresses are word aligned (R46), an operation makes at most two descriptor reads (R205), and only
an MMU that is enabled translates an access (R31). -/
structure State.Inv (s : State) : Prop where
  mem : s.mem.wf
  tlb : s.tlb.Nodup
  itlb : s.itlb.Nodup
  dtlb : s.dtlb.Nodup
  pending : ∀ p ∈ s.pending, p.data.length ≤ 2 ^ 32
  aligned : s.phase.aligned
  reads : s.phase.readsSoFar s.walkReads
  heldFaults : s.cfg.tlbCachesFaults = false → ∀ f, .fault f ∉ s.tlb ∧ .fault f ∉ s.itlb ∧ .fault f ∉ s.dtlb
  enabled : s.phase.translates → s.ctrl.getLsbD 0 = true

/-! ## What one access is to give -/

/-- What the processor is to learn of an access. -/
inductive AccessOutcome where
  /-- The access proceeds at a physical address with its C and B bits. -/
  | proceeds (pa : Word) (c b : Bool)
  | aborts (kind : AbortKind) (domain : Option (BitVec 4))
  | unpredictable (f : Fault)
  /-- The tables have a nonzero should-be-zero field under `SBZ_POLICY = refuse` (R82). -/
  | sbzNonzero
deriving DecidableEq, Repr

/-- The access as R31 has it, taking the branch of `choose` that walks. -/
def State.accessOutcome (s : State) (a : Access) : AccessOutcome :=
  match s.walk a.va with
  | .abort kind domain => .aborts kind domain
  | .tinyInCoarse => .unpredictable .tinyInCoarse
  | .sbzNonzero => .sbzNonzero
  | .entry e =>
    match s.checkAccess e a with
    | .allowed => .proceeds (e.mapping.physAddr a.va) e.c e.b
    | .abort kind => .aborts kind (some e.domain)
    | .unpredictable f => .unpredictable f

/-- How many bytes the access has before the end of the region that the tables give it. -/
def State.accessRoom (s : State) (a : Access) : Nat :=
  match s.walk a.va with
  | .entry e => e.mapping.room a.va
  | .abort _ _ => 0
  | .tinyInCoarse => 0
  | .sbzNonzero => 0

/-- A result that carries out an access outcome: the processor is answered accordingly and the machine
takes its next operation, or the machine stops by name. -/
def AccessOutcome.carriedOut (o : AccessOutcome) (va : Word) (s : State) (r : Result) : Prop :=
  match o with
  | .proceeds pa c b =>
    ∃ t data, r = .next t ∧ t.outputs = .ok pa c b data :: s.outputs ∧ t.phase = .idle ∧
      t.lastFault = s.lastFault
  | .aborts kind domain =>
    ∃ t, r = .next t ∧ t.outputs = .abort kind va :: s.outputs ∧ t.phase = .idle ∧
      t.lastFault = some ⟨kind, va, domain⟩
  | .unpredictable f => r = .fault f
  | .sbzNonzero => r = .refused .sbzNonzero

/-- The end of a walk made for a purpose, by what the tables give it. -/
def WalkResult.reached (w : WalkResult) (p : Purpose) (s : State) (r : Result) : Prop :=
  match w with
  | .entry e => ∃ t, r = .next t ∧ WalkEnds e p s t
  | .abort kind domain =>
    ∃ t f, r = .next t ∧ WalkFaults f p s t ∧ f.covers p.va = true ∧ kind = .translation f.level ∧
      domain = f.domain
  | .tinyInCoarse => r = .fault .tinyInCoarse
  | .sbzNonzero => r = .refused .sbzNonzero

/-- What holds of the machine right after reset (R28): the MMU is disabled. Nothing else is said of the
state (R29), so a statement about every such state rests on no value the model chose. -/
def State.afterReset (s : State) : Prop :=
  s.ctrl.getLsbD 0 = false

end Sys2Proof.Machine
end

