-- ==== Sys2Proof/Certificates/Slice0/Obligations.lean ====
section
/-! DEFINITION. The statements for the provers. -/

open Sys2Proof Sys2Proof.Machine

/-! ## Encodings -/

/-- Decode and encode agree on every row, with every field at every value (R60 to R78, R86). -/
def Obligations.DecodeOfEncodeIsTheRow : Prop :=
  ∀ i : Instr, decodeWord i.role (encode i) = .ok i

/-- Every word has one meaning in a role: what decodes to a row is that row's word (R60, R63, R68). -/
def Obligations.EncodeOfDecodeIsTheWord : Prop :=
  ∀ (r : Role) (w : Word) (i : Instr), decodeWord r w = .ok i → i.role = r ∧ encode i = w

/-- Decode and encode agree on bytes, in both byte orders, whatever follows (R45). -/
def Obligations.DecodeOfEncodedBytesIsTheRow : Prop :=
  ∀ (o : ByteOrder) (i : Instr) (rest : List Byte),
    decode o i.role (encodeBytes o i ++ rest) = .ok (i, rest)

/-- Words written out from the formats of the spec decode to the rows they stand for
(`95_test_vectors.md` V-E3 to V-E9, R86). -/
def Obligations.WordsOfTheSpecDecode : Prop :=
  decodeWord .l1Desc 0x00402C41 = .ok (.l1Coarse 0x100B 0 2 0) ∧
    decodeWord .l1Desc 0x45600C12 = .ok (.l1Section 0x456 0 3 0 0 1 false false) ∧
    decodeWord .l1Desc 0x00405023 = .ok (.l1Fine 0x405 0 1 0) ∧
    decodeWord (.l2Desc .coarse) 0x89AB0E49 = .ok (.l2cLarge 0x89AB 0 3 2 1 0 true false) ∧
    decodeWord (.l2Desc .fine) 0x0BADC42F = .ok (.l2fTiny 0x2EB71 0 2 true true) ∧
    decodeWord .coproc 0xEE020F10 = .ok (.mcrMrc 14 0 false 2 0 0 0)

/-- The type bits of a first-level descriptor select its kind (R63). -/
def Obligations.FirstLevelTypeSelectsTheKind : Prop :=
  ∀ w : Word,
    (field w 0 2 = 0b00 ↔ ∃ x, decodeWord .l1Desc w = .ok (.l1Fault x)) ∧
      (field w 0 2 = 0b01 ↔ ∃ b z d m, decodeWord .l1Desc w = .ok (.l1Coarse b z d m)) ∧
      (field w 0 2 = 0b10 ↔
        ∃ s z a y d m c b, decodeWord .l1Desc w = .ok (.l1Section s z a y d m c b)) ∧
      (field w 0 2 = 0b11 ↔ ∃ b z d m, decodeWord .l1Desc w = .ok (.l1Fine b z d m))

/-- The type bits of a second-level descriptor select its kind, in both kinds of table (R68). -/
def Obligations.SecondLevelTypeSelectsTheKind : Prop :=
  ∀ w : Word,
    (field w 0 2 = 0b00 ↔ ∃ x, decodeWord (.l2Desc .coarse) w = .ok (.l2cFault x)) ∧
      (field w 0 2 = 0b01 ↔
        ∃ p z g h e f c b, decodeWord (.l2Desc .coarse) w = .ok (.l2cLarge p z g h e f c b)) ∧
      (field w 0 2 = 0b10 ↔
        ∃ p g h e f c b, decodeWord (.l2Desc .coarse) w = .ok (.l2cSmall p g h e f c b)) ∧
      (field w 0 2 = 0b11 ↔ ∃ x, decodeWord (.l2Desc .coarse) w = .ok (.l2cTiny x)) ∧
      (field w 0 2 = 0b00 ↔ ∃ x, decodeWord (.l2Desc .fine) w = .ok (.l2fFault x)) ∧
      (field w 0 2 = 0b01 ↔
        ∃ p z g h e f c b, decodeWord (.l2Desc .fine) w = .ok (.l2fLarge p z g h e f c b)) ∧
      (field w 0 2 = 0b10 ↔
        ∃ p g h e f c b, decodeWord (.l2Desc .fine) w = .ok (.l2fSmall p g h e f c b)) ∧
      (field w 0 2 = 0b11 ↔ ∃ p z g c b, decodeWord (.l2Desc .fine) w = .ok (.l2fTiny p z g c b))

/-- The three descriptor addresses, field by field (R62, R74, R75). -/
def Obligations.DescriptorAddressesAreJoined : Prop :=
  (∀ ttb va : Word,
      field (l1DescAddr ttb va) 14 18 = field ttb 14 18 ∧ field (l1DescAddr ttb va) 2 12 = field va 20 12 ∧
        field (l1DescAddr ttb va) 0 2 = 0b00) ∧
    (∀ d va : Word,
      field (coarseDescAddr (field d 10 22) va) 10 22 = field d 10 22 ∧
        field (coarseDescAddr (field d 10 22) va) 2 8 = field va 12 8 ∧
        field (coarseDescAddr (field d 10 22) va) 0 2 = 0b00) ∧
    ∀ d va : Word,
      field (fineDescAddr (field d 12 20) va) 12 20 = field d 12 20 ∧
        field (fineDescAddr (field d 12 20) va) 2 10 = field va 10 10 ∧
        field (fineDescAddr (field d 12 20) va) 0 2 = 0b00

/-- The physical address of a translated access, field by field (R79). -/
def Obligations.PhysicalAddressesAreJoined : Prop :=
  (∀ (v p : BitVec 12) (ap : BitVec 2) (va : Word),
      field ((Mapping.sect v p ap).physAddr va) 20 12 = p ∧
        field ((Mapping.sect v p ap).physAddr va) 0 20 = field va 0 20) ∧
    (∀ (v p : BitVec 16) (ap3 ap2 ap1 ap0 : BitVec 2) (va : Word),
      field ((Mapping.large v p ap3 ap2 ap1 ap0).physAddr va) 16 16 = p ∧
        field ((Mapping.large v p ap3 ap2 ap1 ap0).physAddr va) 0 16 = field va 0 16) ∧
    (∀ (v p : BitVec 20) (ap3 ap2 ap1 ap0 : BitVec 2) (va : Word),
      field ((Mapping.small v p ap3 ap2 ap1 ap0).physAddr va) 12 20 = p ∧
        field ((Mapping.small v p ap3 ap2 ap1 ap0).physAddr va) 0 12 = field va 0 12) ∧
    ∀ (v p : BitVec 22) (ap : BitVec 2) (va : Word),
      field ((Mapping.tiny v p ap).physAddr va) 10 22 = p ∧
        field ((Mapping.tiny v p ap).physAddr va) 0 10 = field va 0 10

/-! ## A step -/

/-- A step runs the row that the word at hand decodes to, in the role in which the MMU has it (R60). With no
operation in progress it takes the processor's next one (R150) and waits where there is none: a write of CP15
register 1 or 2, or a transfer, is taken by putting its word at hand, from either state of privilege, and
nothing else changes (R140, R143, R86; that a step stands for each word is the model's, log entries 19 and 29).
-/
def Obligations.StepRunsTheDecodedRow : Prop :=
  (∀ s, s.phase = .idle → step s = s.accept) ∧
    (∀ s, s.phase = .idle → s.inputs = [] → step s = .next s) ∧
    (∀ s v codeVa priv rest, s.phase = .idle → s.inputs = .control (.writeControl v codeVa) priv :: rest →
      step s = .next { s with inputs := rest, phase := .ctrlWrite v codeVa priv }) ∧
    (∀ s v priv rest, s.phase = .idle → s.inputs = .control (.writeTtb v) priv :: rest →
      step s = .next { s with inputs := rest, phase := .ttbWrite v priv }) ∧
    (∀ s w v codeVa cp priv rest, s.phase = .idle → s.inputs = .coproc w v codeVa cp priv :: rest →
      step s = .next { s with inputs := rest, phase := .coproc w v codeVa cp priv }) ∧
    (∀ s v codeVa priv i, s.phase = .ctrlWrite v codeVa priv → decodeWord .ctrlReg v = .ok i →
      step s = exec i s) ∧
    (∀ s v priv i, s.phase = .ttbWrite v priv → decodeWord .ttbReg v = .ok i → step s = exec i s) ∧
    (∀ s w v codeVa cp priv i, s.phase = .coproc w v codeVa cp priv → decodeWord .coproc w = .ok i →
      step s = exec i s) ∧
    (∀ s w p i, s.phase = .l1Addr w p → decodeWord .l1Addr w = .ok i → step s = exec i s) ∧
    (∀ s w p i, s.phase = .l1Desc w p → decodeWord .l1Desc w = .ok i → step s = exec i s) ∧
    (∀ s t w d p i, s.phase = .l2Addr t w d p → decodeWord (.l2Addr t) w = .ok i → step s = exec i s) ∧
    (∀ s t w d p i, s.phase = .l2Desc t w d p → decodeWord (.l2Desc t) w = .ok i → step s = exec i s) ∧
    ∀ s e a i, s.phase = .check e a →
      decodeWord .dacField ((s.domainField e.domain).setWidth 32) = .ok i → step s = exec i s

/-! ## First-level descriptors -/

/-- `L1_FAULT`: a first-level fault descriptor gives a translation fault with no domain, whatever its ignored
bits are (R64, R93, R161). The record is the model's `LastFault` (D18, log entry 10) and the fault registers
are those of R169 (log entry 18). With the MMU disabled a `TLBLock` ends without an abort (R166, log entry 27),
and whether the fault is held in the TLB is `TLB_CACHES_FAULTS` (D6, log entry 28). -/
def Obligations.FirstLevelFaultAborts : Prop :=
  ∀ (ignored : BitVec 30) (s : State) (p : Purpose), s.phase.atL1Desc = some p →
    ∃ t, exec (.l1Fault ignored) s = .next t ∧ WalkFaults (.sect (field p.va 20 12)) p s t ∧
      t.walkReads = s.walkReads

/-- `L1_COARSE` and `L1_FINE`: the walk goes on at the address formed from the descriptor's base and the
virtual address, with the descriptor's domain; nothing else changes (R95, R96, R74, R75, R105). -/
def Obligations.PageTableDescriptorFormsTheNextAddress : Prop :=
  (∀ (base : BitVec 22) (sbz : BitVec 1) (domain : BitVec 4) (imp : BitVec 3) (s : State) (p : Purpose),
      s.phase.atL1Desc = some p → s.ignoresSbz ∨ sbz = 0 →
      exec (.l1Coarse base sbz domain imp) s =
        .next { s with phase := .l2Addr .coarse (base ++ field p.va 12 8 ++ 0b00#2) domain p }) ∧
    ∀ (base : BitVec 20) (sbz : BitVec 3) (domain : BitVec 4) (imp : BitVec 3) (s : State) (p : Purpose),
      s.phase.atL1Desc = some p → s.ignoresSbz ∨ sbz = 0 →
      exec (.l1Fine base sbz domain imp) s =
        .next { s with phase := .l2Addr .fine (base ++ field p.va 10 10 ++ 0b00#2) domain p }

/-- `L1_SECTION`: the walk ends in the section's entry (R94, R102); for a `TLBLock` it is put in locked
(R147, D22, log entry 27), within the TLB's capacity (D5, log entry 4). A nonzero should-be-zero field is the
policy's (D13, log entry 23). -/
def Obligations.SectionDescriptorEndsTheWalk : Prop :=
  ∀ (base : BitVec 12) (sbzHi : BitVec 8) (ap : BitVec 2) (sbz : BitVec 1) (domain : BitVec 4)
    (imp : BitVec 1) (c b : Bool) (s : State) (p : Purpose),
    s.phase.atL1Desc = some p → s.ignoresSbz ∨ (sbzHi = 0 ∧ sbz = 0) →
    ∃ t, exec (.l1Section base sbzHi ap sbz domain imp c b) s = .next t ∧
      WalkEnds ⟨.sect (field p.va 20 12) base ap, domain, c, b, false⟩ p s t ∧ t.walkReads = s.walkReads

/-! ## Second-level descriptors -/

/-- `L2C_FAULT` and `L2F_FAULT`: a translation fault at the second level, with the domain of the first-level
descriptor (R69, R97, R162). The record is the model's `LastFault` (D18, log entry 10) and the fault registers
are those of R169 (log entry 18). With the MMU disabled a `TLBLock` ends without an abort (R166, log entry 27),
and whether the fault is held in the TLB, for the 4KB or 1KB that the descriptor leaves unmapped, is
`TLB_CACHES_FAULTS` (D6, log entry 28). -/
def Obligations.SecondLevelFaultAborts : Prop :=
  ∀ (ignored : BitVec 30) (s : State) (domain : BitVec 4) (p : Purpose),
    (s.phase.atL2Desc .coarse = some (domain, p) →
      ∃ t, exec (.l2cFault ignored) s = .next t ∧ WalkFaults (.coarse (field p.va 12 20) domain) p s t ∧
        t.walkReads = s.walkReads) ∧
    (s.phase.atL2Desc .fine = some (domain, p) →
      ∃ t, exec (.l2fFault ignored) s = .next t ∧ WalkFaults (.fine (field p.va 10 22) domain) p s t ∧
        t.walkReads = s.walkReads)

/-- `L2C_LARGE` and `L2F_LARGE`: the walk ends in the large page's entry, with the first-level
descriptor's domain and the second-level descriptor's AP, C and B bits (R98, R102, R105); for a `TLBLock` it
is put in locked (R147, D22, log entry 27), within the TLB's capacity (D5, log entry 4). A nonzero
should-be-zero field is the policy's (D13, log entry 23). -/
def Obligations.LargePageDescriptorEndsTheWalk : Prop :=
  ∀ (base : BitVec 16) (sbz : BitVec 4) (ap3 ap2 ap1 ap0 : BitVec 2) (c b : Bool) (s : State)
    (domain : BitVec 4) (p : Purpose), s.ignoresSbz ∨ sbz = 0 →
    (s.phase.atL2Desc .coarse = some (domain, p) →
      ∃ t, exec (.l2cLarge base sbz ap3 ap2 ap1 ap0 c b) s = .next t ∧
        WalkEnds ⟨.large (field p.va 16 16) base ap3 ap2 ap1 ap0, domain, c, b, false⟩ p s t ∧
        t.walkReads = s.walkReads) ∧
    (s.phase.atL2Desc .fine = some (domain, p) →
      ∃ t, exec (.l2fLarge base sbz ap3 ap2 ap1 ap0 c b) s = .next t ∧
        WalkEnds ⟨.large (field p.va 16 16) base ap3 ap2 ap1 ap0, domain, c, b, false⟩ p s t ∧
        t.walkReads = s.walkReads)

/-- `L2C_SMALL` and `L2F_SMALL`: the walk ends in the small page's entry (R99, R102, R105); for a `TLBLock` it
is put in locked (R147, D22, log entry 27), within the TLB's capacity (D5, log entry 4). -/
def Obligations.SmallPageDescriptorEndsTheWalk : Prop :=
  ∀ (base : BitVec 20) (ap3 ap2 ap1 ap0 : BitVec 2) (c b : Bool) (s : State) (domain : BitVec 4)
    (p : Purpose),
    (s.phase.atL2Desc .coarse = some (domain, p) →
      ∃ t, exec (.l2cSmall base ap3 ap2 ap1 ap0 c b) s = .next t ∧
        WalkEnds ⟨.small (field p.va 12 20) base ap3 ap2 ap1 ap0, domain, c, b, false⟩ p s t ∧
        t.walkReads = s.walkReads) ∧
    (s.phase.atL2Desc .fine = some (domain, p) →
      ∃ t, exec (.l2fSmall base ap3 ap2 ap1 ap0 c b) s = .next t ∧
        WalkEnds ⟨.small (field p.va 12 20) base ap3 ap2 ap1 ap0, domain, c, b, false⟩ p s t ∧
        t.walkReads = s.walkReads)

/-- `L2F_TINY`: the walk ends in the tiny page's entry (R100, R102, R105); for a `TLBLock` it is put in locked
(R147, D22, log entry 27), within the TLB's capacity (D5, log entry 4). A nonzero should-be-zero field is the
policy's (D13, log entry 23). -/
def Obligations.TinyPageDescriptorEndsTheWalk : Prop :=
  ∀ (base : BitVec 22) (sbz : BitVec 4) (ap : BitVec 2) (c b : Bool) (s : State) (domain : BitVec 4)
    (p : Purpose), s.ignoresSbz ∨ sbz = 0 → s.phase.atL2Desc .fine = some (domain, p) →
    ∃ t, exec (.l2fTiny base sbz ap c b) s = .next t ∧
      WalkEnds ⟨.tiny (field p.va 10 22) base ap, domain, c, b, false⟩ p s t ∧ t.walkReads = s.walkReads

/-- `L2C_TINY` and `DAC_RESERVED` stop the machine by name: the spec calls a tiny page descriptor in a coarse
table unpredictable (R73) and says that the reserved field value leads to unpredictable results (R124). To stop
is the model's rendering (D25, log entry 30). -/
def Obligations.UnpredictableRowsStop : Prop :=
  (∀ (undescribed : BitVec 30) (s : State) (domain : BitVec 4) (p : Purpose),
      s.phase.atL2Desc .coarse = some (domain, p) →
      exec (.l2cTiny undescribed) s = .fault .tinyInCoarse) ∧
    ∀ (s : State) (e : TlbEntry) (a : Access), s.phase = .check e a →
      exec .dacReserved s = .fault .domainReserved

/-! ## Descriptor addresses -/

/-- `L1_ADDR`, `L2_ADDR_COARSE` and `L2_ADDR_FINE` with nothing on its way to main memory: the four bytes of
main memory at the address, as a word in the machine's byte order, are the next descriptor; no byte of memory,
no register and no TLB entry changes (R44, R45, R92, R95, R96; D1, log entry 5; D7). That a walk gets this word also
under `WALK_SEES = through cache and write buffer` with a cache that may hold stale data, and that its read fills no
cache, is the model's choice (log entries 12 and 13). -/
def Obligations.DescriptorIsReadFromMainMemory : Prop :=
  ∀ (s : State), s.drained →
    (∀ (base : BitVec 18) (index : BitVec 12) (p : Purpose), s.phase.atL1Addr = some p →
      ∃ t, exec (.l1Addr base index) s = .next t ∧
        t.phase = .l1Desc (wordAt s.cfg.byteOrder s.memByte (base ++ index ++ 0b00#2)) p ∧
        t.walkReads = s.walkReads ++ [base ++ index ++ 0b00#2] ∧ t.outputs = s.outputs ∧
        SameRegisters s t ∧ SameFaultState s t ∧ SameTlbs s t ∧ SameMemory s t ∧ SameInputs s t) ∧
    (∀ (base : BitVec 22) (index : BitVec 8) (d : BitVec 4) (p : Purpose),
      s.phase.atL2Addr .coarse = some (d, p) →
      ∃ t, exec (.l2AddrCoarse base index) s = .next t ∧
        t.phase = .l2Desc .coarse (wordAt s.cfg.byteOrder s.memByte (base ++ index ++ 0b00#2)) d p ∧
        t.walkReads = s.walkReads ++ [base ++ index ++ 0b00#2] ∧ t.outputs = s.outputs ∧
        SameRegisters s t ∧ SameFaultState s t ∧ SameTlbs s t ∧ SameMemory s t ∧ SameInputs s t) ∧
    ∀ (base : BitVec 20) (index : BitVec 10) (d : BitVec 4) (p : Purpose),
      s.phase.atL2Addr .fine = some (d, p) →
      ∃ t, exec (.l2AddrFine base index) s = .next t ∧
        t.phase = .l2Desc .fine (wordAt s.cfg.byteOrder s.memByte (base ++ index ++ 0b00#2)) d p ∧
        t.walkReads = s.walkReads ++ [base ++ index ++ 0b00#2] ∧ t.outputs = s.outputs ∧
        SameRegisters s t ∧ SameFaultState s t ∧ SameTlbs s t ∧ SameMemory s t ∧ SameInputs s t

/-- The same with writes on their way: some of them may reach main memory before the read, which changes
only bytes that such a write has; the descriptor is what the walk sees afterwards, the bytes of main memory or,
under `WALK_SEES = through cache and write buffer`, those under the held writes, which are the model's choice for
a cache that holds stale data (R44, R49, D7, log entries 12 and 13). That the read fills no cache is the model's
choice too (log entry 13). -/
def Obligations.DescriptorReadMayLetWritesArrive : Prop :=
  ∀ (s : State), s.Inv →
    (∀ (base : BitVec 18) (index : BitVec 12) (p : Purpose), s.phase.atL1Addr = some p →
      ∃ t w, exec (.l1Addr base index) s = .next t ∧ t.phase = .l1Desc w p ∧
        ReadAmongArrivals (base ++ index ++ 0b00#2) w s t) ∧
    (∀ (base : BitVec 22) (index : BitVec 8) (d : BitVec 4) (p : Purpose),
      s.phase.atL2Addr .coarse = some (d, p) →
      ∃ t w, exec (.l2AddrCoarse base index) s = .next t ∧ t.phase = .l2Desc .coarse w d p ∧
        ReadAmongArrivals (base ++ index ++ 0b00#2) w s t) ∧
    ∀ (base : BitVec 20) (index : BitVec 10) (d : BitVec 4) (p : Purpose),
      s.phase.atL2Addr .fine = some (d, p) →
      ∃ t w, exec (.l2AddrFine base index) s = .next t ∧ t.phase = .l2Desc .fine w d p ∧
        ReadAmongArrivals (base ++ index ++ 0b00#2) w s t

/-- Writes that arrive in main memory do not change what the processor sees: program order (R49, D4; log
entry 12). -/
def Obligations.ArrivingWritesKeepTheProcessorsView : Prop :=
  ∀ (s : State), s.Inv → ∀ x : Word, s.drainSome.coherentByte x = s.coherentByte x

/-! ## Domains and permissions -/

/-- `DAC_NOACCESS`: any access causes a domain fault, for reads, writes and fetches, in user and privileged
state alike; section or page by the entry's kind (R122); the record is the model's `LastFault` (D18, log
entry 10) and the fault registers are those of R169 (log entry 18). -/
def Obligations.NoAccessDomainAborts : Prop :=
  ∀ (s : State) (e : TlbEntry) (a : Access), s.phase = .check e a →
    ∃ t, exec .dacNoAccess s = .next t ∧
      Aborted (.domain e.mapping.level) a.va (some e.domain) (a.kind.updatesFaultRegs s.cfg) s t ∧
      SameTlbs s t ∧ t.walkReads = s.walkReads ∧
      (e.mapping.level = .sect ↔ ∃ v p ap, e.mapping = .sect v p ap)

/-- `DAC_MANAGER`: the access is allowed whatever the permission bits, S, R, the kind and the privilege
are (R125), and its data moves at the entry's physical address (R107): a read that does not hit a cache gives
the bytes that the processor sees there, a fetch bytes of main memory or of held writes (R37, R53, log entries
13 and 15), a write is made there or held back (log entry 12), where a write that hits a cache goes to an open
address (R38, log entry 14). An access that runs past the end of its region is the model's choice to refuse
(R47, D21, log entry 11). -/
def Obligations.ManagerDomainAllows : Prop :=
  ∀ (s : State) (e : TlbEntry) (a : Access), s.Inv → s.phase = .check e a →
    a.transfer.size ≤ e.mapping.room a.va →
    ∃ t data, exec .dacManager s = .next t ∧
      Proceeded (e.mapping.physAddr a.va) e.c e.b data s t ∧
      MovedData (e.mapping.physAddr a.va) e.c e.b a.transfer data s t

/-- `DAC_CLIENT` where the permission bits allow the access: it proceeds and its data moves at the
entry's physical address (R123, R133, R107), inside its region (D21, log entry 11): a read that does not hit a
cache gives the bytes that the processor sees there, a fetch bytes of main memory or of held writes (R37, R53,
log entries 13 and 15), a write is made there or held back (log entry 12), where a write that hits a cache goes
to an open address (R38, log entry 14). -/
def Obligations.ClientDomainAllowsByPermission : Prop :=
  ∀ (s : State) (e : TlbEntry) (a : Access) (lvl : Permission), s.Inv → s.phase = .check e a →
    permission (e.mapping.ap a.va) s.systemBit s.romBit a.priv = some lvl → lvl.allows a.kind = true →
    a.transfer.size ≤ e.mapping.room a.va →
    ∃ t data, exec .dacClient s = .next t ∧
      Proceeded (e.mapping.physAddr a.va) e.c e.b data s t ∧
      MovedData (e.mapping.physAddr a.va) e.c e.b a.transfer data s t

/-- `DAC_CLIENT` where the permission bits do not allow the access: a permission fault (R133, R164); the
record is the model's `LastFault` (D18, log entry 10) and the fault registers are those of R169 (log entry 18).
-/
def Obligations.ClientDomainAbortsByPermission : Prop :=
  ∀ (s : State) (e : TlbEntry) (a : Access) (lvl : Permission), s.phase = .check e a →
    permission (e.mapping.ap a.va) s.systemBit s.romBit a.priv = some lvl → lvl.allows a.kind = false →
    ∃ t, exec .dacClient s = .next t ∧
      Aborted (.permission e.mapping.level) a.va (some e.domain) (a.kind.updatesFaultRegs s.cfg) s t ∧
      SameTlbs s t ∧ t.walkReads = s.walkReads

/-- Table 3-3, row by row, privileged and user (R126 to R132). -/
def Obligations.PermissionTable : Prop :=
  (∀ priv, permission 0b00 false false priv = some .noAccess) ∧
    permission 0b00 true false .privileged = some .readOnly ∧
    permission 0b00 true false .user = some .noAccess ∧
    (∀ priv, permission 0b00 false true priv = some .readOnly) ∧
    (∀ priv, permission 0b00 true true priv = none) ∧
    (∀ s r, permission 0b01 s r .privileged = some .readWrite ∧
      permission 0b01 s r .user = some .noAccess) ∧
    (∀ s r, permission 0b10 s r .privileged = some .readWrite ∧
      permission 0b10 s r .user = some .readOnly) ∧
    ∀ s r priv, permission 0b11 s r priv = some .readWrite

/-- From permission level to verdict, for each kind of access (R133, R134; D12, log entry 25). -/
def Obligations.VerdictOfEachLevel : Prop :=
  (∀ k, Permission.noAccess.allows k = false) ∧
    Permission.readOnly.allows .read = true ∧ Permission.readOnly.allows .fetch = true ∧
    Permission.readOnly.allows .write = false ∧ ∀ k, Permission.readWrite.allows k = true

/-- The subpage of an address is named by the top two bits of the page index, AP0 lowest (R101; D11, log
entry 25); a section and a tiny page have one permission (R135). -/
def Obligations.SubpageSelectsThePermission : Prop :=
  (∀ (v p : BitVec 16) (ap3 ap2 ap1 ap0 : BitVec 2) (va : Word),
      (Mapping.large v p ap3 ap2 ap1 ap0).ap va =
        if field va 14 2 = 0 then ap0 else if field va 14 2 = 1 then ap1
        else if field va 14 2 = 2 then ap2 else ap3) ∧
    (∀ (v p : BitVec 20) (ap3 ap2 ap1 ap0 : BitVec 2) (va : Word),
      (Mapping.small v p ap3 ap2 ap1 ap0).ap va =
        if field va 10 2 = 0 then ap0 else if field va 10 2 = 1 then ap1
        else if field va 10 2 = 2 then ap2 else ap3) ∧
    (∀ (v p : BitVec 12) (ap : BitVec 2) (va : Word), (Mapping.sect v p ap).ap va = ap) ∧
    ∀ (v p : BitVec 22) (ap : BitVec 2) (va : Word), (Mapping.tiny v p ap).ap va = ap

/-- The step that checks an access does what the check of R139 says, with the values that DAC, S and R
have now (R138, D14, log entry 26): it proceeds and its data moves (log entries 12 to 15), aborts with the named
fault (D18, log entries 10 and 18), or stops, which is the model's rendering of unpredictable (D25, log entry
30). -/
def Obligations.CheckStepFollowsTheWholeCheck : Prop :=
  ∀ (s : State) (e : TlbEntry) (a : Access), s.phase = .check e a →
    a.transfer.size ≤ e.mapping.room a.va →
    (s.domainField e.domain = 0b00 →
      ∃ t, step s = .next t ∧ SameTlbs s t ∧
        Aborted (.domain e.mapping.level) a.va (some e.domain) (a.kind.updatesFaultRegs s.cfg) s t) ∧
    (s.domainField e.domain = 0b10 → step s = .fault .domainReserved) ∧
    (s.domainField e.domain = 0b11 →
      ∃ t data, step s = .next t ∧ Proceeded (e.mapping.physAddr a.va) e.c e.b data s t ∧
        (s.Inv → MovedData (e.mapping.physAddr a.va) e.c e.b a.transfer data s t)) ∧
    (s.domainField e.domain = 0b01 →
      match permission (e.mapping.ap a.va) s.systemBit s.romBit a.priv with
      | none => step s = .fault .apWithSystemAndRom
      | some lvl =>
        if lvl.allows a.kind then
          ∃ t data, step s = .next t ∧ Proceeded (e.mapping.physAddr a.va) e.c e.b data s t ∧
            (s.Inv → MovedData (e.mapping.physAddr a.va) e.c e.b a.transfer data s t)
        else
          ∃ t, step s = .next t ∧ SameTlbs s t ∧
            Aborted (.permission e.mapping.level) a.va (some e.domain) (a.kind.updatesFaultRegs s.cfg) s t)

/-- The machine stops as UNPREDICTABLE in the three conditions the spec names and in no other (R165); so in
a configuration that keeps out of them it does not stop so (R202). To stop is the model's rendering (D25,
log entry 30). -/
def Obligations.UnpredictableExactlyInTheThreeConditions : Prop :=
  ∀ s : State,
    (step s = .fault .tinyInCoarse ↔
      ∃ d dom p, s.phase = .l2Desc .coarse d dom p ∧ field d 0 2 = 0b11) ∧
    (step s = .fault .domainReserved ↔
      ∃ e a, s.phase = .check e a ∧ s.domainField e.domain = 0b10) ∧
    (step s = .fault .apWithSystemAndRom ↔
      ∃ e a, s.phase = .check e a ∧ s.domainField e.domain = 0b01 ∧ e.mapping.ap a.va = 0b00 ∧
        s.systemBit = true ∧ s.romBit = true) ∧
    (s.noReservedDomain → s.notBothSystemAndRom → s.noTinyInCoarse → ∀ f, step s ≠ .fault f)

/-! ## Accesses -/

/-- With the MMU disabled an access is flat, unchecked and never aborts, its cache control bits are those of
R43, and its data moves at the address itself (R42, R43): a read sees the held writes and a write that is made at
once may let older ones arrive (R49, D4, log entry 12), which held writes a fetch sees is log entry 15's, what a
cache gives log entry 13's, the address of a write that hits one log entry 14's (R38), and an access past the end
of the address space log entry 11's (D21). -/
def Obligations.DisabledAccessIsFlat : Prop :=
  ∀ (s : State) (a : Access) (rest : List Request), s.phase = .idle → s.inputs = .access a :: rest →
    s.ctrl.getLsbD 0 = false → a.transfer.size ≤ 2 ^ 32 - a.va.toNat →
    ∃ t data c b, step s = .next t ∧ t.outputs = .ok a.va c b data :: s.outputs ∧ t.phase = .idle ∧
      t.inputs = rest ∧ SameRegisters s t ∧ SameFaultState s t ∧ SameTlbs s t ∧ t.walkReads = [] ∧
      (s.Inv → MovedData a.va c b a.transfer data s t) ∧
      t.cacheHolds = (s.cacheHolds || (c && s.cfg.hasCache)) ∧ b = false ∧
      (c = true ↔ s.cfg.cacheWithMmuOff = true ∧ a.kind = .fetch ∧ s.cfg.tlbOrg = .split)

/-- While the MMU is disabled there are no faults: no step answers a memory abort or changes the record of the
last one (R166). The machine is in a state that meets the invariant, so that it translates no access. -/
def Obligations.DisabledMmuGeneratesNoAbort : Prop :=
  ∀ s t : State, s.Inv → s.ctrl.getLsbD 0 = false → step s = .next t →
    t.lastFault = s.lastFault ∧ ∀ kind va, t.outputs ≠ .abort kind va :: s.outputs

/-- A TLB miss starts a walk at the first-level descriptor address; nothing else changes (R34, R62). -/
def Obligations.TlbMissStartsTheWalk : Prop :=
  ∀ (s : State) (a : Access) (rest : List Request), s.phase = .idle → s.inputs = .access a :: rest →
    s.ctrl.getLsbD 0 = true → (∀ x ∈ s.tlbOf a.kind.side, x.covers a.va = false) →
    step s = .next { s with
      inputs := rest
      walkReads := []
      phase := .l1Addr (field s.ttb 14 18 ++ field a.va 20 12 ++ 0b00#2) (.access a) }

/-- A lookup ends in the check of an entry that covers the address, or in a walk, and in a walk only when no
covering entry is locked (R31, R33, R21; which is free, log entry 3); under `TLB_CACHES_FAULTS` it may end in a
translation fault that the TLB holds for the address (D6, log entry 28), whose record is the model's `LastFault`
(R168, D18, log entry 10) and whose fault registers are those of R169 (general knowledge, log entry 18). -/
def Obligations.LookupHitsOrWalks : Prop :=
  ∀ (s : State) (a : Access) (rest : List Request), s.phase = .idle → s.inputs = .access a :: rest →
    s.ctrl.getLsbD 0 = true →
    ∃ t, step s = .next t ∧ t.inputs = rest ∧ t.walkReads = [] ∧
      SameRegisters s t ∧ SameTlbs s t ∧ SameMemory s t ∧
      ((∃ e, .entry e ∈ s.tlbOf a.kind.side ∧ e.mapping.covers a.va = true ∧ t.phase = .check e a ∧
          t.outputs = s.outputs ∧ SameFaultState s t) ∨
        (t.phase = .l1Addr (l1DescAddr s.ttb a.va) (.access a) ∧ t.outputs = s.outputs ∧
          SameFaultState s t ∧
          ∀ x ∈ s.tlbOf a.kind.side, x.covers a.va = true → x.locked = false) ∨
        ∃ f, .fault f ∈ s.tlbOf a.kind.side ∧ f.covers a.va = true ∧ HeldFaultRaised f a s t)

/-- While a locked entry covers an address, an access to it makes no walk: a line of the TLB that covers it
decides it (R21, R147, U15, D22, log entries 3, 27 and 28). Where that line is a held translation fault, the record
is the model's `LastFault` (R168, D18, log entry 10) and the fault registers are those of R169 (general knowledge,
log entry 18). -/
def Obligations.LockedEntryForbidsTheWalk : Prop :=
  ∀ (s : State) (a : Access) (rest : List Request), s.phase = .idle → s.inputs = .access a :: rest →
    s.ctrl.getLsbD 0 = true →
    (∃ x ∈ s.tlbOf a.kind.side, x.covers a.va = true ∧ x.locked = true) →
    ∃ t, step s = .next t ∧ t.walkReads = [] ∧
      ((∃ e, .entry e ∈ s.tlbOf a.kind.side ∧ e.mapping.covers a.va = true ∧ t.phase = .check e a) ∨
        ∃ f, .fault f ∈ s.tlbOf a.kind.side ∧ f.covers a.va = true ∧ HeldFaultRaised f a s t)

/-- The walk that the machine makes row by row is the walk of R106, for an access and for a `TLBLock`, under
either policy for should-be-zero fields: from the first-level descriptor address it ends, in at most four steps,
as R106 says. A stop for a tiny page in a coarse table is log entry 30's rendering, a refusal of the tables log
entry 23's. The record of a fault is the model's `LastFault` (R168, D18, log entry 10), the fault registers are
those of R169 (general knowledge, log entry 18), and whether the fault is held is `TLB_CACHES_FAULTS` (D6, log
entry 28). The entry is placed within the TLB's capacity (D5, log entry 4), and the end of a `TLBLock` is D22's and
log entry 27's. That neither walk gets stale data of a cache under `WALK_SEES = through cache and write buffer`, and
that the descriptor reads fill no cache, is the model's choice (log entries 12 and 13). -/
def Obligations.MachineWalkIsTheWalkOfTheSpec : Prop :=
  ∀ (s : State) (p : Purpose), s.phase = .l1Addr (l1DescAddr s.ttb p.va) p → s.drained →
    ∃ k ≤ 4, (s.walk p.va).reached p s (Sys2Proof.core.run k s)

/-- An access through the machine comes out as R31 says, by hit or by walk: when the TLB agrees with the
tables, the free choice between them cannot be observed (R31, R106, R139; log entries 3, 4, 23, 28 and 30); the
record of an abort is log entry 10's, and that a walk gets no stale data of a cache under `WALK_SEES = through cache
and write buffer` the model's choice (log entries 12 and 13). -/
def Obligations.AccessComesOutAsTheSpecSays : Prop :=
  ∀ (s : State) (a : Access) (rest : List Request), s.phase = .idle → s.inputs = .access a :: rest →
    s.ctrl.getLsbD 0 = true → s.drained → s.tlbAgrees a.kind.side →
    (∀ pa c b, s.accessOutcome a = .proceeds pa c b → a.transfer.size ≤ s.accessRoom a) →
    ∃ k ≤ 6, (s.accessOutcome a).carriedOut a.va s (Sys2Proof.core.run k s)

/-! ## Control operations -/

/-- `TTB`: CP15 register 2 takes the value; no TLB entry, no other register and no byte of memory changes
(R143). A nonzero should-be-zero field is the policy's (D13, log entry 23). -/
def Obligations.WriteTtbWritesOnlyTtb : Prop :=
  ∀ (base : BitVec 18) (sbz : BitVec 14) (s : State) (v : Word), s.phase = .ttbWrite v .privileged →
    s.ignoresSbz ∨ sbz = 0 →
    exec (.ttb base sbz) s =
      .next { s with ttb := base ++ sbz, outputs := .done :: s.outputs, phase := .idle }

/-- `CTRL`: CP15 register 1 takes the value, M, S and R at once; the TLBs, the other registers and memory
are unchanged (R140, R142, D16). A write that changes M needs code that the tables map to itself (R141,
R198, D24, log entry 22). -/
def Obligations.WriteControlWritesOnlyCtrl : Prop :=
  ∀ (v codeVa w : Word) (s : State), s.phase = .ctrlWrite w codeVa .privileged →
    (v.getLsbD 0 = s.ctrl.getLsbD 0 ∨ s.identityMapped codeVa) →
    exec (.ctrl v) s =
      .next { s with ctrl := v, outputs := .done :: s.outputs, phase := .idle }

/-- The forms to which the model gives no effect are refused by name: a nonzero should-be-zero field under
`SBZ_POLICY = refuse` (R82, D13), an access that runs past the end of its region (R47, D21), a
`WriteControl` that changes M from code that the tables do not map to itself (R141, R198, D24, log entry 22),
lockdown where
there is none (R147), and a transfer in a form or of a register that the spec does not describe (R2, R86, log
entry 19). -/
def Obligations.FormsOutsideTheSpecAreRefusedByName : Prop :=
  ∀ s : State,
    (s.cfg.sbzPolicy = .refuseBits →
      (∀ p base sbz d m, s.phase.atL1Desc = some p → sbz ≠ 0 →
        exec (.l1Coarse base sbz d m) s = .refused .sbzNonzero) ∧
      (∀ p base sbz d m, s.phase.atL1Desc = some p → sbz ≠ 0 →
        exec (.l1Fine base sbz d m) s = .refused .sbzNonzero) ∧
      (∀ p base hi ap sbz d m c b, s.phase.atL1Desc = some p → hi ≠ 0 ∨ sbz ≠ 0 →
        exec (.l1Section base hi ap sbz d m c b) s = .refused .sbzNonzero) ∧
      (∀ q base sbz g h e f c b, s.phase.atL2Desc .coarse = some q → sbz ≠ 0 →
        exec (.l2cLarge base sbz g h e f c b) s = .refused .sbzNonzero) ∧
      (∀ q base sbz g h e f c b, s.phase.atL2Desc .fine = some q → sbz ≠ 0 →
        exec (.l2fLarge base sbz g h e f c b) s = .refused .sbzNonzero) ∧
      (∀ q base sbz ap c b, s.phase.atL2Desc .fine = some q → sbz ≠ 0 →
        exec (.l2fTiny base sbz ap c b) s = .refused .sbzNonzero) ∧
      (∀ w base sbz, s.phase = .ttbWrite w .privileged → sbz ≠ 0 →
        exec (.ttb base sbz) s = .refused .sbzNonzero) ∧
      ∀ cond rd w v codeVa cp, s.phase = .coproc w v codeVa cp .privileged → (cond = 0b1110 ∨ cp = true) →
        field v 0 14 ≠ 0 → exec (.mcrMrc cond 0 false 2 rd 0 0) s = .refused .sbzNonzero) ∧
    (∀ e a, s.phase = .check e a → e.mapping.room a.va < a.transfer.size →
      exec .dacManager s = .refused .spansRegions ∧
      ∀ lvl, permission (e.mapping.ap a.va) s.systemBit s.romBit a.priv = some lvl →
        lvl.allows a.kind = true → exec .dacClient s = .refused .spansRegions) ∧
    (∀ a rest, s.phase = .idle → s.inputs = .access a :: rest → s.ctrl.getLsbD 0 = false →
      2 ^ 32 - a.va.toNat < a.transfer.size → step s = .refused .spansRegions) ∧
    (∀ v w codeVa, s.phase = .ctrlWrite w codeVa .privileged → v.getLsbD 0 ≠ s.ctrl.getLsbD 0 →
      ¬ s.identityMapped codeVa → exec (.ctrl v) s = .refused .enableNotIdentityMapped) ∧
    (∀ side va e rest, s.phase = .idle → s.cfg.tlbLockdown = false →
      s.inputs = .control (.tlbLock side va) .privileged :: rest ∨
        s.inputs = .control (.tlbUnlock side e) .privileged :: rest →
      step s = .refused .noTlbLockdown) ∧
    ∀ w v codeVa cp, s.phase = .coproc w v codeVa cp .privileged →
      (isCoprocTransfer w = false → step s = .refused (.undecodable .notACoprocessorTransfer)) ∧
      ∀ cond, (cond = 0b1110 ∨ cp = true) →
        (∀ rd, v.getLsbD 0 ≠ s.ctrl.getLsbD 0 → ¬ s.identityMapped codeVa →
          exec (.mcrMrc cond 0 false 1 rd 0 0) s = .refused .enableNotIdentityMapped) ∧
        ∀ opc1 load crn rd opc2 crm,
          (opc1 ≠ 0 ∨
            (crn ≠ 8 ∨ load = true) ∧ (crm ≠ 0 ∨ opc2 ≠ 0 ∨
              crn ≠ 1 ∧ crn ≠ 2 ∧ crn ≠ s.cfg.dacrRegnum ∧ crn ≠ 5 ∧ crn ≠ 6) ∨
            (crn = 8 ∧ load = false) ∧ (crm ≠ 5 ∧ crm ≠ 6 ∧ crm ≠ 7 ∨ opc2 ≠ 0 ∧ opc2 ≠ 1)) →
          exec (.mcrMrc cond opc1 load crn rd opc2 crm) s = .refused (.cp15NotDescribed crn crm opc2)

/-- `WriteDAC`: the domain access control register takes the value, field `n` being the bit pair that
`DACR_FIELD_ORDER` gives domain `n` (R15, D9), which is `[2n+1:2n]` in the order that the machine has at reset
(log entry 9); the TLBs, the other registers and memory are unchanged (R144). -/
def Obligations.WriteDacWritesOnlyDac : Prop :=
  ∀ (v : Word) (s : State) (rest : List Request), s.phase = .idle →
    s.inputs = .control (.writeDac v) .privileged :: rest →
    step s = .next { s with
      dac := v
      inputs := rest
      outputs := .done :: s.outputs
      phase := .idle } ∧
    ∀ n : BitVec 4, ∀ i < 2,
      (dacField s.cfg v n).getLsbD i =
          v.getLsbD (2 * (s.cfg.dacrFieldOrder[n.toNat]'n.isLt).val + i) ∧
        (dacField resetConfig v n).getLsbD i = v.getLsbD (2 * n.toNat + i)

/-- From user state no control operation has an effect: the machine refuses it (R148, D23; log entry 21), where
it has the operation's word at hand and, counted from the processor's request, in the first step or the second.
A transfer whose condition is not met is no control operation and is not among them (log entry 19). -/
def Obligations.UserControlOperationIsRefused : Prop :=
  (∀ base sbz s v, s.phase = .ttbWrite v .user →
      exec (.ttb base sbz) s = .refused .userControlOperation) ∧
    (∀ v w codeVa s, s.phase = .ctrlWrite w codeVa .user →
      exec (.ctrl v) s = .refused .userControlOperation) ∧
    (∀ cond opc1 load crn rd opc2 crm s w v codeVa cp, s.phase = .coproc w v codeVa cp .user →
      (cond = 0b1110 ∨ cp = true) →
      exec (.mcrMrc cond opc1 load crn rd opc2 crm) s = .refused .userControlOperation) ∧
    (∀ op s rest, s.phase = .idle → s.inputs = .control op .user :: rest →
      (∀ v codeVa, op ≠ .writeControl v codeVa) → (∀ v, op ≠ .writeTtb v) →
      step s = .refused .userControlOperation) ∧
    (∀ v codeVa s rest, s.phase = .idle → s.inputs = .control (.writeControl v codeVa) .user :: rest →
      Sys2Proof.core.run 2 s = .refused .userControlOperation) ∧
    (∀ v s rest, s.phase = .idle → s.inputs = .control (.writeTtb v) .user :: rest →
      Sys2Proof.core.run 2 s = .refused .userControlOperation) ∧
    ∀ w v codeVa cp s rest, s.phase = .idle → s.inputs = .coproc w v codeVa cp .user :: rest →
      isCoprocTransfer w = true → (field w 28 4 = 0b1110 ∨ cp = true) →
      Sys2Proof.core.run 2 s = .refused .userControlOperation

/-- `TLBFlush`: every unlocked entry of the chosen TLBs is gone, every locked one stays, and a TLB that was
not chosen is unchanged; so are the registers and memory (R146, D22). -/
def Obligations.TlbFlushRemovesTheUnlocked : Prop :=
  ∀ (which : FlushWhich) (s : State) (rest : List Request), s.phase = .idle →
    s.inputs = .control (.tlbFlush which) .privileged :: rest →
    ∃ t, step s = .next t ∧ t.inputs = rest ∧ t.outputs = .done :: s.outputs ∧ t.phase = .idle ∧
      SameRegisters s t ∧ SameFaultState s t ∧ SameMemory s t ∧
      (∀ side, (which = .all ∨ (which = .instruction ∧ side = .instruction) ∨
          (which = .data ∧ side = .data)) →
        ∀ x, x ∈ t.tlbOf side ↔ x ∈ s.tlbOf side ∧ x.locked = true) ∧
      (s.cfg.tlbOrg = .split → which = .instruction → t.tlbOf .data = s.tlbOf .data) ∧
      (s.cfg.tlbOrg = .split → which = .data → t.tlbOf .instruction = s.tlbOf .instruction)

/-- `TLBLock` starts the walk of its address, whether or not the MMU is enabled (log entry 27), and `TLBUnlock`
leaves its entry in the TLB, unlocked; the other TLB of a split organisation is unchanged (R147, D22). A
`TLBUnlock` of an entry that is not there, or not locked, is over with nothing changed (log entry 27). -/
def Obligations.TlbLockAndUnlock : Prop :=
  (∀ (side : TlbSide) (va : Word) (s : State) (rest : List Request), s.phase = .idle →
      s.inputs = .control (.tlbLock side va) .privileged :: rest → s.cfg.tlbLockdown = true →
      ∃ t, step s = .next t ∧ t.phase = .l1Addr (l1DescAddr s.ttb va) (.lock side va) ∧ t.inputs = rest ∧
        t.outputs = s.outputs ∧ t.walkReads = [] ∧
        SameRegisters s t ∧ SameFaultState s t ∧ SameTlbs s t ∧ SameMemory s t) ∧
    (∀ (side : TlbSide) (e : TlbEntry) (s : State) (rest : List Request), s.phase = .idle →
      s.inputs = .control (.tlbUnlock side e) .privileged :: rest → s.cfg.tlbLockdown = true →
      .entry e ∈ s.tlbOf side → e.locked = true →
      ∃ t, step s = .next t ∧ t.inputs = rest ∧ t.outputs = .done :: s.outputs ∧ t.phase = .idle ∧
        (∀ x, x ∈ t.tlbOf side ↔
          x = .entry { e with locked := false } ∨ (x ∈ s.tlbOf side ∧ x ≠ .entry e)) ∧
        (s.cfg.tlbOrg = .split → ∀ other, other ≠ side → t.tlbOf other = s.tlbOf other) ∧
        SameRegisters s t ∧ SameFaultState s t ∧ SameMemory s t) ∧
    ∀ (side : TlbSide) (e : TlbEntry) (s : State) (rest : List Request), s.phase = .idle →
      s.inputs = .control (.tlbUnlock side e) .privileged :: rest → s.cfg.tlbLockdown = true →
      (.entry e ∉ s.tlbOf side ∨ e.locked = false) →
      step s = .next { s with
        inputs := rest
        outputs := .done :: s.outputs
        phase := .idle }

/-- Reading a register back gives the bits the spec describes as they were written, the others being free
(R145, log entry 17); reading the fault status information gives the last abort (R168, D18). The operation is
then over, and nothing but the answer has changed. -/
def Obligations.ReadBackGivesTheDescribedBits : Prop :=
  ∀ (s : State) (rest : List Request), s.phase = .idle →
    (s.inputs = .control .readTtb .privileged :: rest →
      ∃ t v, step s = .next t ∧ t.outputs = .value v :: s.outputs ∧ field v 14 18 = field s.ttb 14 18 ∧
        t.phase = .idle ∧ t.inputs = rest ∧ SameRegisters s t ∧ SameFaultState s t ∧ SameTlbs s t ∧
        SameMemory s t) ∧
    (s.inputs = .control .readControl .privileged :: rest →
      ∃ t v, step s = .next t ∧ t.outputs = .value v :: s.outputs ∧ v.getLsbD 0 = s.ctrl.getLsbD 0 ∧
        v.getLsbD s.cfg.sBitPos = s.systemBit ∧ v.getLsbD s.cfg.rBitPos = s.romBit ∧
        t.phase = .idle ∧ t.inputs = rest ∧ SameRegisters s t ∧ SameFaultState s t ∧ SameTlbs s t ∧
        SameMemory s t) ∧
    (s.inputs = .control .readDac .privileged :: rest →
      ∃ t, step s = .next t ∧ t.outputs = .value s.dac :: s.outputs ∧
        t.phase = .idle ∧ t.inputs = rest ∧ SameRegisters s t ∧ SameFaultState s t ∧ SameTlbs s t ∧
        SameMemory s t) ∧
    (s.inputs = .control .readFault .privileged :: rest →
      ∃ t, step s = .next t ∧ t.outputs = .faultRecord s.lastFault :: s.outputs ∧
        t.phase = .idle ∧ t.inputs = rest ∧ SameRegisters s t ∧ SameFaultState s t ∧ SameTlbs s t ∧
        SameMemory s t)

/-- `MCR_MRC_p15`, an MCR: each described CP15 register takes the value in Rd, and nothing else changes
(R86, general knowledge, log entry 19). A write that changes M needs code that the tables map to itself (R141,
R198, D24, log entry 22), and a nonzero should-be-zero field of register 2 is the policy's (D13, log entry 23). -/
def Obligations.McrWritesTheRegister : Prop :=
  ∀ (cond : BitVec 4) (rd : BitVec 4) (s : State) (w v codeVa : Word) (cp : Bool),
    s.phase = .coproc w v codeVa cp .privileged → (cond = 0b1110 ∨ cp = true) →
    s.cfg.wellFormed = true →
    ((v.getLsbD 0 = s.ctrl.getLsbD 0 ∨ s.identityMapped codeVa) →
      exec (.mcrMrc cond 0 false 1 rd 0 0) s =
        .next { s with ctrl := v, outputs := .done :: s.outputs, phase := .idle }) ∧
    (s.ignoresSbz ∨ field v 0 14 = 0 →
      exec (.mcrMrc cond 0 false 2 rd 0 0) s =
        .next { s with ttb := v, outputs := .done :: s.outputs, phase := .idle }) ∧
    exec (.mcrMrc cond 0 false s.cfg.dacrRegnum rd 0 0) s =
      .next { s with dac := v, outputs := .done :: s.outputs, phase := .idle } ∧
    exec (.mcrMrc cond 0 false 5 rd 0 0) s =
      .next { s with fsr := v, outputs := .done :: s.outputs, phase := .idle } ∧
    exec (.mcrMrc cond 0 false 6 rd 0 0) s =
      .next { s with far := v, outputs := .done :: s.outputs, phase := .idle }

/-- `MCR_MRC_p15`, a write of CP15 register 8: the TLB operations, on every unlocked entry or on those that
cover the address in Rd; a TLB that was not chosen is unchanged (R146, general knowledge, log entries 19 and
20). -/
def Obligations.McrFlushesTheTlb : Prop :=
  ∀ (cond : BitVec 4) (rd : BitVec 4) (s : State) (w v codeVa : Word) (cp : Bool) (which : FlushWhich)
    (crm : BitVec 4),
    s.phase = .coproc w v codeVa cp .privileged → (cond = 0b1110 ∨ cp = true) →
    (crm = 7 ∧ which = .all ∨ crm = 5 ∧ which = .instruction ∨ crm = 6 ∧ which = .data) →
    ∀ opc2 : BitVec 3, (opc2 = 0 ∨ opc2 = 1) →
    ∃ t, exec (.mcrMrc cond 0 false 8 rd opc2 crm) s = .next t ∧ t.outputs = .done :: s.outputs ∧
      t.phase = .idle ∧ SameRegisters s t ∧ SameFaultState s t ∧ SameMemory s t ∧ SameInputs s t ∧
      (s.cfg.tlbOrg = .split → which = .instruction → t.tlbOf .data = s.tlbOf .data) ∧
      (s.cfg.tlbOrg = .split → which = .data → t.tlbOf .instruction = s.tlbOf .instruction) ∧
      ∀ side, (which = .all ∨ (which = .instruction ∧ side = .instruction) ∨
          (which = .data ∧ side = .data)) →
        ∀ x, x ∈ t.tlbOf side ↔
          x ∈ s.tlbOf side ∧ (x.locked = true ∨ (opc2 = 1 ∧ x.covers v = false))

/-- `MCR_MRC_p15`, an MRC: Rd gets the described bits of the register, and nothing else changes (R86,
R145, R169, general knowledge, log entry 19). -/
def Obligations.MrcReadsTheRegister : Prop :=
  ∀ (cond : BitVec 4) (crn rd : BitVec 4) (s : State) (w v codeVa : Word) (cp : Bool),
    s.phase = .coproc w v codeVa cp .privileged → (cond = 0b1110 ∨ cp = true) →
    s.cfg.wellFormed = true → (crn = 1 ∨ crn = 2 ∨ crn = s.cfg.dacrRegnum ∨ crn = 5 ∨ crn = 6) →
    ∃ t x, exec (.mcrMrc cond 0 true crn rd 0 0) s = .next t ∧
      t.outputs = .coprocValue rd x :: s.outputs ∧ t.phase = .idle ∧
      SameRegisters s t ∧ SameFaultState s t ∧ SameTlbs s t ∧ SameMemory s t ∧ SameInputs s t ∧
      (crn = 1 → x.getLsbD 0 = s.ctrl.getLsbD 0 ∧ x.getLsbD s.cfg.sBitPos = s.systemBit ∧
        x.getLsbD s.cfg.rBitPos = s.romBit) ∧ (crn = 2 → field x 14 18 = field s.ttb 14 18) ∧
      (crn = s.cfg.dacrRegnum → x = s.dac) ∧
      (crn = 5 → field x 0 8 = field s.fsr 0 8 ∧ x.getLsbD 8 = false) ∧ (crn = 6 → x = s.far)

/-- `MCR_MRC_p15` whose condition the processor's flags do not meet: nothing changes but that the
operation is over (R86, log entry 19). -/
def Obligations.TransferWithFailedConditionDoesNothing : Prop :=
  ∀ (cond : BitVec 4) (opc1 : BitVec 3) (load : Bool) (crn rd : BitVec 4) (opc2 : BitVec 3)
    (crm : BitVec 4) (s : State) (w v codeVa : Word) (priv : Priv),
    s.phase = .coproc w v codeVa false priv → cond ≠ 0b1110 →
    exec (.mcrMrc cond opc1 load crn rd opc2 crm) s =
      .next { s with outputs := .done :: s.outputs, phase := .idle }

/-- `CacheFlush`: the cache holds nothing, so that no access hits it; main memory and what is on its way there
stay, and so do the registers and the TLBs (R149, R54). An empty cache stays so until an access with `C = 1`
proceeds in a system with a cache, and one that may hold something keeps so until a `CacheFlush` in privileged
state (R38, R54). What the flush drops, that the cache is one field, and that a walk fills none, also where it reads
through one, is the model's choice (log entry 13). -/
def Obligations.CacheFlushEmptiesTheCache : Prop :=
  (∀ (s : State) (rest : List Request), s.phase = .idle →
      s.inputs = .control .cacheFlush .privileged :: rest →
      ∃ t, step s = .next t ∧ t.inputs = rest ∧ t.outputs = .done :: s.outputs ∧ t.phase = .idle ∧
        t.cacheHolds = false ∧ (∀ x : Word, t.memByte x = s.memByte x) ∧ t.pending = s.pending ∧
        SameRegisters s t ∧ SameFaultState s t ∧ SameTlbs s t) ∧
    (∀ (s : State) (c : Bool), s.cacheHolds = false → s.cacheHit c = false) ∧
    (∀ s t : State, s.cacheHolds = false → step s = .next t →
      t.cacheHolds = false ∨
        s.cfg.hasCache = true ∧ ∃ pa b data, t.outputs = .ok pa true b data :: s.outputs) ∧
    (∀ s t : State, s.cacheHolds = true → step s = .next t →
      t.cacheHolds = true ∨
        ∃ rest, s.phase = .idle ∧ s.inputs = .control .cacheFlush .privileged :: rest) ∧
    ∀ (s t : State) (pa : Word) (b : Bool) (data : List Byte), s.cfg.hasCache = true → step s = .next t →
      t.outputs = .ok pa true b data :: s.outputs → t.cacheHolds = true

/-! ## Memory -/

/-- A data write is seen by the processor at once, wherever its bytes are, and leaves every other byte that
the processor sees alone (R49, D4, log entry 12); the cache's own contents are open (log entry 13). -/
def Obligations.WriteIsSeenInProgramOrder : Prop :=
  ∀ (s : State) (pa : Word) (c b : Bool) (data : List Byte), s.Inv → data.length ≤ 2 ^ 32 →
    s.cacheHit c = false →
    (∀ i (h : i < data.length), (s.storeData pa c b data).coherentByte (pa + BitVec.ofNat 32 i) = data[i]) ∧
    ∀ x : Word, (∀ i < data.length, x ≠ pa + BitVec.ofNat 32 i) →
      (s.storeData pa c b data).coherentByte x = s.coherentByte x

/-- Once the processor has made sure that its writes have arrived, main memory holds what the processor
sees, and nothing is left that a walk could miss; the operation is over and nothing else has changed (R199, D7,
log entry 12). -/
def Obligations.DrainPutsEveryWriteInMainMemory : Prop :=
  ∀ (s : State) (rest : List Request), s.Inv → s.phase = .idle → s.inputs = .drain :: rest →
    ∃ t, step s = .next t ∧ t.drained ∧ t.inputs = rest ∧ t.outputs = .done :: s.outputs ∧ t.phase = .idle ∧
      (∀ x : Word, t.memByte x = s.coherentByte x) ∧ t.cacheHolds = s.cacheHolds ∧
      SameRegisters s t ∧ SameFaultState s t ∧ SameTlbs s t

/-! ## Aborts, seen from every step -/

/-- `LastFault` is written by an abort, with its kind and address, and by nothing else (R168; D18, log
entry 10). -/
def Obligations.LastFaultIsWrittenByAbortsOnly : Prop :=
  ∀ s t : State, step s = .next t →
    (t.lastFault = s.lastFault ∧ ∀ k va, t.outputs ≠ .abort k va :: s.outputs) ∨
      ∃ k va d, t.outputs = .abort k va :: s.outputs ∧ t.lastFault = some ⟨k, va, d⟩

/-- On any abort no byte of main memory and no write on its way changes, the cache is not filled, no register
but the fault registers changes, and no translation comes into a TLB (R170). Without `TLB_CACHES_FAULTS` the
TLBs are unchanged (R34, D6, log entry 28). -/
def Obligations.AbortedAccessDoesNotHappen : Prop :=
  ∀ (s t : State) (k : AbortKind) (va : Word), step s = .next t → t.outputs = .abort k va :: s.outputs →
    SameMemory s t ∧ SameRegisters s t ∧
      (t.inputs = s.inputs ∨ s.phase = .idle ∧ ∃ a, s.inputs = .access a :: t.inputs) ∧
      (∀ side e, .entry e ∈ t.tlbOf side → .entry e ∈ s.tlbOf side) ∧
      (∀ side e, .entry e ∈ s.tlbOf side → e.locked = true → .entry e ∈ t.tlbOf side) ∧
      (s.cfg.tlbCachesFaults = false → SameTlbs s t)

/-- After any abort of a data access, or of a fetch where the chip records those, the fault address register
holds its address and the fault status register the status of its kind, the domain where it is valid, and bit 8
zero; any other abort leaves both registers alone (R169, general knowledge; that an abort of a `TLBLock` is not
recorded there is the model's choice; log entry 18). -/
def Obligations.DataAbortUpdatesTheFaultRegisters : Prop :=
  ∀ (s t : State) (k : AbortKind) (va : Word), step s = .next t → t.outputs = .abort k va :: s.outputs →
    ∃ p, s.purpose = some p ∧ p.va = va ∧
      ((∃ a, p = .access a ∧ (a.kind ≠ .fetch ∨ s.cfg.fetchAbortRecorded = true)) →
        t.far = va ∧ t.fsr.getLsbD 8 = false ∧
        (∀ d, t.lastFault = some ⟨k, va, some d⟩ → field t.fsr 4 4 = d) ∧
        field t.fsr 0 4 =
          match k with
          | .translation .sect => 0b0101
          | .translation .page => 0b0111
          | .domain .sect => 0b1001
          | .domain .page => 0b1011
          | .permission .sect => 0b1101
          | .permission .page => 0b1111) ∧
      ((∀ a, p = .access a → a.kind = .fetch ∧ s.cfg.fetchAbortRecorded = false) →
        t.fsr = s.fsr ∧ t.far = s.far)

/-! ## What every step keeps -/

/-- The invariant of the machine is kept by every step. -/
def Obligations.StepKeepsTheInvariant : Prop :=
  ∀ s t : State, s.Inv → step s = .next t → t.Inv

/-- The invariant holds at reset. The values of the reset state beside M are the model's choice (R29; log
entries 6, 7, 8, 16 and 32). -/
def Obligations.ResetMeetsTheInvariant : Prop :=
  State.reset.Inv

/-- After reset the MMU is disabled; while it is disabled every access is flat and none aborts (R28, R42), and
it stays disabled until privileged software writes M by a write of CP15 register 1, asked for as such or by a
transfer (D23, log entries 19 and 21). Nothing is said of any other value at reset. -/
def Obligations.ResetDisablesTheMmu : Prop :=
  State.reset.afterReset ∧
    (∀ (s : State) (a : Access) (rest : List Request), s.afterReset → s.phase = .idle →
      s.inputs = .access a :: rest → a.transfer.size ≤ 2 ^ 32 - a.va.toNat →
      ∃ t data c b, step s = .next t ∧ t.outputs = .ok a.va c b data :: s.outputs) ∧
    ∀ s t : State, s.afterReset → step s = .next t →
      t.afterReset ∨ (∃ v codeVa, s.phase = .ctrlWrite v codeVa .privileged ∧ v.getLsbD 0 = true) ∨
        ∃ w v codeVa cp cond rd, s.phase = .coproc w v codeVa cp .privileged ∧
          decodeWord .coproc w = .ok (.mcrMrc cond 0 false 1 rd 0 0) ∧ v.getLsbD 0 = true

/-- The control registers change only by an operation of privileged state that writes them, and then to
the value it writes; the parameters never change (R148, D23). The operation is the abstract one or the transfer
to that register (log entry 19). -/
def Obligations.OnlyPrivilegedWritesChangeTheRegisters : Prop :=
  ∀ s t : State, step s = .next t →
    t.cfg = s.cfg ∧
    (t.ctrl ≠ s.ctrl →
      (∃ v codeVa, s.phase = .ctrlWrite v codeVa .privileged ∧ t.ctrl = v) ∨
        ∃ w v codeVa cp cond rd, s.phase = .coproc w v codeVa cp .privileged ∧
          decodeWord .coproc w = .ok (.mcrMrc cond 0 false 1 rd 0 0) ∧ t.ctrl = v) ∧
    (t.ttb ≠ s.ttb →
      (∃ v, s.phase = .ttbWrite v .privileged ∧ t.ttb = v) ∨
        ∃ w v codeVa cp cond rd, s.phase = .coproc w v codeVa cp .privileged ∧
          decodeWord .coproc w = .ok (.mcrMrc cond 0 false 2 rd 0 0) ∧ t.ttb = v) ∧
    (t.dac ≠ s.dac →
      (∃ v rest, s.phase = .idle ∧ s.inputs = .control (.writeDac v) .privileged :: rest ∧ t.dac = v) ∨
        ∃ w v codeVa cp cond rd, s.phase = .coproc w v codeVa cp .privileged ∧
          decodeWord .coproc w = .ok (.mcrMrc cond 0 false s.cfg.dacrRegnum rd 0 0) ∧ t.dac = v)

/-- A locked entry leaves a TLB only by `TLBUnlock` in privileged state, of it and in that TLB: in a split
organisation an unlock in the other TLB is no way out (R21, R146, R147, D22). -/
def Obligations.LockedEntryStaysUntilUnlocked : Prop :=
  ∀ (s t : State) (side : TlbSide) (e : TlbEntry), step s = .next t → .entry e ∈ s.tlbOf side →
    e.locked = true →
    .entry e ∈ t.tlbOf side ∨
      ∃ other rest, s.phase = .idle ∧ s.inputs = .control (.tlbUnlock other e) .privileged :: rest ∧
        (s.cfg.tlbOrg = .split → other = side)

/-- An unlocked entry enters a TLB only where the walk of an access that it covers has its last descriptor at
hand, or by `TLBUnlock`, a locked one only where the walk of a `TLBLock` has, and a translation fault only under
`TLB_CACHES_FAULTS`, where the walk for an address of its region has. In a split organisation only the TLB of
that access, of that lock or of that unlock is entered (R18, R34, R102, R147, D6, D22; log entries 27 and 28).
-/
def Obligations.EntriesEnterByWalkOrUnlock : Prop :=
  ∀ (s t : State) (side : TlbSide), step s = .next t →
    (∀ e, .entry e ∈ t.tlbOf side → .entry e ∉ s.tlbOf side → e.locked = false →
      (∃ a, s.purpose = some (.access a) ∧ s.hasDescriptor ∧ t.phase = .check e a ∧
          e.mapping.covers a.va = true ∧ (s.cfg.tlbOrg = .split → side = a.kind.side)) ∨
        ∃ other rest, s.phase = .idle ∧
          s.inputs = .control (.tlbUnlock other { e with locked := true }) .privileged :: rest ∧
          (s.cfg.tlbOrg = .split → other = side)) ∧
    (∀ e, .entry e ∈ t.tlbOf side → .entry e ∉ s.tlbOf side → e.locked = true →
      ∃ other va, s.purpose = some (.lock other va) ∧ s.hasDescriptor ∧ t.phase = .idle ∧
        e.mapping.covers va = true ∧ (s.cfg.tlbOrg = .split → side = other)) ∧
    ∀ f, .fault f ∈ t.tlbOf side → .fault f ∉ s.tlbOf side →
      s.cfg.tlbCachesFaults = true ∧ ∃ p, s.purpose = some p ∧ s.hasDescriptor ∧ f.covers p.va = true ∧
        (s.cfg.tlbOrg = .split → side = p.side)
end

