-- ==== Sys2Proof/Laws/Decode.lean ====
section
/-! SUPPORT. How a field is read from joined fields (R6, R7), and the word and its bytes. -/

namespace Sys2Proof

/-- A field inside the lower of two joined parts is a field of that part. -/
theorem field_append_low {n m : Nat} (x : BitVec n) (y : BitVec m) (lo len : Nat) (h : lo + len ≤ m) :
    (x ++ y).extractLsb' lo len = y.extractLsb' lo len := by
  apply BitVec.eq_of_getLsbD_eq
  intro i hi
  rw [BitVec.getLsbD_extractLsb', BitVec.getLsbD_extractLsb', BitVec.getLsbD_append, if_pos (by omega)]

/-- A field inside the upper of two joined parts is a field of that part. -/
theorem field_append_high {n m : Nat} (x : BitVec n) (y : BitVec m) (lo len : Nat) (h : m ≤ lo) :
    (x ++ y).extractLsb' lo len = x.extractLsb' (lo - m) len := by
  apply BitVec.eq_of_getLsbD_eq
  intro i hi
  rw [BitVec.getLsbD_extractLsb', BitVec.getLsbD_extractLsb', BitVec.getLsbD_append, if_neg (by omega)]
  congr 2
  omega

/-- The field that is a whole part is that part. -/
theorem field_whole {n : Nat} (x : BitVec n) : x.extractLsb' 0 n = x := by
  apply BitVec.eq_of_getLsbD_eq
  intro i hi
  simp [hi]

/-- A bit of the lower of two joined parts. -/
theorem bit_append_low {n m : Nat} (x : BitVec n) (y : BitVec m) (i : Nat) (h : i < m) :
    (x ++ y).getLsbD i = y.getLsbD i := by
  rw [BitVec.getLsbD_append, if_pos h]

/-- A bit of the upper of two joined parts. -/
theorem bit_append_high {n m : Nat} (x : BitVec n) (y : BitVec m) (i : Nat) (h : m ≤ i) :
    (x ++ y).getLsbD i = x.getLsbD (i - m) := by
  rw [BitVec.getLsbD_append, if_neg (by omega)]

/-- Two neighbouring fields of a word, joined, are one field of it. -/
theorem field_join (w : Word) (lo mid a b : Nat) (h : mid = lo + b) :
    field w mid a ++ field w lo b = field w lo (a + b) := by
  subst h
  apply BitVec.eq_of_getLsbD_eq
  intro i hi
  rw [BitVec.getLsbD_append, BitVec.getLsbD_extractLsb', BitVec.getLsbD_extractLsb',
    BitVec.getLsbD_extractLsb']
  by_cases hb : i < b
  · simp [hb, hi]
  · rw [if_neg hb]
    have h1 : i - b < a := by omega
    have h2 : lo + b + (i - b) = lo + i := by omega
    simp [h1, hi, h2]

/-- One bit of a word, as a field. -/
theorem ofBool_bit (w : Word) (i : Nat) : BitVec.ofBool (w.getLsbD i) = field w i 1 := by
  apply BitVec.eq_of_getLsbD_eq
  intro j hj
  have h0 : j = 0 := by omega
  subst h0
  rw [BitVec.getLsbD_extractLsb', BitVec.getLsbD_ofBool]
  simp

/-- A word is made again from its bytes, in either byte order (R45). -/
theorem wordOfBytes_bytesOfWord (o : ByteOrder) (w : Word) :
    ∃ b0 b1 b2 b3, bytesOfWord o w = [b0, b1, b2, b3] ∧ wordOfBytes o b0 b1 b2 b3 = w := by
  cases o
  all_goals
    refine ⟨_, _, _, _, rfl, ?_⟩
    apply BitVec.eq_of_getLsbD_eq
    intro i hi
    unfold wordOfBytes
    dsimp only
    by_cases h0 : i < 8
    · rw [bit_append_low _ _ _ (by omega)]
      simp [h0]
    · rw [bit_append_high _ _ _ (by omega)]
      by_cases h1 : i < 16
      · rw [bit_append_low _ _ _ (by omega)]
        simp [show i - 8 < 8 by omega, show 8 + (i - 8) = i by omega]
      · rw [bit_append_high _ _ _ (by omega)]
        by_cases h2 : i < 24
        · rw [bit_append_low _ _ _ (by omega)]
          simp [show i - 8 - 8 < 8 by omega, show 16 + (i - 8 - 8) = i by omega]
        · rw [bit_append_high _ _ _ (by omega)]
          simp [show i - 8 - 8 - 8 < 8 by omega, show 24 + (i - 8 - 8 - 8) = i by omega]

end Sys2Proof
end

