-- ==== Sys2Proof/Laws/Memory.lean ====
section
/-! SUPPORT. The laws of main memory: a read after a write, and that every memory operation keeps the
canonical form. -/

namespace Sys2Proof.Machine

theorem Memory.wf_nil : Memory.wf [] := by
  simp [Memory.wf]

/-- What is left of a canonical memory after its first entry is canonical. -/
theorem Memory.wf_tail {x : Host.Cell} {m : Memory} (h : Memory.wf (x :: m)) : Memory.wf m := by
  obtain ⟨hp, hv⟩ := h
  exact ⟨(List.pairwise_cons.mp hp).2, fun y hy => hv y (List.mem_cons_of_mem _ hy)⟩

/-- In a canonical memory every later entry lies above the first. -/
theorem Memory.wf_head_lt {x : Host.Cell} {m : Memory} (h : Memory.wf (x :: m)) :
    ∀ y ∈ m, x.1 < y.1 := fun _ hy =>
  (List.pairwise_cons.mp h.1).1 _ (List.mem_map_of_mem hy)

/-- An entry in front of a canonical memory keeps it canonical when it lies below every entry. -/
theorem Memory.wf_cons {x : Host.Cell} {m : Memory} (h : Memory.wf m) (hlt : ∀ y ∈ m, x.1 < y.1)
    (hx : x.1 < 2 ^ 32 ∧ x.2 ≠ unlistedByte) : Memory.wf (x :: m) := by
  refine ⟨List.pairwise_cons.mpr ⟨?_, h.1⟩, ?_⟩
  · intro k hk
    obtain ⟨y, hy, rfl⟩ := List.mem_map.mp hk
    exact hlt y hy
  · intro y hy
    rcases List.mem_cons.mp hy with rfl | hy
    · exact hx
    · exact h.2 y hy

/-- An address below every entry of a memory reads as an unlisted one. -/
theorem Memory.read_of_lt {m : Memory} {a : Nat} (h : ∀ y ∈ m, a < y.1) : m.read a = unlistedByte := by
  induction m with
  | nil => rfl
  | cons y m ih =>
    have hy : a ≠ y.1 := Nat.ne_of_lt (h y List.mem_cons_self)
    simp [Memory.read, hy, ih fun z hz => h z (List.mem_cons_of_mem _ hz)]

/-- A written entry is the written one or an old one. -/
theorem Memory.mem_write {m : Memory} {a : Nat} {b : Byte} {y : Host.Cell} (h : y ∈ m.write a b) :
    y ∈ m ∨ (y = (a, b) ∧ b ≠ unlistedByte) := by
  induction m with
  | nil =>
    unfold Memory.write at h
    split at h <;> simp_all
  | cons x m ih =>
    unfold Memory.write at h
    repeat' split at h
    all_goals simp_all
    all_goals tauto

/-- A read after a write of the same or another address. -/
theorem Memory.read_write {m : Memory} (hm : m.wf) (a : Nat) (b : Byte) (x : Nat) :
    (m.write a b).read x = if x = a then b else m.read x := by
  induction m with
  | nil =>
    unfold Memory.write
    by_cases hb : b = unlistedByte <;> by_cases hx : x = a <;> simp [hb, hx, Memory.read]
  | cons y m ih =>
    have hgt : a < y.1 → ∀ z ∈ y :: m, a < z.1 := fun h z hz => by
      rcases List.mem_cons.mp hz with rfl | hz
      · exact h
      · exact h.trans (Memory.wf_head_lt hm z hz)
    unfold Memory.write
    by_cases h1 : a < y.1
    · by_cases hb : b = unlistedByte
      · by_cases hx : x = a
        · simpa [h1, hb, hx] using Memory.read_of_lt (hgt h1)
        · simp [h1, hb, hx]
      · simp [h1, hb, Memory.read]
    · by_cases h2 : a = y.1
      · subst h2
        by_cases hb : b = unlistedByte
        · by_cases hx : x = y.1
          · simpa [hb, hx] using Memory.read_of_lt (Memory.wf_head_lt hm)
          · simp [hb, hx, Memory.read]
        · by_cases hx : x = y.1 <;> simp [hb, hx, Memory.read]
      · by_cases hx : x = y.1
        · have : x ≠ a := fun h => h2 (h ▸ hx)
          simp [h1, h2, Memory.read, hx, Ne.symm h2]
        · simp [h1, h2, Memory.read, hx, ih (Memory.wf_tail hm)]

/-- A write keeps the canonical form. -/
theorem Memory.write_wf {m : Memory} (hm : m.wf) {a : Nat} (ha : a < 2 ^ 32) (b : Byte) :
    (m.write a b).wf := by
  induction m with
  | nil =>
    unfold Memory.write
    by_cases hb : b = unlistedByte
    · simp [hb, Memory.wf]
    · simpa [hb, Memory.wf] using ha
  | cons y m ih =>
    have hgt : a < y.1 → ∀ z ∈ y :: m, a < z.1 := fun h z hz => by
      rcases List.mem_cons.mp hz with rfl | hz
      · exact h
      · exact h.trans (Memory.wf_head_lt hm z hz)
    unfold Memory.write
    by_cases h1 : a < y.1
    · by_cases hb : b = unlistedByte
      · simpa [h1, hb] using hm
      · simpa [h1, hb] using Memory.wf_cons hm (hgt h1) ⟨ha, hb⟩
    · by_cases h2 : a = y.1
      · subst h2
        by_cases hb : b = unlistedByte
        · simpa [hb] using Memory.wf_tail hm
        · simpa [hb] using
            Memory.wf_cons (x := (y.1, b)) (Memory.wf_tail hm) (fun z hz => Memory.wf_head_lt hm z hz) ⟨ha, hb⟩
      · simp only [h1, h2, if_false]
        refine Memory.wf_cons (ih (Memory.wf_tail hm)) ?_ (hm.2 y List.mem_cons_self)
        intro z hz
        rcases Memory.mem_write hz with hz | ⟨rfl, -⟩
        · exact Memory.wf_head_lt hm z hz
        · have : ¬ a < y.1 := h1
          show y.1 < a
          omega

/-- Writing bytes keeps the canonical form. -/
theorem Memory.writeBytes_wf {m : Memory} (hm : m.wf) (a : Word) (bs : List Byte) :
    (m.writeBytes a bs).wf := by
  induction bs generalizing m a with
  | nil => exact hm
  | cons b bs ih => exact ih (Memory.write_wf hm a.isLt b) (a + 1)

/-- Writes of a list keep the canonical form. -/
theorem Memory.writeAll_wf {m : Memory} (hm : m.wf) (ps : List PendingWrite) : (m.writeAll ps).wf := by
  induction ps generalizing m with
  | nil => exact hm
  | cons p ps ih => exact ih (Memory.writeBytes_wf hm p.pa p.data)

/-- Letting held writes reach main memory keeps the canonical form. -/
theorem drainGo_wf {m : Memory} (hm : m.wf) (n i : Nat) (held ps : List PendingWrite) :
    (drainGo n i held ps m).2.wf := by
  induction ps generalizing m i held with
  | nil => exact hm
  | cons p ps ih =>
    unfold drainGo
    split
    · exact ih (Memory.writeBytes_wf hm p.pa p.data) _ _
    · exact ih hm _ _

/-- With nothing held back, nothing reaches main memory. -/
@[simp] theorem drainGo_nil (n i : Nat) (m : Memory) : drainGo n i [] [] m = ([], m) := rfl

/-- Writing bytes leaves every byte outside them alone. -/
theorem Memory.read_writeBytes_of_not {m : Memory} (hm : m.wf) (a x : Word) (bs : List Byte)
    (h : ∀ i < bs.length, x ≠ a + BitVec.ofNat 32 i) :
    (m.writeBytes a bs).read x.toNat = m.read x.toNat := by
  induction bs generalizing m a with
  | nil => rfl
  | cons b bs ih =>
    have h0 : x ≠ a := by simpa using h 0 (by simp)
    have hne : x.toNat ≠ a.toNat := fun hx => h0 (BitVec.eq_of_toNat_eq hx)
    unfold Memory.writeBytes
    rw [ih (Memory.write_wf hm a.isLt b), Memory.read_write hm, if_neg hne]
    intro i hi
    have := h (i + 1) (by simpa using hi)
    rwa [BitVec.ofNat_add, BitVec.add_comm (BitVec.ofNat 32 i), ← BitVec.add_assoc] at this

/-- A byte that was written reads as written. -/
theorem Memory.read_write_same {m : Memory} (hm : m.wf) (a : Nat) (b : Byte) :
    (m.write a b).read a = b := by
  simp [Memory.read_write hm]

/-- What main memory reads as after a write of bytes at rising addresses: the byte written there, or what
was there before. -/
theorem Memory.read_writeBytes {m : Memory} (hm : m.wf) (a x : Word) (bs : List Byte)
    (h : bs.length ≤ 2 ^ 32) :
    (m.writeBytes a bs).read x.toNat = (bs[(x - a).toNat]?).getD (m.read x.toNat) := by
  induction bs generalizing m a with
  | nil => rfl
  | cons b bs ih =>
    have hlen : bs.length < 2 ^ 32 := by simp at h; omega
    rw [Memory.writeBytes, ih (Memory.write_wf hm a.isLt b) _ (by omega), Memory.read_write hm]
    by_cases hx : x = a
    · subst hx
      have hi : (x - (x + 1)).toNat = 2 ^ 32 - 1 := by
        have h3 : x - (x + 1) = 0xFFFFFFFF#32 := by bv_omega
        rw [h3]
        rfl
      rw [hi, List.getElem?_eq_none (by omega)]
      simp
    · have h1 : (x - a).toNat = (x - (a + 1)).toNat + 1 := by bv_omega
      have h2 : x.toNat ≠ a.toNat := fun h => hx (BitVec.eq_of_toNat_eq h)
      rw [h1, List.getElem?_cons_succ, if_neg h2]

/-- The newest held write of two lists is the newest of the later list, if it has one. -/
theorem pendingByte_append (ps qs : List PendingWrite) (a : Word) :
    pendingByte (ps ++ qs) a = (pendingByte qs a).or (pendingByte ps a) := by
  induction ps with
  | nil => simp [pendingByte]
  | cons p ps ih => simp [pendingByte, ih, Option.or_assoc]

/-- No held write has a byte for an address that none of them touches. -/
theorem pendingByte_eq_none {ps : List PendingWrite} {x : Word} (h : ∀ q ∈ ps, q.byteAt x = none) :
    pendingByte ps x = none := by
  induction ps with
  | nil => rfl
  | cons p ps ih => simp [pendingByte, ih fun q hq => h q (by simp [hq]), h p (by simp)]

/-- Main memory after every held write of a list has reached it: the newest of them, or what was there. -/
theorem Memory.read_writeAll {m : Memory} (hm : m.wf) (x : Word) (ps : List PendingWrite)
    (h : ∀ p ∈ ps, p.data.length ≤ 2 ^ 32) :
    (m.writeAll ps).read x.toNat = (pendingByte ps x).getD (m.read x.toNat) := by
  induction ps generalizing m with
  | nil => rfl
  | cons p ps ih =>
    rw [Memory.writeAll, ih (Memory.writeBytes_wf hm _ _) (fun q hq => h q (by simp [hq])),
      Memory.read_writeBytes hm _ _ _ (h p (by simp))]
    simp only [pendingByte, PendingWrite.byteAt]
    cases pendingByte ps x <;> simp

/-- An address is the start of a write plus its offset in it. -/
theorem Word.eq_add_offset (pa x : Word) : pa + BitVec.ofNat 32 (x - pa).toNat = x := by
  rw [BitVec.ofNat_toNat, BitVec.setWidth_eq, BitVec.add_comm, BitVec.sub_add_cancel]

/-- Of two held writes that do not overlap, one has no byte where the other has one. -/
theorem PendingWrite.byteAt_of_not_overlaps {p q : PendingWrite} (h : p.overlaps q = false) {x : Word}
    (hx : p.byteAt x ≠ none) : q.byteAt x = none := by
  simp only [PendingWrite.overlaps, List.any_eq_false] at h
  have hlt : (x - p.pa).toNat < p.data.length := by
    by_contra hc
    exact hx (List.getElem?_eq_none (by omega))
  have hq := h _ (List.mem_range.mpr hlt)
  rw [Word.eq_add_offset] at hq
  simpa using hq

/-- A byte that the newest held write has is a byte of one of them. -/
theorem byteAt_of_pendingByte {ps : List PendingWrite} {x : Word} {b : Byte} (h : pendingByte ps x = some b) :
    ∃ p ∈ ps, p.byteAt x = some b := by
  induction ps with
  | nil => cases h
  | cons p ps ih =>
    simp only [pendingByte] at h
    cases hq : pendingByte ps x with
    | none =>
      rw [hq] at h
      exact ⟨p, List.mem_cons_self, h⟩
    | some c =>
      rw [hq] at h
      cases h
      obtain ⟨q, hmem, hb⟩ := ih hq
      exact ⟨q, List.mem_cons_of_mem _ hmem, hb⟩

/-- The index of the `i`th byte of a write. -/
theorem Word.offset_toNat {pa : Word} {i n : Nat} (h : i < n) (hn : n ≤ 2 ^ 32) :
    (pa + BitVec.ofNat 32 i - pa).toNat = i := by
  rw [BitVec.add_comm, BitVec.add_sub_cancel, BitVec.toNat_ofNat]
  omega

/-- What is still held after some held writes arrived is a part of what was held, in its order. -/
theorem drainGo_sublist (n i : Nat) (held ps : List PendingWrite) (m : Memory) :
    (drainGo n i held ps m).1.Sublist (held ++ ps) := by
  induction ps generalizing m i held with
  | nil => simp [drainGo]
  | cons p ps ih =>
    unfold drainGo
    split
    · exact (ih ..).trans (by simp)
    · simpa using ih (i + 1) (held ++ [p]) m

/-- Writes that arrive change only bytes that one of them has. -/
theorem drainGo_outside {m : Memory} (hm : m.wf) (n i : Nat) (held ps : List PendingWrite) (x : Word)
    (h : ∀ p ∈ ps, p.data.length ≤ 2 ^ 32) (hx : pendingByte ps x = none) :
    (drainGo n i held ps m).2.read x.toNat = m.read x.toNat := by
  induction ps generalizing m i held with
  | nil => rfl
  | cons p ps ih =>
    have hx' : pendingByte ps x = none ∧ p.byteAt x = none := by simpa [pendingByte] using hx
    have hps : ∀ q ∈ ps, q.data.length ≤ 2 ^ 32 := fun q hq => h q (List.mem_cons_of_mem _ hq)
    unfold drainGo
    split
    · rw [ih (Memory.writeBytes_wf hm _ _) _ _ hps hx'.1,
        Memory.read_writeBytes hm _ _ _ (h p List.mem_cons_self),
        show p.data[(x - p.pa).toNat]? = none from hx'.2]
      rfl
    · exact ih hm _ _ hps hx'.1

/-- Writes that arrive do not change what the processor sees (R49). -/
theorem drainGo_view {m : Memory} (hm : m.wf) (n i : Nat) (held ps : List PendingWrite) (x : Word)
    (h : ∀ p ∈ ps, p.data.length ≤ 2 ^ 32) :
    (pendingByte (drainGo n i held ps m).1 x).getD ((drainGo n i held ps m).2.read x.toNat) =
      (pendingByte (held ++ ps) x).getD (m.read x.toNat) := by
  induction ps generalizing m i held with
  | nil => simp [drainGo]
  | cons p ps ih =>
    have hps : ∀ q ∈ ps, q.data.length ≤ 2 ^ 32 := fun q hq => h q (List.mem_cons_of_mem _ hq)
    unfold drainGo
    split
    · rename_i hc
      rw [ih (Memory.writeBytes_wf hm _ _) _ _ hps,
        Memory.read_writeBytes hm _ _ _ (h p List.mem_cons_self),
        show p.data[(x - p.pa).toNat]? = p.byteAt x from rfl, pendingByte_append, pendingByte_append, pendingByte]
      have hover : ∀ q ∈ held, p.overlaps q = false := by simpa using (Bool.and_eq_true_iff.mp hc).2
      cases pendingByte ps x with
      | some b => simp
      | none =>
        by_cases hp : p.byteAt x = none
        · simp [hp]
        · have hheld : pendingByte held x = none :=
            pendingByte_eq_none fun q hq => PendingWrite.byteAt_of_not_overlaps (hover q hq) hp
          simp [hheld]
    · rw [ih hm _ _ hps, List.append_assoc]
      rfl

end Sys2Proof.Machine
end

