-- ==== Sys2Proof/Laws/State.lean ====
section
/-! SUPPORT. The state's update lemmas: one per field per update, true by rfl, so that no proof unfolds a
record update; and the same for the TLB that `SelectTLB` selects. -/

namespace Sys2Proof.Machine

/-! ## `State.withPhase` -/

@[simp] theorem State.withPhase_cfg (p : Phase) (s : State) :
    (s.withPhase p).cfg = s.cfg := rfl
@[simp] theorem State.withPhase_ctrl (p : Phase) (s : State) :
    (s.withPhase p).ctrl = s.ctrl := rfl
@[simp] theorem State.withPhase_ttb (p : Phase) (s : State) :
    (s.withPhase p).ttb = s.ttb := rfl
@[simp] theorem State.withPhase_dac (p : Phase) (s : State) :
    (s.withPhase p).dac = s.dac := rfl
@[simp] theorem State.withPhase_lastFault (p : Phase) (s : State) :
    (s.withPhase p).lastFault = s.lastFault := rfl
@[simp] theorem State.withPhase_fsr (p : Phase) (s : State) :
    (s.withPhase p).fsr = s.fsr := rfl
@[simp] theorem State.withPhase_far (p : Phase) (s : State) :
    (s.withPhase p).far = s.far := rfl
@[simp] theorem State.withPhase_tlb (p : Phase) (s : State) :
    (s.withPhase p).tlb = s.tlb := rfl
@[simp] theorem State.withPhase_itlb (p : Phase) (s : State) :
    (s.withPhase p).itlb = s.itlb := rfl
@[simp] theorem State.withPhase_dtlb (p : Phase) (s : State) :
    (s.withPhase p).dtlb = s.dtlb := rfl
@[simp] theorem State.withPhase_cacheHolds (p : Phase) (s : State) :
    (s.withPhase p).cacheHolds = s.cacheHolds := rfl
@[simp] theorem State.withPhase_pending (p : Phase) (s : State) :
    (s.withPhase p).pending = s.pending := rfl
@[simp] theorem State.withPhase_mem (p : Phase) (s : State) :
    (s.withPhase p).mem = s.mem := rfl
@[simp] theorem State.withPhase_inputs (p : Phase) (s : State) :
    (s.withPhase p).inputs = s.inputs := rfl
@[simp] theorem State.withPhase_phase (p : Phase) (s : State) :
    (s.withPhase p).phase = p := rfl
@[simp] theorem State.withPhase_outputs (p : Phase) (s : State) :
    (s.withPhase p).outputs = s.outputs := rfl
@[simp] theorem State.withPhase_walkReads (p : Phase) (s : State) :
    (s.withPhase p).walkReads = s.walkReads := rfl
@[simp] theorem State.withPhase_draws (p : Phase) (s : State) :
    (s.withPhase p).draws = s.draws := rfl

/-! ## `State.withCtrl` -/

@[simp] theorem State.withCtrl_cfg (v : Word) (s : State) :
    (s.withCtrl v).cfg = s.cfg := rfl
@[simp] theorem State.withCtrl_ctrl (v : Word) (s : State) :
    (s.withCtrl v).ctrl = v := rfl
@[simp] theorem State.withCtrl_ttb (v : Word) (s : State) :
    (s.withCtrl v).ttb = s.ttb := rfl
@[simp] theorem State.withCtrl_dac (v : Word) (s : State) :
    (s.withCtrl v).dac = s.dac := rfl
@[simp] theorem State.withCtrl_lastFault (v : Word) (s : State) :
    (s.withCtrl v).lastFault = s.lastFault := rfl
@[simp] theorem State.withCtrl_fsr (v : Word) (s : State) :
    (s.withCtrl v).fsr = s.fsr := rfl
@[simp] theorem State.withCtrl_far (v : Word) (s : State) :
    (s.withCtrl v).far = s.far := rfl
@[simp] theorem State.withCtrl_tlb (v : Word) (s : State) :
    (s.withCtrl v).tlb = s.tlb := rfl
@[simp] theorem State.withCtrl_itlb (v : Word) (s : State) :
    (s.withCtrl v).itlb = s.itlb := rfl
@[simp] theorem State.withCtrl_dtlb (v : Word) (s : State) :
    (s.withCtrl v).dtlb = s.dtlb := rfl
@[simp] theorem State.withCtrl_cacheHolds (v : Word) (s : State) :
    (s.withCtrl v).cacheHolds = s.cacheHolds := rfl
@[simp] theorem State.withCtrl_pending (v : Word) (s : State) :
    (s.withCtrl v).pending = s.pending := rfl
@[simp] theorem State.withCtrl_mem (v : Word) (s : State) :
    (s.withCtrl v).mem = s.mem := rfl
@[simp] theorem State.withCtrl_inputs (v : Word) (s : State) :
    (s.withCtrl v).inputs = s.inputs := rfl
@[simp] theorem State.withCtrl_phase (v : Word) (s : State) :
    (s.withCtrl v).phase = s.phase := rfl
@[simp] theorem State.withCtrl_outputs (v : Word) (s : State) :
    (s.withCtrl v).outputs = s.outputs := rfl
@[simp] theorem State.withCtrl_walkReads (v : Word) (s : State) :
    (s.withCtrl v).walkReads = s.walkReads := rfl
@[simp] theorem State.withCtrl_draws (v : Word) (s : State) :
    (s.withCtrl v).draws = s.draws := rfl

/-! ## `State.withTtb` -/

@[simp] theorem State.withTtb_cfg (v : Word) (s : State) :
    (s.withTtb v).cfg = s.cfg := rfl
@[simp] theorem State.withTtb_ctrl (v : Word) (s : State) :
    (s.withTtb v).ctrl = s.ctrl := rfl
@[simp] theorem State.withTtb_ttb (v : Word) (s : State) :
    (s.withTtb v).ttb = v := rfl
@[simp] theorem State.withTtb_dac (v : Word) (s : State) :
    (s.withTtb v).dac = s.dac := rfl
@[simp] theorem State.withTtb_lastFault (v : Word) (s : State) :
    (s.withTtb v).lastFault = s.lastFault := rfl
@[simp] theorem State.withTtb_fsr (v : Word) (s : State) :
    (s.withTtb v).fsr = s.fsr := rfl
@[simp] theorem State.withTtb_far (v : Word) (s : State) :
    (s.withTtb v).far = s.far := rfl
@[simp] theorem State.withTtb_tlb (v : Word) (s : State) :
    (s.withTtb v).tlb = s.tlb := rfl
@[simp] theorem State.withTtb_itlb (v : Word) (s : State) :
    (s.withTtb v).itlb = s.itlb := rfl
@[simp] theorem State.withTtb_dtlb (v : Word) (s : State) :
    (s.withTtb v).dtlb = s.dtlb := rfl
@[simp] theorem State.withTtb_cacheHolds (v : Word) (s : State) :
    (s.withTtb v).cacheHolds = s.cacheHolds := rfl
@[simp] theorem State.withTtb_pending (v : Word) (s : State) :
    (s.withTtb v).pending = s.pending := rfl
@[simp] theorem State.withTtb_mem (v : Word) (s : State) :
    (s.withTtb v).mem = s.mem := rfl
@[simp] theorem State.withTtb_inputs (v : Word) (s : State) :
    (s.withTtb v).inputs = s.inputs := rfl
@[simp] theorem State.withTtb_phase (v : Word) (s : State) :
    (s.withTtb v).phase = s.phase := rfl
@[simp] theorem State.withTtb_outputs (v : Word) (s : State) :
    (s.withTtb v).outputs = s.outputs := rfl
@[simp] theorem State.withTtb_walkReads (v : Word) (s : State) :
    (s.withTtb v).walkReads = s.walkReads := rfl
@[simp] theorem State.withTtb_draws (v : Word) (s : State) :
    (s.withTtb v).draws = s.draws := rfl

/-! ## `State.withDac` -/

@[simp] theorem State.withDac_cfg (v : Word) (s : State) :
    (s.withDac v).cfg = s.cfg := rfl
@[simp] theorem State.withDac_ctrl (v : Word) (s : State) :
    (s.withDac v).ctrl = s.ctrl := rfl
@[simp] theorem State.withDac_ttb (v : Word) (s : State) :
    (s.withDac v).ttb = s.ttb := rfl
@[simp] theorem State.withDac_dac (v : Word) (s : State) :
    (s.withDac v).dac = v := rfl
@[simp] theorem State.withDac_lastFault (v : Word) (s : State) :
    (s.withDac v).lastFault = s.lastFault := rfl
@[simp] theorem State.withDac_fsr (v : Word) (s : State) :
    (s.withDac v).fsr = s.fsr := rfl
@[simp] theorem State.withDac_far (v : Word) (s : State) :
    (s.withDac v).far = s.far := rfl
@[simp] theorem State.withDac_tlb (v : Word) (s : State) :
    (s.withDac v).tlb = s.tlb := rfl
@[simp] theorem State.withDac_itlb (v : Word) (s : State) :
    (s.withDac v).itlb = s.itlb := rfl
@[simp] theorem State.withDac_dtlb (v : Word) (s : State) :
    (s.withDac v).dtlb = s.dtlb := rfl
@[simp] theorem State.withDac_cacheHolds (v : Word) (s : State) :
    (s.withDac v).cacheHolds = s.cacheHolds := rfl
@[simp] theorem State.withDac_pending (v : Word) (s : State) :
    (s.withDac v).pending = s.pending := rfl
@[simp] theorem State.withDac_mem (v : Word) (s : State) :
    (s.withDac v).mem = s.mem := rfl
@[simp] theorem State.withDac_inputs (v : Word) (s : State) :
    (s.withDac v).inputs = s.inputs := rfl
@[simp] theorem State.withDac_phase (v : Word) (s : State) :
    (s.withDac v).phase = s.phase := rfl
@[simp] theorem State.withDac_outputs (v : Word) (s : State) :
    (s.withDac v).outputs = s.outputs := rfl
@[simp] theorem State.withDac_walkReads (v : Word) (s : State) :
    (s.withDac v).walkReads = s.walkReads := rfl
@[simp] theorem State.withDac_draws (v : Word) (s : State) :
    (s.withDac v).draws = s.draws := rfl

/-! ## `State.withFsr` -/

@[simp] theorem State.withFsr_cfg (v : Word) (s : State) :
    (s.withFsr v).cfg = s.cfg := rfl
@[simp] theorem State.withFsr_ctrl (v : Word) (s : State) :
    (s.withFsr v).ctrl = s.ctrl := rfl
@[simp] theorem State.withFsr_ttb (v : Word) (s : State) :
    (s.withFsr v).ttb = s.ttb := rfl
@[simp] theorem State.withFsr_dac (v : Word) (s : State) :
    (s.withFsr v).dac = s.dac := rfl
@[simp] theorem State.withFsr_lastFault (v : Word) (s : State) :
    (s.withFsr v).lastFault = s.lastFault := rfl
@[simp] theorem State.withFsr_fsr (v : Word) (s : State) :
    (s.withFsr v).fsr = v := rfl
@[simp] theorem State.withFsr_far (v : Word) (s : State) :
    (s.withFsr v).far = s.far := rfl
@[simp] theorem State.withFsr_tlb (v : Word) (s : State) :
    (s.withFsr v).tlb = s.tlb := rfl
@[simp] theorem State.withFsr_itlb (v : Word) (s : State) :
    (s.withFsr v).itlb = s.itlb := rfl
@[simp] theorem State.withFsr_dtlb (v : Word) (s : State) :
    (s.withFsr v).dtlb = s.dtlb := rfl
@[simp] theorem State.withFsr_cacheHolds (v : Word) (s : State) :
    (s.withFsr v).cacheHolds = s.cacheHolds := rfl
@[simp] theorem State.withFsr_pending (v : Word) (s : State) :
    (s.withFsr v).pending = s.pending := rfl
@[simp] theorem State.withFsr_mem (v : Word) (s : State) :
    (s.withFsr v).mem = s.mem := rfl
@[simp] theorem State.withFsr_inputs (v : Word) (s : State) :
    (s.withFsr v).inputs = s.inputs := rfl
@[simp] theorem State.withFsr_phase (v : Word) (s : State) :
    (s.withFsr v).phase = s.phase := rfl
@[simp] theorem State.withFsr_outputs (v : Word) (s : State) :
    (s.withFsr v).outputs = s.outputs := rfl
@[simp] theorem State.withFsr_walkReads (v : Word) (s : State) :
    (s.withFsr v).walkReads = s.walkReads := rfl
@[simp] theorem State.withFsr_draws (v : Word) (s : State) :
    (s.withFsr v).draws = s.draws := rfl

/-! ## `State.withFar` -/

@[simp] theorem State.withFar_cfg (v : Word) (s : State) :
    (s.withFar v).cfg = s.cfg := rfl
@[simp] theorem State.withFar_ctrl (v : Word) (s : State) :
    (s.withFar v).ctrl = s.ctrl := rfl
@[simp] theorem State.withFar_ttb (v : Word) (s : State) :
    (s.withFar v).ttb = s.ttb := rfl
@[simp] theorem State.withFar_dac (v : Word) (s : State) :
    (s.withFar v).dac = s.dac := rfl
@[simp] theorem State.withFar_lastFault (v : Word) (s : State) :
    (s.withFar v).lastFault = s.lastFault := rfl
@[simp] theorem State.withFar_fsr (v : Word) (s : State) :
    (s.withFar v).fsr = s.fsr := rfl
@[simp] theorem State.withFar_far (v : Word) (s : State) :
    (s.withFar v).far = v := rfl
@[simp] theorem State.withFar_tlb (v : Word) (s : State) :
    (s.withFar v).tlb = s.tlb := rfl
@[simp] theorem State.withFar_itlb (v : Word) (s : State) :
    (s.withFar v).itlb = s.itlb := rfl
@[simp] theorem State.withFar_dtlb (v : Word) (s : State) :
    (s.withFar v).dtlb = s.dtlb := rfl
@[simp] theorem State.withFar_cacheHolds (v : Word) (s : State) :
    (s.withFar v).cacheHolds = s.cacheHolds := rfl
@[simp] theorem State.withFar_pending (v : Word) (s : State) :
    (s.withFar v).pending = s.pending := rfl
@[simp] theorem State.withFar_mem (v : Word) (s : State) :
    (s.withFar v).mem = s.mem := rfl
@[simp] theorem State.withFar_inputs (v : Word) (s : State) :
    (s.withFar v).inputs = s.inputs := rfl
@[simp] theorem State.withFar_phase (v : Word) (s : State) :
    (s.withFar v).phase = s.phase := rfl
@[simp] theorem State.withFar_outputs (v : Word) (s : State) :
    (s.withFar v).outputs = s.outputs := rfl
@[simp] theorem State.withFar_walkReads (v : Word) (s : State) :
    (s.withFar v).walkReads = s.walkReads := rfl
@[simp] theorem State.withFar_draws (v : Word) (s : State) :
    (s.withFar v).draws = s.draws := rfl

/-! ## `State.withLastFault` -/

@[simp] theorem State.withLastFault_cfg (r : FaultRecord) (s : State) :
    (s.withLastFault r).cfg = s.cfg := rfl
@[simp] theorem State.withLastFault_ctrl (r : FaultRecord) (s : State) :
    (s.withLastFault r).ctrl = s.ctrl := rfl
@[simp] theorem State.withLastFault_ttb (r : FaultRecord) (s : State) :
    (s.withLastFault r).ttb = s.ttb := rfl
@[simp] theorem State.withLastFault_dac (r : FaultRecord) (s : State) :
    (s.withLastFault r).dac = s.dac := rfl
@[simp] theorem State.withLastFault_lastFault (r : FaultRecord) (s : State) :
    (s.withLastFault r).lastFault = some r := rfl
@[simp] theorem State.withLastFault_fsr (r : FaultRecord) (s : State) :
    (s.withLastFault r).fsr = s.fsr := rfl
@[simp] theorem State.withLastFault_far (r : FaultRecord) (s : State) :
    (s.withLastFault r).far = s.far := rfl
@[simp] theorem State.withLastFault_tlb (r : FaultRecord) (s : State) :
    (s.withLastFault r).tlb = s.tlb := rfl
@[simp] theorem State.withLastFault_itlb (r : FaultRecord) (s : State) :
    (s.withLastFault r).itlb = s.itlb := rfl
@[simp] theorem State.withLastFault_dtlb (r : FaultRecord) (s : State) :
    (s.withLastFault r).dtlb = s.dtlb := rfl
@[simp] theorem State.withLastFault_cacheHolds (r : FaultRecord) (s : State) :
    (s.withLastFault r).cacheHolds = s.cacheHolds := rfl
@[simp] theorem State.withLastFault_pending (r : FaultRecord) (s : State) :
    (s.withLastFault r).pending = s.pending := rfl
@[simp] theorem State.withLastFault_mem (r : FaultRecord) (s : State) :
    (s.withLastFault r).mem = s.mem := rfl
@[simp] theorem State.withLastFault_inputs (r : FaultRecord) (s : State) :
    (s.withLastFault r).inputs = s.inputs := rfl
@[simp] theorem State.withLastFault_phase (r : FaultRecord) (s : State) :
    (s.withLastFault r).phase = s.phase := rfl
@[simp] theorem State.withLastFault_outputs (r : FaultRecord) (s : State) :
    (s.withLastFault r).outputs = s.outputs := rfl
@[simp] theorem State.withLastFault_walkReads (r : FaultRecord) (s : State) :
    (s.withLastFault r).walkReads = s.walkReads := rfl
@[simp] theorem State.withLastFault_draws (r : FaultRecord) (s : State) :
    (s.withLastFault r).draws = s.draws := rfl

/-! ## `State.withCacheHolds` -/

@[simp] theorem State.withCacheHolds_cfg (h : Bool) (s : State) :
    (s.withCacheHolds h).cfg = s.cfg := rfl
@[simp] theorem State.withCacheHolds_ctrl (h : Bool) (s : State) :
    (s.withCacheHolds h).ctrl = s.ctrl := rfl
@[simp] theorem State.withCacheHolds_ttb (h : Bool) (s : State) :
    (s.withCacheHolds h).ttb = s.ttb := rfl
@[simp] theorem State.withCacheHolds_dac (h : Bool) (s : State) :
    (s.withCacheHolds h).dac = s.dac := rfl
@[simp] theorem State.withCacheHolds_lastFault (h : Bool) (s : State) :
    (s.withCacheHolds h).lastFault = s.lastFault := rfl
@[simp] theorem State.withCacheHolds_fsr (h : Bool) (s : State) :
    (s.withCacheHolds h).fsr = s.fsr := rfl
@[simp] theorem State.withCacheHolds_far (h : Bool) (s : State) :
    (s.withCacheHolds h).far = s.far := rfl
@[simp] theorem State.withCacheHolds_tlb (h : Bool) (s : State) :
    (s.withCacheHolds h).tlb = s.tlb := rfl
@[simp] theorem State.withCacheHolds_itlb (h : Bool) (s : State) :
    (s.withCacheHolds h).itlb = s.itlb := rfl
@[simp] theorem State.withCacheHolds_dtlb (h : Bool) (s : State) :
    (s.withCacheHolds h).dtlb = s.dtlb := rfl
@[simp] theorem State.withCacheHolds_cacheHolds (h : Bool) (s : State) :
    (s.withCacheHolds h).cacheHolds = h := rfl
@[simp] theorem State.withCacheHolds_pending (h : Bool) (s : State) :
    (s.withCacheHolds h).pending = s.pending := rfl
@[simp] theorem State.withCacheHolds_mem (h : Bool) (s : State) :
    (s.withCacheHolds h).mem = s.mem := rfl
@[simp] theorem State.withCacheHolds_inputs (h : Bool) (s : State) :
    (s.withCacheHolds h).inputs = s.inputs := rfl
@[simp] theorem State.withCacheHolds_phase (h : Bool) (s : State) :
    (s.withCacheHolds h).phase = s.phase := rfl
@[simp] theorem State.withCacheHolds_outputs (h : Bool) (s : State) :
    (s.withCacheHolds h).outputs = s.outputs := rfl
@[simp] theorem State.withCacheHolds_walkReads (h : Bool) (s : State) :
    (s.withCacheHolds h).walkReads = s.walkReads := rfl
@[simp] theorem State.withCacheHolds_draws (h : Bool) (s : State) :
    (s.withCacheHolds h).draws = s.draws := rfl

/-! ## `State.withMem` -/

@[simp] theorem State.withMem_cfg (m : Memory) (s : State) :
    (s.withMem m).cfg = s.cfg := rfl
@[simp] theorem State.withMem_ctrl (m : Memory) (s : State) :
    (s.withMem m).ctrl = s.ctrl := rfl
@[simp] theorem State.withMem_ttb (m : Memory) (s : State) :
    (s.withMem m).ttb = s.ttb := rfl
@[simp] theorem State.withMem_dac (m : Memory) (s : State) :
    (s.withMem m).dac = s.dac := rfl
@[simp] theorem State.withMem_lastFault (m : Memory) (s : State) :
    (s.withMem m).lastFault = s.lastFault := rfl
@[simp] theorem State.withMem_fsr (m : Memory) (s : State) :
    (s.withMem m).fsr = s.fsr := rfl
@[simp] theorem State.withMem_far (m : Memory) (s : State) :
    (s.withMem m).far = s.far := rfl
@[simp] theorem State.withMem_tlb (m : Memory) (s : State) :
    (s.withMem m).tlb = s.tlb := rfl
@[simp] theorem State.withMem_itlb (m : Memory) (s : State) :
    (s.withMem m).itlb = s.itlb := rfl
@[simp] theorem State.withMem_dtlb (m : Memory) (s : State) :
    (s.withMem m).dtlb = s.dtlb := rfl
@[simp] theorem State.withMem_cacheHolds (m : Memory) (s : State) :
    (s.withMem m).cacheHolds = s.cacheHolds := rfl
@[simp] theorem State.withMem_pending (m : Memory) (s : State) :
    (s.withMem m).pending = s.pending := rfl
@[simp] theorem State.withMem_mem (m : Memory) (s : State) :
    (s.withMem m).mem = m := rfl
@[simp] theorem State.withMem_inputs (m : Memory) (s : State) :
    (s.withMem m).inputs = s.inputs := rfl
@[simp] theorem State.withMem_phase (m : Memory) (s : State) :
    (s.withMem m).phase = s.phase := rfl
@[simp] theorem State.withMem_outputs (m : Memory) (s : State) :
    (s.withMem m).outputs = s.outputs := rfl
@[simp] theorem State.withMem_walkReads (m : Memory) (s : State) :
    (s.withMem m).walkReads = s.walkReads := rfl
@[simp] theorem State.withMem_draws (m : Memory) (s : State) :
    (s.withMem m).draws = s.draws := rfl

/-! ## `State.withPending` -/

@[simp] theorem State.withPending_cfg (ps : List PendingWrite) (s : State) :
    (s.withPending ps).cfg = s.cfg := rfl
@[simp] theorem State.withPending_ctrl (ps : List PendingWrite) (s : State) :
    (s.withPending ps).ctrl = s.ctrl := rfl
@[simp] theorem State.withPending_ttb (ps : List PendingWrite) (s : State) :
    (s.withPending ps).ttb = s.ttb := rfl
@[simp] theorem State.withPending_dac (ps : List PendingWrite) (s : State) :
    (s.withPending ps).dac = s.dac := rfl
@[simp] theorem State.withPending_lastFault (ps : List PendingWrite) (s : State) :
    (s.withPending ps).lastFault = s.lastFault := rfl
@[simp] theorem State.withPending_fsr (ps : List PendingWrite) (s : State) :
    (s.withPending ps).fsr = s.fsr := rfl
@[simp] theorem State.withPending_far (ps : List PendingWrite) (s : State) :
    (s.withPending ps).far = s.far := rfl
@[simp] theorem State.withPending_tlb (ps : List PendingWrite) (s : State) :
    (s.withPending ps).tlb = s.tlb := rfl
@[simp] theorem State.withPending_itlb (ps : List PendingWrite) (s : State) :
    (s.withPending ps).itlb = s.itlb := rfl
@[simp] theorem State.withPending_dtlb (ps : List PendingWrite) (s : State) :
    (s.withPending ps).dtlb = s.dtlb := rfl
@[simp] theorem State.withPending_cacheHolds (ps : List PendingWrite) (s : State) :
    (s.withPending ps).cacheHolds = s.cacheHolds := rfl
@[simp] theorem State.withPending_pending (ps : List PendingWrite) (s : State) :
    (s.withPending ps).pending = ps := rfl
@[simp] theorem State.withPending_mem (ps : List PendingWrite) (s : State) :
    (s.withPending ps).mem = s.mem := rfl
@[simp] theorem State.withPending_inputs (ps : List PendingWrite) (s : State) :
    (s.withPending ps).inputs = s.inputs := rfl
@[simp] theorem State.withPending_phase (ps : List PendingWrite) (s : State) :
    (s.withPending ps).phase = s.phase := rfl
@[simp] theorem State.withPending_outputs (ps : List PendingWrite) (s : State) :
    (s.withPending ps).outputs = s.outputs := rfl
@[simp] theorem State.withPending_walkReads (ps : List PendingWrite) (s : State) :
    (s.withPending ps).walkReads = s.walkReads := rfl
@[simp] theorem State.withPending_draws (ps : List PendingWrite) (s : State) :
    (s.withPending ps).draws = s.draws := rfl

/-! ## `State.withInputs` -/

@[simp] theorem State.withInputs_cfg (rs : List Request) (s : State) :
    (s.withInputs rs).cfg = s.cfg := rfl
@[simp] theorem State.withInputs_ctrl (rs : List Request) (s : State) :
    (s.withInputs rs).ctrl = s.ctrl := rfl
@[simp] theorem State.withInputs_ttb (rs : List Request) (s : State) :
    (s.withInputs rs).ttb = s.ttb := rfl
@[simp] theorem State.withInputs_dac (rs : List Request) (s : State) :
    (s.withInputs rs).dac = s.dac := rfl
@[simp] theorem State.withInputs_lastFault (rs : List Request) (s : State) :
    (s.withInputs rs).lastFault = s.lastFault := rfl
@[simp] theorem State.withInputs_fsr (rs : List Request) (s : State) :
    (s.withInputs rs).fsr = s.fsr := rfl
@[simp] theorem State.withInputs_far (rs : List Request) (s : State) :
    (s.withInputs rs).far = s.far := rfl
@[simp] theorem State.withInputs_tlb (rs : List Request) (s : State) :
    (s.withInputs rs).tlb = s.tlb := rfl
@[simp] theorem State.withInputs_itlb (rs : List Request) (s : State) :
    (s.withInputs rs).itlb = s.itlb := rfl
@[simp] theorem State.withInputs_dtlb (rs : List Request) (s : State) :
    (s.withInputs rs).dtlb = s.dtlb := rfl
@[simp] theorem State.withInputs_cacheHolds (rs : List Request) (s : State) :
    (s.withInputs rs).cacheHolds = s.cacheHolds := rfl
@[simp] theorem State.withInputs_pending (rs : List Request) (s : State) :
    (s.withInputs rs).pending = s.pending := rfl
@[simp] theorem State.withInputs_mem (rs : List Request) (s : State) :
    (s.withInputs rs).mem = s.mem := rfl
@[simp] theorem State.withInputs_inputs (rs : List Request) (s : State) :
    (s.withInputs rs).inputs = rs := rfl
@[simp] theorem State.withInputs_phase (rs : List Request) (s : State) :
    (s.withInputs rs).phase = s.phase := rfl
@[simp] theorem State.withInputs_outputs (rs : List Request) (s : State) :
    (s.withInputs rs).outputs = s.outputs := rfl
@[simp] theorem State.withInputs_walkReads (rs : List Request) (s : State) :
    (s.withInputs rs).walkReads = s.walkReads := rfl
@[simp] theorem State.withInputs_draws (rs : List Request) (s : State) :
    (s.withInputs rs).draws = s.draws := rfl

/-! ## `State.withWalkReads` -/

@[simp] theorem State.withWalkReads_cfg (as : List Word) (s : State) :
    (s.withWalkReads as).cfg = s.cfg := rfl
@[simp] theorem State.withWalkReads_ctrl (as : List Word) (s : State) :
    (s.withWalkReads as).ctrl = s.ctrl := rfl
@[simp] theorem State.withWalkReads_ttb (as : List Word) (s : State) :
    (s.withWalkReads as).ttb = s.ttb := rfl
@[simp] theorem State.withWalkReads_dac (as : List Word) (s : State) :
    (s.withWalkReads as).dac = s.dac := rfl
@[simp] theorem State.withWalkReads_lastFault (as : List Word) (s : State) :
    (s.withWalkReads as).lastFault = s.lastFault := rfl
@[simp] theorem State.withWalkReads_fsr (as : List Word) (s : State) :
    (s.withWalkReads as).fsr = s.fsr := rfl
@[simp] theorem State.withWalkReads_far (as : List Word) (s : State) :
    (s.withWalkReads as).far = s.far := rfl
@[simp] theorem State.withWalkReads_tlb (as : List Word) (s : State) :
    (s.withWalkReads as).tlb = s.tlb := rfl
@[simp] theorem State.withWalkReads_itlb (as : List Word) (s : State) :
    (s.withWalkReads as).itlb = s.itlb := rfl
@[simp] theorem State.withWalkReads_dtlb (as : List Word) (s : State) :
    (s.withWalkReads as).dtlb = s.dtlb := rfl
@[simp] theorem State.withWalkReads_cacheHolds (as : List Word) (s : State) :
    (s.withWalkReads as).cacheHolds = s.cacheHolds := rfl
@[simp] theorem State.withWalkReads_pending (as : List Word) (s : State) :
    (s.withWalkReads as).pending = s.pending := rfl
@[simp] theorem State.withWalkReads_mem (as : List Word) (s : State) :
    (s.withWalkReads as).mem = s.mem := rfl
@[simp] theorem State.withWalkReads_inputs (as : List Word) (s : State) :
    (s.withWalkReads as).inputs = s.inputs := rfl
@[simp] theorem State.withWalkReads_phase (as : List Word) (s : State) :
    (s.withWalkReads as).phase = s.phase := rfl
@[simp] theorem State.withWalkReads_outputs (as : List Word) (s : State) :
    (s.withWalkReads as).outputs = s.outputs := rfl
@[simp] theorem State.withWalkReads_walkReads (as : List Word) (s : State) :
    (s.withWalkReads as).walkReads = as := rfl
@[simp] theorem State.withWalkReads_draws (as : List Word) (s : State) :
    (s.withWalkReads as).draws = s.draws := rfl

/-! ## `State.tick` -/

@[simp] theorem State.tick_cfg (s : State) :
    (s.tick).cfg = s.cfg := rfl
@[simp] theorem State.tick_ctrl (s : State) :
    (s.tick).ctrl = s.ctrl := rfl
@[simp] theorem State.tick_ttb (s : State) :
    (s.tick).ttb = s.ttb := rfl
@[simp] theorem State.tick_dac (s : State) :
    (s.tick).dac = s.dac := rfl
@[simp] theorem State.tick_lastFault (s : State) :
    (s.tick).lastFault = s.lastFault := rfl
@[simp] theorem State.tick_fsr (s : State) :
    (s.tick).fsr = s.fsr := rfl
@[simp] theorem State.tick_far (s : State) :
    (s.tick).far = s.far := rfl
@[simp] theorem State.tick_tlb (s : State) :
    (s.tick).tlb = s.tlb := rfl
@[simp] theorem State.tick_itlb (s : State) :
    (s.tick).itlb = s.itlb := rfl
@[simp] theorem State.tick_dtlb (s : State) :
    (s.tick).dtlb = s.dtlb := rfl
@[simp] theorem State.tick_cacheHolds (s : State) :
    (s.tick).cacheHolds = s.cacheHolds := rfl
@[simp] theorem State.tick_pending (s : State) :
    (s.tick).pending = s.pending := rfl
@[simp] theorem State.tick_mem (s : State) :
    (s.tick).mem = s.mem := rfl
@[simp] theorem State.tick_inputs (s : State) :
    (s.tick).inputs = s.inputs := rfl
@[simp] theorem State.tick_phase (s : State) :
    (s.tick).phase = s.phase := rfl
@[simp] theorem State.tick_outputs (s : State) :
    (s.tick).outputs = s.outputs := rfl
@[simp] theorem State.tick_walkReads (s : State) :
    (s.tick).walkReads = s.walkReads := rfl
@[simp] theorem State.tick_draws (s : State) :
    (s.tick).draws = s.draws + 1 := rfl

/-! ## `State.respond` -/

@[simp] theorem State.respond_cfg (r : Response) (s : State) :
    (s.respond r).cfg = s.cfg := rfl
@[simp] theorem State.respond_ctrl (r : Response) (s : State) :
    (s.respond r).ctrl = s.ctrl := rfl
@[simp] theorem State.respond_ttb (r : Response) (s : State) :
    (s.respond r).ttb = s.ttb := rfl
@[simp] theorem State.respond_dac (r : Response) (s : State) :
    (s.respond r).dac = s.dac := rfl
@[simp] theorem State.respond_lastFault (r : Response) (s : State) :
    (s.respond r).lastFault = s.lastFault := rfl
@[simp] theorem State.respond_fsr (r : Response) (s : State) :
    (s.respond r).fsr = s.fsr := rfl
@[simp] theorem State.respond_far (r : Response) (s : State) :
    (s.respond r).far = s.far := rfl
@[simp] theorem State.respond_tlb (r : Response) (s : State) :
    (s.respond r).tlb = s.tlb := rfl
@[simp] theorem State.respond_itlb (r : Response) (s : State) :
    (s.respond r).itlb = s.itlb := rfl
@[simp] theorem State.respond_dtlb (r : Response) (s : State) :
    (s.respond r).dtlb = s.dtlb := rfl
@[simp] theorem State.respond_cacheHolds (r : Response) (s : State) :
    (s.respond r).cacheHolds = s.cacheHolds := rfl
@[simp] theorem State.respond_pending (r : Response) (s : State) :
    (s.respond r).pending = s.pending := rfl
@[simp] theorem State.respond_mem (r : Response) (s : State) :
    (s.respond r).mem = s.mem := rfl
@[simp] theorem State.respond_inputs (r : Response) (s : State) :
    (s.respond r).inputs = s.inputs := rfl
@[simp] theorem State.respond_phase (r : Response) (s : State) :
    (s.respond r).phase = .idle := rfl
@[simp] theorem State.respond_outputs (r : Response) (s : State) :
    (s.respond r).outputs = r :: s.outputs := rfl
@[simp] theorem State.respond_walkReads (r : Response) (s : State) :
    (s.respond r).walkReads = s.walkReads := rfl
@[simp] theorem State.respond_draws (r : Response) (s : State) :
    (s.respond r).draws = s.draws := rfl

/-! ## `State.withTlbOf` -/

@[simp] theorem State.withTlbOf_cfg (side : TlbSide) (es : List TlbLine) (s : State) :
    (s.withTlbOf side es).cfg = s.cfg := by
  unfold State.withTlbOf; split <;> rfl
@[simp] theorem State.withTlbOf_ctrl (side : TlbSide) (es : List TlbLine) (s : State) :
    (s.withTlbOf side es).ctrl = s.ctrl := by
  unfold State.withTlbOf; split <;> rfl
@[simp] theorem State.withTlbOf_ttb (side : TlbSide) (es : List TlbLine) (s : State) :
    (s.withTlbOf side es).ttb = s.ttb := by
  unfold State.withTlbOf; split <;> rfl
@[simp] theorem State.withTlbOf_dac (side : TlbSide) (es : List TlbLine) (s : State) :
    (s.withTlbOf side es).dac = s.dac := by
  unfold State.withTlbOf; split <;> rfl
@[simp] theorem State.withTlbOf_lastFault (side : TlbSide) (es : List TlbLine) (s : State) :
    (s.withTlbOf side es).lastFault = s.lastFault := by
  unfold State.withTlbOf; split <;> rfl
@[simp] theorem State.withTlbOf_fsr (side : TlbSide) (es : List TlbLine) (s : State) :
    (s.withTlbOf side es).fsr = s.fsr := by
  unfold State.withTlbOf; split <;> rfl
@[simp] theorem State.withTlbOf_far (side : TlbSide) (es : List TlbLine) (s : State) :
    (s.withTlbOf side es).far = s.far := by
  unfold State.withTlbOf; split <;> rfl
@[simp] theorem State.withTlbOf_cacheHolds (side : TlbSide) (es : List TlbLine) (s : State) :
    (s.withTlbOf side es).cacheHolds = s.cacheHolds := by
  unfold State.withTlbOf; split <;> rfl
@[simp] theorem State.withTlbOf_pending (side : TlbSide) (es : List TlbLine) (s : State) :
    (s.withTlbOf side es).pending = s.pending := by
  unfold State.withTlbOf; split <;> rfl
@[simp] theorem State.withTlbOf_mem (side : TlbSide) (es : List TlbLine) (s : State) :
    (s.withTlbOf side es).mem = s.mem := by
  unfold State.withTlbOf; split <;> rfl
@[simp] theorem State.withTlbOf_inputs (side : TlbSide) (es : List TlbLine) (s : State) :
    (s.withTlbOf side es).inputs = s.inputs := by
  unfold State.withTlbOf; split <;> rfl
@[simp] theorem State.withTlbOf_phase (side : TlbSide) (es : List TlbLine) (s : State) :
    (s.withTlbOf side es).phase = s.phase := by
  unfold State.withTlbOf; split <;> rfl
@[simp] theorem State.withTlbOf_outputs (side : TlbSide) (es : List TlbLine) (s : State) :
    (s.withTlbOf side es).outputs = s.outputs := by
  unfold State.withTlbOf; split <;> rfl
@[simp] theorem State.withTlbOf_walkReads (side : TlbSide) (es : List TlbLine) (s : State) :
    (s.withTlbOf side es).walkReads = s.walkReads := by
  unfold State.withTlbOf; split <;> rfl
@[simp] theorem State.withTlbOf_draws (side : TlbSide) (es : List TlbLine) (s : State) :
    (s.withTlbOf side es).draws = s.draws := by
  unfold State.withTlbOf; split <;> rfl

/-- The TLB that was replaced holds the new entries. -/
@[simp] theorem State.tlbOf_withTlbOf (side : TlbSide) (es : List TlbLine) (s : State) :
    (s.withTlbOf side es).tlbOf side = es := by
  unfold State.withTlbOf State.tlbOf
  cases h : s.cfg.tlbOrg <;> cases side <;> simp [h]

/-- A TLB that is replaced by what it holds changes nothing. -/
@[simp] theorem State.withTlbOf_tlbOf (side : TlbSide) (s : State) : s.withTlbOf side (s.tlbOf side) = s := by
  unfold State.withTlbOf State.tlbOf
  cases h : s.cfg.tlbOrg <;> cases side <;> simp

/-- In a split organisation the other TLB keeps its entries. -/
theorem State.tlbOf_withTlbOf_of_ne (side side' : TlbSide) (es : List TlbLine) (s : State)
    (h : s.cfg.tlbOrg = .split) (hne : side' ≠ side) :
    (s.withTlbOf side es).tlbOf side' = s.tlbOf side' := by
  unfold State.withTlbOf State.tlbOf
  cases side <;> cases side' <;> simp_all

/-- In a unified organisation both sides select the one TLB. -/
theorem State.tlbOf_unified (side side' : TlbSide) (s : State) (h : s.cfg.tlbOrg = .unified) :
    s.tlbOf side = s.tlbOf side' := by
  unfold State.tlbOf
  simp [h]

@[simp] theorem State.tlbOf_withPhase (side : TlbSide) (p : Phase) (s : State) :
    (s.withPhase p).tlbOf side = s.tlbOf side := rfl
@[simp] theorem State.tlbOf_withCtrl (side : TlbSide) (v : Word) (s : State) :
    (s.withCtrl v).tlbOf side = s.tlbOf side := rfl
@[simp] theorem State.tlbOf_withTtb (side : TlbSide) (v : Word) (s : State) :
    (s.withTtb v).tlbOf side = s.tlbOf side := rfl
@[simp] theorem State.tlbOf_withDac (side : TlbSide) (v : Word) (s : State) :
    (s.withDac v).tlbOf side = s.tlbOf side := rfl
@[simp] theorem State.tlbOf_withFsr (side : TlbSide) (v : Word) (s : State) :
    (s.withFsr v).tlbOf side = s.tlbOf side := rfl
@[simp] theorem State.tlbOf_withFar (side : TlbSide) (v : Word) (s : State) :
    (s.withFar v).tlbOf side = s.tlbOf side := rfl
@[simp] theorem State.tlbOf_withLastFault (side : TlbSide) (r : FaultRecord) (s : State) :
    (s.withLastFault r).tlbOf side = s.tlbOf side := rfl
@[simp] theorem State.tlbOf_withCacheHolds (side : TlbSide) (h : Bool) (s : State) :
    (s.withCacheHolds h).tlbOf side = s.tlbOf side := rfl
@[simp] theorem State.tlbOf_withMem (side : TlbSide) (m : Memory) (s : State) :
    (s.withMem m).tlbOf side = s.tlbOf side := rfl
@[simp] theorem State.tlbOf_withPending (side : TlbSide) (ps : List PendingWrite) (s : State) :
    (s.withPending ps).tlbOf side = s.tlbOf side := rfl
@[simp] theorem State.tlbOf_withInputs (side : TlbSide) (rs : List Request) (s : State) :
    (s.withInputs rs).tlbOf side = s.tlbOf side := rfl
@[simp] theorem State.tlbOf_withWalkReads (side : TlbSide) (as : List Word) (s : State) :
    (s.withWalkReads as).tlbOf side = s.tlbOf side := rfl
@[simp] theorem State.tlbOf_tick (side : TlbSide) (s : State) :
    (s.tick).tlbOf side = s.tlbOf side := rfl
@[simp] theorem State.tlbOf_respond (side : TlbSide) (r : Response) (s : State) :
    (s.respond r).tlbOf side = s.tlbOf side := rfl

end Sys2Proof.Machine
end

