-- ==== Sys2Proof/Laws/Ops.lean ====
section
/-! SUPPORT. One lemma per shared operation that says once what it can do, so that a proof cites it and does
not unfold the operation. -/

namespace Sys2Proof.Machine

/-! ## The TLB as a set -/

/-- What a trimmed TLB holds is a part of what was there, in its order. -/
theorem tlbTrim_sublist (k : Nat) (xs : List TlbLine) : (tlbTrim k xs).Sublist xs := by
  induction xs generalizing k with
  | nil => exact List.Sublist.refl _
  | cons x xs ih =>
    unfold tlbTrim
    split
    · exact (ih k).cons_cons x
    · cases k with
      | zero => exact (ih 0).trans (List.sublist_cons_self x xs)
      | succ k => exact (ih k).cons_cons x

/-- A locked line is never trimmed away (R21). -/
theorem mem_tlbTrim_of_locked {x : TlbLine} (k : Nat) {xs : List TlbLine} (hx : x ∈ xs)
    (hl : x.locked = true) : x ∈ tlbTrim k xs := by
  induction xs generalizing k with
  | nil => simp at hx
  | cons y ys ih =>
    unfold tlbTrim
    rcases List.mem_cons.mp hx with rfl | hx
    · simp [hl]
    · split
      · exact List.mem_cons_of_mem _ (ih k hx)
      · cases k with
        | zero => exact ih 0 hx
        | succ k => exact List.mem_cons_of_mem _ (ih k hx)

/-- A trimmed TLB has its locked lines and no more unlocked ones than it may. -/
theorem length_tlbTrim_le (k : Nat) (xs : List TlbLine) :
    (tlbTrim k xs).length ≤ xs.countP TlbLine.locked + k := by
  induction xs generalizing k with
  | nil => simp [tlbTrim]
  | cons x xs ih =>
    unfold tlbTrim
    split
    · rename_i hl
      have := ih k
      simp [hl]
      omega
    · rename_i hl
      cases k with
      | zero => simpa [hl] using ih 0
      | succ k =>
        have := ih k
        simp [hl]
        omega

/-- What stays when a line is placed is a part of what was there, in its order. -/
theorem tlbFit_sublist (cap : Option Nat) (xs : List TlbLine) : (tlbFit cap xs).Sublist xs := by
  cases cap with
  | none => exact List.Sublist.refl _
  | some n => exact tlbTrim_sublist _ _

/-- A locked line stays when a line is placed (R21). -/
theorem mem_tlbFit_of_locked {x : TlbLine} (cap : Option Nat) {xs : List TlbLine} (hx : x ∈ xs)
    (hl : x.locked = true) : x ∈ tlbFit cap xs := by
  cases cap with
  | none => exact hx
  | some n => exact mem_tlbTrim_of_locked _ hx hl

/-- A line that was placed is there. -/
@[simp] theorem mem_tlbInsert_self (cap : Option Nat) (x : TlbLine) (xs : List TlbLine) :
    x ∈ tlbInsert cap x xs := by
  unfold tlbInsert
  split
  · assumption
  · exact List.mem_cons_self

/-- Nothing but the placed line has come. -/
theorem mem_tlbInsert {cap : Option Nat} {x y : TlbLine} {xs : List TlbLine} (h : y ∈ tlbInsert cap x xs) :
    y = x ∨ y ∈ xs := by
  unfold tlbInsert at h
  split at h
  · exact Or.inr h
  · exact (List.mem_cons.mp h).imp id fun h => (tlbFit_sublist _ _).subset h

/-- A locked line is still there after one was placed (R21). -/
theorem mem_tlbInsert_of_locked {cap : Option Nat} {x y : TlbLine} {xs : List TlbLine} (hy : y ∈ xs)
    (hl : y.locked = true) : y ∈ tlbInsert cap x xs := by
  unfold tlbInsert
  split
  · exact hy
  · exact List.mem_cons_of_mem _ (mem_tlbFit_of_locked _ hy hl)

/-- Without a capacity everything that was there stays. -/
@[simp] theorem mem_tlbInsert_none {x y : TlbLine} {xs : List TlbLine} :
    y ∈ tlbInsert none x xs ↔ y = x ∨ y ∈ xs := by
  unfold tlbInsert
  split
  · constructor
    · exact Or.inr
    · rintro (rfl | h) <;> assumption
  · simp [tlbFit]

/-- Placing a line keeps the TLB a set. -/
theorem tlbInsert_nodup {cap : Option Nat} {x : TlbLine} {xs : List TlbLine} (h : xs.Nodup) :
    (tlbInsert cap x xs).Nodup := by
  unfold tlbInsert
  split
  · exact h
  · rename_i hx
    exact List.nodup_cons.mpr
      ⟨fun hm => hx ((tlbFit_sublist _ _).subset hm), h.sublist (tlbFit_sublist _ _)⟩

/-- Placing a line keeps the TLB within its capacity, unless locked lines fill it (R20). -/
theorem length_tlbInsert_le {n : Nat} {x : TlbLine} {xs : List TlbLine} (h : xs.length ≤ n)
    (hl : xs.countP TlbLine.locked < n) : (tlbInsert (some n) x xs).length ≤ n := by
  unfold tlbInsert
  split
  · exact h
  · have := length_tlbTrim_le (n - 1 - xs.countP TlbLine.locked) xs
    simp only [tlbFit, List.length_cons]
    omega

/-- What is left after lines were overwritten is a part of what was there, in its order. -/
theorem tlbEvict_sublist (n i : Nat) (xs : List TlbLine) : (tlbEvict n i xs).Sublist xs := by
  induction xs generalizing i with
  | nil => exact List.Sublist.refl _
  | cons x xs ih =>
    unfold tlbEvict
    split
    · exact (ih (i + 1)).trans (List.sublist_cons_self x xs)
    · exact (ih (i + 1)).cons_cons x

/-- A locked line is never overwritten (R21). -/
theorem mem_tlbEvict_of_locked {x : TlbLine} (n i : Nat) {xs : List TlbLine} (hx : x ∈ xs)
    (hl : x.locked = true) : x ∈ tlbEvict n i xs := by
  induction xs generalizing i with
  | nil => simp at hx
  | cons y ys ih =>
    unfold tlbEvict
    rcases List.mem_cons.mp hx with rfl | hx
    · simp [hl]
    · split
      · exact ih (i + 1) hx
      · exact List.mem_cons_of_mem _ (ih (i + 1) hx)

/-- What a fill does to the TLBs (R102). -/
theorem State.tlbFill_placed (side : TlbSide) (x : TlbLine) (s : State) :
    Placed x side s (s.tlbFill side x) := by
  have h : (s.tlbFill side x).tlbOf side =
      tlbInsert s.cfg.tlbEntries x (tlbEvict s.draws 0 (s.tlbOf side)) := by
    simp [State.tlbFill]
  have hsub := tlbEvict_sublist s.draws 0 (s.tlbOf side)
  refine ⟨?_, ?_, ?_, ?_, ?_⟩
  · rw [h]; exact mem_tlbInsert_self _ _ _
  · intro y hy hl
    rw [h]
    exact mem_tlbInsert_of_locked (mem_tlbEvict_of_locked _ _ hy hl) hl
  · intro y hy
    rw [h] at hy
    exact (mem_tlbInsert hy).imp id fun hy => hsub.subset hy
  · intro n hn hlen hlocked
    rw [h, hn]
    exact length_tlbInsert_le (hsub.length_le.trans hlen) (lt_of_le_of_lt hsub.countP_le hlocked)
  · intro hs other hne
    exact State.tlbOf_withTlbOf_of_ne side other _ s hs hne

/-- What a lookup finds (R91). -/
@[simp] theorem State.mem_tlbLookup {side : TlbSide} {va : Word} {s : State} {x : TlbLine} :
    x ∈ s.tlbLookup side va ↔ x ∈ s.tlbOf side ∧ x.covers va = true := by
  simp [State.tlbLookup]

/-- What a TLB holds after a flush of its side (R146). -/
@[simp] theorem State.mem_tlbRemove {side : TlbSide} {test : TlbLine → Bool} {s : State} {x : TlbLine} :
    x ∈ (s.tlbRemove side test).tlbOf side ↔ x ∈ s.tlbOf side ∧ (x.locked = true ∨ test x = false) := by
  simp [State.tlbRemove]

/-! ## What the TLB operations leave alone -/

theorem State.sameRegisters_withTlbOf (side : TlbSide) (xs : List TlbLine) (s : State) :
    SameRegisters s (s.withTlbOf side xs) := by
  constructor <;> simp

theorem State.sameFaultState_withTlbOf (side : TlbSide) (xs : List TlbLine) (s : State) :
    SameFaultState s (s.withTlbOf side xs) := by
  constructor <;> simp

/-- The fields that a TLB fill leaves alone. -/
theorem State.tlbFill_frame (side : TlbSide) (x : TlbLine) (s : State) :
    SameRegisters s (s.tlbFill side x) ∧ SameFaultState s (s.tlbFill side x) ∧
      SameMemory s (s.tlbFill side x) ∧ SameInputs s (s.tlbFill side x) := by
  refine ⟨?_, ?_, ?_, ?_⟩ <;> constructor <;> simp [State.tlbFill, State.memByte]

@[simp] theorem State.tlbFill_cfg (side : TlbSide) (x : TlbLine) (s : State) :
    (s.tlbFill side x).cfg = s.cfg := by simp [State.tlbFill]

@[simp] theorem State.tlbFill_ctrl (side : TlbSide) (x : TlbLine) (s : State) :
    (s.tlbFill side x).ctrl = s.ctrl := by simp [State.tlbFill]

@[simp] theorem State.tlbFill_fsr (side : TlbSide) (x : TlbLine) (s : State) :
    (s.tlbFill side x).fsr = s.fsr := by simp [State.tlbFill]

@[simp] theorem State.tlbFill_mem (side : TlbSide) (x : TlbLine) (s : State) :
    (s.tlbFill side x).mem = s.mem := by simp [State.tlbFill]

@[simp] theorem State.tlbFill_outputs (side : TlbSide) (x : TlbLine) (s : State) :
    (s.tlbFill side x).outputs = s.outputs := by simp [State.tlbFill]

@[simp] theorem State.tlbFill_walkReads (side : TlbSide) (x : TlbLine) (s : State) :
    (s.tlbFill side x).walkReads = s.walkReads := by simp [State.tlbFill]

/-- What becomes of the TLBs when a walk has met a fault descriptor (D6): the fault is held under
`TLB_CACHES_FAULTS`, else nothing changes. -/
theorem State.holdFault_cases (side : TlbSide) (f : HeldFault) (s : State) :
    (s.cfg.tlbCachesFaults = false ∧ s.holdFault side f = s) ∨
      (s.cfg.tlbCachesFaults = true ∧ s.holdFault side f = s.tlbFill side (.fault f)) := by
  unfold State.holdFault
  cases h : s.cfg.tlbCachesFaults <;> simp

/-- The fields that holding a fault leaves alone. -/
theorem State.holdFault_frame (side : TlbSide) (f : HeldFault) (s : State) :
    SameRegisters s (s.holdFault side f) ∧ SameFaultState s (s.holdFault side f) ∧
      SameMemory s (s.holdFault side f) ∧ SameInputs s (s.holdFault side f) ∧
      (s.holdFault side f).outputs = s.outputs ∧ (s.holdFault side f).walkReads = s.walkReads ∧
      (s.holdFault side f).mem = s.mem := by
  rcases s.holdFault_cases side f with ⟨-, h⟩ | ⟨-, h⟩ <;> rw [h]
  · exact ⟨⟨rfl, rfl, rfl, rfl⟩, ⟨rfl, rfl, rfl⟩, ⟨fun _ => rfl, rfl, rfl⟩, ⟨rfl⟩, rfl, rfl, rfl⟩
  · obtain ⟨h1, h2, h3, h4⟩ := s.tlbFill_frame side (.fault f)
    exact ⟨h1, h2, h3, h4, by simp, by simp, by simp⟩

/-- The fields that a flush of one side leaves alone. -/
theorem State.tlbRemove_frame (side : TlbSide) (test : TlbLine → Bool) (s : State) :
    SameRegisters s (s.tlbRemove side test) ∧ SameFaultState s (s.tlbRemove side test) ∧
      SameMemory s (s.tlbRemove side test) ∧ SameInputs s (s.tlbRemove side test) := by
  refine ⟨?_, ?_, ?_, ?_⟩ <;> constructor <;> simp [State.tlbRemove, State.memByte]

/-! ## Taking an abort -/

/-- What taking an abort does (R160, R168): the record, the answer, the end of the operation. -/
theorem State.raiseAbort_spec (kind : AbortKind) (va : Word) (domain : Option (BitVec 4)) (upd : Bool)
    (s : State) :
    (s.raiseAbort kind va domain upd).lastFault = some ⟨kind, va, domain⟩ ∧
      (s.raiseAbort kind va domain upd).outputs = .abort kind va :: s.outputs ∧
      (s.raiseAbort kind va domain upd).phase = .idle ∧
      (s.raiseAbort kind va domain upd).walkReads = s.walkReads := by
  cases upd <;> simp [State.raiseAbort, State.withFaultRegs]

/-- What taking an abort leaves alone (R170). -/
theorem State.raiseAbort_frame (kind : AbortKind) (va : Word) (domain : Option (BitVec 4)) (upd : Bool)
    (s : State) :
    SameRegisters s (s.raiseAbort kind va domain upd) ∧ SameTlbs s (s.raiseAbort kind va domain upd) ∧
      SameMemory s (s.raiseAbort kind va domain upd) ∧ SameInputs s (s.raiseAbort kind va domain upd) := by
  refine ⟨?_, ?_, ?_, ?_⟩ <;> constructor <;>
    cases upd <;> simp [State.raiseAbort, State.withFaultRegs, State.memByte]

/-- The fields of a fault status word (R169). -/
theorem faultStatusWord_fields (old : Word) (domain status : BitVec 4) :
    field (faultStatusWord old domain status) 0 4 = status ∧
      field (faultStatusWord old domain status) 4 4 = domain ∧
      (faultStatusWord old domain status).getLsbD 8 = false ∧
      field (faultStatusWord old domain status) 9 23 = field old 9 23 := by
  unfold faultStatusWord
  refine ⟨?_, ?_, ?_, ?_⟩
  · exact (field_append_low _ _ _ _ (by decide)).trans (field_whole _)
  · exact (field_append_high _ _ _ _ (by decide)).trans
      ((field_append_low _ _ _ _ (by decide)).trans (field_whole _))
  · rw [bit_append_high _ _ _ (by decide), bit_append_high _ _ _ (by decide),
      bit_append_low _ _ _ (by decide)]
    rfl
  · refine (field_append_high _ _ _ _ (by decide)).trans ?_
    refine (field_append_high _ _ _ _ (by decide)).trans ?_
    exact (field_append_high _ _ _ _ (by decide)).trans (field_whole _)

/-- The fault status and fault address registers after an abort (R169). -/
theorem State.raiseAbort_faultRegs (kind : AbortKind) (va : Word) (domain : Option (BitVec 4)) (upd : Bool)
    (s : State) : FaultRegs kind va domain upd s (s.raiseAbort kind va domain upd) := by
  constructor
  · rintro rfl
    have h : (s.raiseAbort kind va domain true).fsr =
        faultStatusWord s.fsr (domain.getD (Config.freeDomain s.draws)) (faultStatus kind) := by
      simp [State.raiseAbort, State.withFaultRegs]
    obtain ⟨h1, h2, h3, h4⟩ :=
      faultStatusWord_fields s.fsr (domain.getD (Config.freeDomain s.draws)) (faultStatus kind)
    refine ⟨by simp [State.raiseAbort, State.withFaultRegs], by rw [h, h1], ?_, by rw [h, h3],
      by rw [h, h4]⟩
    rintro d rfl
    rw [h, h2]
    rfl
  · rintro rfl
    simp [State.raiseAbort]

/-- What a walk that has met a fault descriptor does (R161, R162). -/
theorem State.walkFault_cases (f : HeldFault) (p : Purpose) (s : State) :
    (((∃ a, p = .access a) ∨ s.ctrl.getLsbD 0 = true) ∧ s.walkFault f p =
        (s.holdFault p.side f).raiseAbort (.translation f.level) p.va f.domain (p.updatesFaultRegs s.cfg)) ∨
      ((∀ a, p ≠ .access a) ∧ s.ctrl.getLsbD 0 = false ∧
        s.walkFault f p = (s.holdFault p.side f).respond .done) := by
  unfold State.walkFault State.signalsAbort
  cases p with
  | access a => exact Or.inl ⟨Or.inl ⟨a, rfl⟩, rfl⟩
  | lock side va =>
    cases h : s.mmuOn with
    | true => exact Or.inl ⟨Or.inr h, by simp⟩
    | false => exact Or.inr ⟨by simp, h, by simp⟩

/-- Taking an abort, as one statement (R160, R168 to R170). -/
theorem State.raiseAbort_aborted (kind : AbortKind) (va : Word) (domain : Option (BitVec 4)) (upd : Bool)
    (s : State) : Aborted kind va domain upd s (s.raiseAbort kind va domain upd) := by
  obtain ⟨hl, ho, hp, -⟩ := s.raiseAbort_spec kind va domain upd
  obtain ⟨hr, -, hm, hi⟩ := s.raiseAbort_frame kind va domain upd
  exact ⟨ho, hl, s.raiseAbort_faultRegs kind va domain upd, hp, hr, hm, hi⟩

/-- What a walk that has met a fault descriptor does, as one statement (R161, R162, D6). -/
theorem State.walkFault_spec (f : HeldFault) (p : Purpose) (s : State) :
    WalkFaults f p s (s.walkFault f p) ∧ (s.walkFault f p).walkReads = s.walkReads := by
  obtain ⟨hr, hf, hm, hi, ho, hw, -⟩ := s.holdFault_frame p.side f
  have same : s.cfg.tlbCachesFaults = false → SameTlbs s (s.holdFault p.side f) := by
    intro h
    rcases s.holdFault_cases p.side f with ⟨-, e⟩ | ⟨h', -⟩
    · rw [e]; exact ⟨rfl, rfl, rfl⟩
    · simp [h] at h'
  have placed : s.cfg.tlbCachesFaults = true → Placed (.fault f) p.side s (s.holdFault p.side f) := by
    intro h
    rcases s.holdFault_cases p.side f with ⟨h', -⟩ | ⟨-, e⟩
    · simp [h] at h'
    · rw [e]; exact s.tlbFill_placed p.side (.fault f)
  rcases s.walkFault_cases f p with ⟨hc, e⟩ | ⟨hc, hM, e⟩ <;> rw [e]
  · have ha := (s.holdFault p.side f).raiseAbort_aborted (.translation f.level) p.va f.domain
      (p.updatesFaultRegs s.cfg)
    have ht := ((s.holdFault p.side f).raiseAbort_frame (.translation f.level) p.va f.domain
      (p.updatesFaultRegs s.cfg)).2.1
    have hreads := ((s.holdFault p.side f).raiseAbort_spec (.translation f.level) p.va f.domain
      (p.updatesFaultRegs s.cfg)).2.2.2
    have htlb : ∀ side, ((s.holdFault p.side f).raiseAbort (.translation f.level) p.va f.domain
        (p.updatesFaultRegs s.cfg)).tlbOf side = (s.holdFault p.side f).tlbOf side := by
      intro side
      simp only [State.tlbOf, ht.tlb, ht.itlb, ht.dtlb, ha.registers.cfg]
    refine ⟨⟨fun _ => ?_, fun hn hz => ?_, fun h => ?_, fun h => ?_⟩, hreads.trans hw⟩
    · refine ⟨by rw [ha.outputs, ho], ha.lastFault, ⟨fun h => ?_, fun h => ?_⟩, ha.phase, ?_, ?_, ?_⟩
      · obtain ⟨h1, h2, h3, h4, h5⟩ := ha.faultRegs.written h
        exact ⟨h1, h2, h3, h4, h5.trans (congrArg (field · 9 23) hf.fsr)⟩
      · obtain ⟨h1, h2⟩ := ha.faultRegs.kept h
        exact ⟨h1.trans hf.fsr, h2.trans hf.far⟩
      · obtain ⟨h1, h2, h3, h4⟩ := ha.registers
        exact ⟨h1.trans hr.cfg, h2.trans hr.ctrl, h3.trans hr.ttb, h4.trans hr.dac⟩
      · obtain ⟨h1, h2, h3⟩ := ha.memory
        exact ⟨fun a => (h1 a).trans (hm.bytes a), h2.trans hm.pending, h3.trans hm.cacheHolds⟩
      · exact ⟨ha.inputs.inputs.trans hi.inputs⟩
    · rcases hc with ⟨a, rfl⟩ | hc
      · exact absurd rfl (hn a)
      · exact absurd (hc.symm.trans hz) (by decide)
    · obtain ⟨h1, h2, h3⟩ := same h
      exact ⟨ht.tlb.trans h1, ht.itlb.trans h2, ht.dtlb.trans h3⟩
    · obtain ⟨h1, h2, h3, h4, h5⟩ := placed h
      refine ⟨?_, ?_, ?_, ?_, ?_⟩ <;> simp only [htlb] <;> assumption
  · refine ⟨⟨fun h => ?_, fun _ _ => ?_, fun h => ?_, fun h => ?_⟩, hw⟩
    · rcases h with ⟨a, rfl⟩ | h
      · exact absurd rfl (hc a)
      · exact absurd (h.symm.trans hM) (by decide)
    · exact ⟨congrArg (Response.done :: ·) ho, rfl, ⟨hr.cfg, hr.ctrl, hr.ttb, hr.dac⟩,
        ⟨hf.lastFault, hf.fsr, hf.far⟩, ⟨hm.bytes, hm.pending, hm.cacheHolds⟩, ⟨hi.inputs⟩⟩
    · obtain ⟨h1, h2, h3⟩ := same h
      exact ⟨h1, h2, h3⟩
    · obtain ⟨h1, h2, h3, h4, h5⟩ := placed h
      exact ⟨h1, h2, h3, h4, h5⟩

/-! ## Ending a walk -/

/-- What a `TLBLock` leaves beside its own line is a part of what was there, in its order. -/
theorem tlbYield_sublist (cap : Option Nat) (n : Nat) (xs : List TlbLine) : (tlbYield cap n xs).Sublist xs := by
  cases cap with
  | none => exact List.Sublist.refl _
  | some _ => exact tlbEvict_sublist _ _ _

/-- A `TLBLock` leaves every locked line (R21). -/
theorem mem_tlbYield_of_locked {x : TlbLine} (cap : Option Nat) (n : Nat) {xs : List TlbLine} (hx : x ∈ xs)
    (hl : x.locked = true) : x ∈ tlbYield cap n xs := by
  cases cap with
  | none => exact hx
  | some _ => exact mem_tlbEvict_of_locked _ _ hx hl

/-- The TLB after a line was locked in (R147). -/
@[simp] theorem State.lockIn_tlbOf (side : TlbSide) (e : TlbEntry) (s : State) :
    (s.lockIn side e).tlbOf side = tlbInsert s.cfg.tlbEntries (.entry { e with locked := true })
      (tlbYield s.cfg.tlbEntries s.draws (s.tlbOf side)) := by
  simp [State.lockIn]

/-- What locking a walk's result in does to the TLBs (R147). -/
theorem State.lockIn_placed (side : TlbSide) (e : TlbEntry) (s : State) :
    Placed (.entry { e with locked := true }) side s (s.lockIn side e) := by
  have hsub := tlbYield_sublist s.cfg.tlbEntries s.draws (s.tlbOf side)
  refine ⟨?_, ?_, ?_, ?_, ?_⟩
  · simp
  · intro y hy hl
    rw [State.lockIn_tlbOf]
    exact mem_tlbInsert_of_locked (mem_tlbYield_of_locked _ _ hy hl) hl
  · intro y hy
    rw [State.lockIn_tlbOf] at hy
    exact (mem_tlbInsert hy).imp id fun hy => hsub.subset hy
  · intro n hn hlen hlocked
    rw [hn] at hsub
    rw [State.lockIn_tlbOf, hn]
    exact length_tlbInsert_le (hsub.length_le.trans hlen) (lt_of_le_of_lt hsub.countP_le hlocked)
  · intro hs other hne
    exact State.tlbOf_withTlbOf_of_ne side other _ s hs hne

/-- Without a capacity a `TLBLock` drops nothing (R147). -/
theorem State.mem_lockIn_of_unbounded {side : TlbSide} {e : TlbEntry} {s : State} {y : TlbLine}
    (hn : s.cfg.tlbEntries = none) (hy : y ∈ s.tlbOf side) : y ∈ (s.lockIn side e).tlbOf side := by
  simp [hn, tlbYield, hy]

/-- The fields that locking a line in leaves alone. -/
theorem State.lockIn_frame (side : TlbSide) (e : TlbEntry) (s : State) :
    SameRegisters s (s.lockIn side e) ∧ SameFaultState s (s.lockIn side e) ∧
      SameMemory s (s.lockIn side e) ∧ SameInputs s (s.lockIn side e) ∧
      (s.lockIn side e).outputs = s.outputs ∧ (s.lockIn side e).walkReads = s.walkReads := by
  refine ⟨?_, ?_, ?_, ?_, ?_, ?_⟩ <;> (try constructor) <;> simp [State.lockIn, State.memByte]

@[simp] theorem State.lockIn_cfg (side : TlbSide) (e : TlbEntry) (s : State) :
    (s.lockIn side e).cfg = s.cfg := by simp [State.lockIn]

@[simp] theorem State.lockIn_ctrl (side : TlbSide) (e : TlbEntry) (s : State) :
    (s.lockIn side e).ctrl = s.ctrl := by simp [State.lockIn]

@[simp] theorem State.lockIn_ttb (side : TlbSide) (e : TlbEntry) (s : State) :
    (s.lockIn side e).ttb = s.ttb := by simp [State.lockIn]

@[simp] theorem State.lockIn_dac (side : TlbSide) (e : TlbEntry) (s : State) :
    (s.lockIn side e).dac = s.dac := by simp [State.lockIn]

@[simp] theorem State.lockIn_fsr (side : TlbSide) (e : TlbEntry) (s : State) :
    (s.lockIn side e).fsr = s.fsr := by simp [State.lockIn]

@[simp] theorem State.lockIn_far (side : TlbSide) (e : TlbEntry) (s : State) :
    (s.lockIn side e).far = s.far := by simp [State.lockIn]

@[simp] theorem State.lockIn_lastFault (side : TlbSide) (e : TlbEntry) (s : State) :
    (s.lockIn side e).lastFault = s.lastFault := by simp [State.lockIn]

@[simp] theorem State.lockIn_pending (side : TlbSide) (e : TlbEntry) (s : State) :
    (s.lockIn side e).pending = s.pending := by simp [State.lockIn]

@[simp] theorem State.lockIn_cacheHolds (side : TlbSide) (e : TlbEntry) (s : State) :
    (s.lockIn side e).cacheHolds = s.cacheHolds := by simp [State.lockIn]

@[simp] theorem State.lockIn_inputs (side : TlbSide) (e : TlbEntry) (s : State) :
    (s.lockIn side e).inputs = s.inputs := by simp [State.lockIn]

@[simp] theorem State.lockIn_outputs (side : TlbSide) (e : TlbEntry) (s : State) :
    (s.lockIn side e).outputs = s.outputs := by simp [State.lockIn]

@[simp] theorem State.lockIn_walkReads (side : TlbSide) (e : TlbEntry) (s : State) :
    (s.lockIn side e).walkReads = s.walkReads := by simp [State.lockIn]

@[simp] theorem State.lockIn_mem (side : TlbSide) (e : TlbEntry) (s : State) :
    (s.lockIn side e).mem = s.mem := by simp [State.lockIn]

/-- What a walk that has found its entry does, as one statement (R102, R147). -/
theorem State.finishWalk_spec (e : TlbEntry) (p : Purpose) (s : State) :
    WalkEnds e p s (s.finishWalk e p) ∧ (s.finishWalk e p).walkReads = s.walkReads := by
  cases p with
  | access a =>
    obtain ⟨hr, hf, hm, hi⟩ := s.tlbFill_frame a.kind.side (.entry e)
    obtain ⟨h1, h2, h3, h4, h5⟩ := s.tlbFill_placed a.kind.side (.entry e)
    refine ⟨⟨rfl, ⟨h1, h2, h3, h4, h5⟩, ⟨hr.cfg, hr.ctrl, hr.ttb, hr.dac⟩, ⟨hf.lastFault, hf.fsr, hf.far⟩,
      ⟨hm.bytes, hm.pending, hm.cacheHolds⟩, ⟨hi.inputs⟩, ?_⟩, ?_⟩ <;> simp [State.finishWalk]
  | lock side va =>
    obtain ⟨h1, h2, h3, h4, h5⟩ := s.lockIn_placed side e
    obtain ⟨hr, hf, hm, hi, ho, hw⟩ := s.lockIn_frame side e
    exact ⟨⟨rfl, ⟨h1, h2, h3, h4, h5⟩, fun hn _ hy => State.mem_lockIn_of_unbounded hn hy,
      ⟨hr.cfg, hr.ctrl, hr.ttb, hr.dac⟩, ⟨hf.lastFault, hf.fsr, hf.far⟩, ⟨hm.bytes, hm.pending, hm.cacheHolds⟩,
      ⟨hi.inputs⟩, congrArg (Response.done :: ·) ho⟩, hw⟩

@[simp] theorem State.raiseAbort_mem (kind : AbortKind) (va : Word) (domain : Option (BitVec 4)) (upd : Bool)
    (s : State) : (s.raiseAbort kind va domain upd).mem = s.mem := by
  cases upd <;> simp [State.raiseAbort, State.withFaultRegs]

/-! ## Moving data -/

/-- What moving the data of an access leaves alone: everything but main memory and the held writes. -/
theorem State.moveData_frame (pa : Word) (c b : Bool) (t : Transfer) (s : State) :
    SameRegisters s (s.moveData pa c b t).2 ∧ SameFaultState s (s.moveData pa c b t).2 ∧
      SameTlbs s (s.moveData pa c b t).2 ∧ (s.moveData pa c b t).2.outputs = s.outputs ∧
      (s.moveData pa c b t).2.inputs = s.inputs ∧ (s.moveData pa c b t).2.walkReads = s.walkReads ∧
      (s.moveData pa c b t).2.cacheHolds = s.cacheHolds ∧ (s.moveData pa c b t).2.draws = s.draws := by
  cases t with
  | fetch n => exact ⟨⟨rfl, rfl, rfl, rfl⟩, ⟨rfl, rfl, rfl⟩, ⟨rfl, rfl, rfl⟩, rfl, rfl, rfl, rfl, rfl⟩
  | read n => exact ⟨⟨rfl, rfl, rfl, rfl⟩, ⟨rfl, rfl, rfl⟩, ⟨rfl, rfl, rfl⟩, rfl, rfl, rfl, rfl, rfl⟩
  | write data =>
    refine ⟨?_, ?_, ?_, ?_, ?_, ?_, ?_, ?_⟩ <;> (try constructor) <;>
      simp only [State.moveData, State.storeData, State.drainAll] <;> split <;> (try split) <;> rfl

/-- A fetch and a read leave main memory and the held writes alone. -/
theorem State.moveData_of_not_write (pa : Word) (c b : Bool) (t : Transfer) (s : State)
    (h : t.kind ≠ .write) : (s.moveData pa c b t).2 = s := by
  cases t with
  | fetch n => rfl
  | read n => rfl
  | write data => exact absurd rfl h

/-- What an instruction fetch sees of the held writes is a part of them, in their order. -/
theorem fetchSees_sublist (n : Nat) (a : Word) (i : Nat) (ps : List PendingWrite) :
    (fetchSees n a i ps).Sublist ps := by
  induction ps generalizing i with
  | nil => exact List.Sublist.refl _
  | cons p ps ih =>
    unfold fetchSees
    split
    · exact (ih _).cons_cons _
    · exact (ih _).cons _

/-- A fetched byte is main memory's or a held write's (R53). -/
theorem State.fetchByte_cases (s : State) (a : Word) :
    s.fetchByte a = s.memByte a ∨ ∃ p ∈ s.pending, p.byteAt a = some (s.fetchByte a) := by
  unfold State.fetchByte
  cases h : pendingByte (fetchSees s.draws a 0 s.pending) a with
  | none => exact Or.inl rfl
  | some b =>
    obtain ⟨p, hp, hb⟩ := byteAt_of_pendingByte h
    exact Or.inr ⟨p, (fetchSees_sublist _ _ _ _).mem hp, hb⟩

/-- An access that proceeds to a next state does so inside its region, and that state is this one
(R31). -/
theorem State.proceed_next {pa : Word} {c b : Bool} {room : Nat} {t : Transfer} {s u : State}
    (h : s.proceed pa c b room t = .next u) :
    t.size ≤ room ∧
      u = ((s.moveData pa c b t).2.touchCache c).tick.respond (.ok pa c b (s.moveData pa c b t).1) := by
  unfold State.proceed at h
  split at h
  · cases h
  · rename_i hroom
    injection h with h
    exact ⟨Nat.le_of_not_lt hroom, h.symm⟩

/-- An access inside its region proceeds (R31). -/
theorem State.proceed_of_room {pa : Word} {c b : Bool} {room : Nat} {t : Transfer} {s : State}
    (h : t.size ≤ room) :
    s.proceed pa c b room t =
      .next (((s.moveData pa c b t).2.touchCache c).tick.respond (.ok pa c b (s.moveData pa c b t).1)) := by
  simp [State.proceed, Nat.not_lt.mpr h]

/-- What an access that proceeds leaves alone. -/
theorem State.proceed_frame {pa : Word} {c b : Bool} {room : Nat} {t : Transfer} {s u : State}
    (h : s.proceed pa c b room t = .next u) :
    SameRegisters s u ∧ SameFaultState s u ∧ SameTlbs s u ∧ SameInputs s u ∧ u.phase = .idle ∧
      u.walkReads = s.walkReads ∧ ∃ data, u.outputs = .ok pa c b data :: s.outputs := by
  obtain ⟨-, rfl⟩ := State.proceed_next h
  obtain ⟨⟨h1, h2, h3, h4⟩, ⟨h5, h6, h7⟩, ⟨h8, h9, h10⟩, ho, hi, hw, -, -⟩ := s.moveData_frame pa c b t
  refine ⟨⟨?_, ?_, ?_, ?_⟩, ⟨?_, ?_, ?_⟩, ⟨?_, ?_, ?_⟩, ⟨?_⟩, ?_, ?_, (s.moveData pa c b t).1, ?_⟩ <;>
    simp [State.touchCache, *]

/-- An access that proceeds leaves a cache that may hold something so, and may fill one (R38, R54). -/
theorem State.proceed_cacheHolds {pa : Word} {c b : Bool} {room : Nat} {t : Transfer} {s u : State}
    (h : s.proceed pa c b room t = .next u) : u.cacheHolds = (s.cacheHolds || (c && s.cfg.hasCache)) := by
  obtain ⟨-, rfl⟩ := State.proceed_next h
  obtain ⟨hr, -, -, -, -, -, hc, -⟩ := s.moveData_frame pa c b t
  simp [State.touchCache, hr.cfg, hc]

/-- The tables map an address to itself just when the look that a write of CP15 register 1 makes says so
(R198). -/
theorem State.mapsToItself_iff {s : State} {va : Word} : s.mapsToItself va = true ↔ s.identityMapped va := by
  unfold State.mapsToItself State.identityMapped
  cases s.walk va <;> simp

/-! ## The table walk's reads -/

/-- With nothing held back, a read of the walk leaves main memory as it is. -/
theorem State.drainSome_of_drained {s : State} (h : s.drained) :
    s.drainSome = s.tick := by
  unfold State.drained at h
  cases s
  simp_all [State.drainSome, State.withPending, State.withMem, State.tick]

/-- What a read of the walk gives and changes when nothing is held back (R44). -/
theorem State.physRead32_of_drained {s : State} (h : s.drained) (a : Word) :
    s.physRead32 a = (s.walkWord a, s.tick.withWalkReads (s.walkReads ++ [a])) := by
  unfold State.physRead32
  rw [State.drainSome_of_drained h]
  rfl

/-- What a read of the walk leaves alone, whatever is held back: everything but main memory, the held
writes and the list of reads. -/
theorem State.physRead32_frame (a : Word) (s : State) :
    SameRegisters s (s.physRead32 a).2 ∧ SameFaultState s (s.physRead32 a).2 ∧
      SameTlbs s (s.physRead32 a).2 ∧ SameInputs s (s.physRead32 a).2 ∧
      (s.physRead32 a).2.outputs = s.outputs ∧ (s.physRead32 a).2.walkReads = s.walkReads ++ [a] := by
  refine ⟨⟨rfl, rfl, rfl, rfl⟩, ⟨rfl, rfl, rfl⟩, ⟨rfl, rfl, rfl⟩, ⟨rfl⟩, rfl, rfl⟩

@[simp] theorem State.physRead32_cacheHolds (a : Word) (s : State) :
    (s.physRead32 a).2.cacheHolds = s.cacheHolds := rfl

/-- The word that a read of the walk gives is what the walk sees there afterwards (R44). -/
theorem State.physRead32_word (a : Word) (s : State) :
    (s.physRead32 a).1 = (s.physRead32 a).2.walkWord a := by
  unfold State.physRead32
  generalize s.drainSome = t
  rfl

/-- What the walk sees does not depend on where the MMU stands. -/
@[simp] theorem State.walkWord_withPhase (p : Phase) (a : Word) (s : State) :
    (s.withPhase p).walkWord a = s.walkWord a := rfl

/-- A read of the walk keeps main memory canonical. -/
theorem State.physRead32_wf (a : Word) {s : State} (h : s.mem.wf) : (s.physRead32 a).2.mem.wf := by
  have := drainGo_wf h s.draws 0 [] s.pending
  simpa [State.physRead32, State.drainSome] using this

end Sys2Proof.Machine
end

