-- ==== Sys2Proof/Laws/Step.lean ====
section
/-! SUPPORT. One step, said once: the word at hand decides it; and what taking an operation can do. -/

namespace Sys2Proof.Machine

/-- A step with a word at hand that decodes runs the row. -/
theorem step_of_decoded {s : State} {r : Role} {w : Word} {i : Instr} (hw : s.nextWord = some (r, w))
    (hd : decodeWord r w = .ok i) : step s = exec i s := by
  simp [step, hw, hd]

/-- A step with no word at hand takes the processor's next operation. -/
theorem step_of_idle {s : State} (h : s.phase = .idle) : step s = s.accept := by
  simp [step, State.nextWord, h]

/-- A step that answers a next state either took an operation or ran a row. -/
theorem step_cases {s t : State} (h : step s = .next t) :
    (s.nextWord = none ∧ s.accept = .next t) ∨
      ∃ r w i, s.nextWord = some (r, w) ∧ decodeWord r w = .ok i ∧ exec i s = .next t := by
  unfold step at h
  split at h
  · exact Or.inl ⟨‹_›, h⟩
  · rename_i r w hw
    split at h
    · exact Or.inr ⟨r, w, _, hw, ‹_›, h⟩
    · cases h

/-- A result that only privileged state gets to a next state was asked for in privileged state. -/
theorem asPrivileged_next {priv : Priv} {r : Result} {t : State} (h : asPrivileged priv r = .next t) :
    priv = .privileged ∧ r = .next t := by
  cases priv
  · cases h
  · exact ⟨rfl, h⟩

/-- A result that needs lockdown and answers a next state had it. -/
theorem ifLockdown_next {cfg : Config} {r : Result} {t : State} (h : ifLockdown cfg r = .next t) :
    cfg.tlbLockdown = true ∧ r = .next t := by
  unfold ifLockdown at h
  split at h
  · exact ⟨‹_›, h⟩
  · cases h

/-- A write of CP15 register 1 that answers a next state wrote it (R140). -/
theorem State.writeControl_next {v codeVa : Word} {s t : State} (h : s.writeControl v codeVa = .next t) :
    (v.getLsbD 0 = s.mmuOn ∨ s.mapsToItself codeVa = true) ∧ t = (s.withCtrl v).respond .done := by
  unfold State.writeControl at h
  split at h
  · cases h
  · rename_i hc
    injection h with h
    refine ⟨?_, h.symm⟩
    by_contra hn
    push Not at hn
    exact hc ⟨hn.1, by simpa using hn.2⟩

/-- A write of CP15 register 2 that answers a next state wrote it (R143). -/
theorem State.writeTtb_next {v : Word} {s t : State} (h : s.writeTtb v = .next t) :
    t = (s.withTtb v).respond .done := by
  unfold State.writeTtb at h
  split at h
  · cases h
  · injection h with h
    exact h.symm

/-- Starting a walk changes only where the MMU stands and the list of reads. -/
theorem State.startWalk_eq (p : Purpose) (s : State) :
    s.startWalk p = (s.withWalkReads []).withPhase (.l1Addr (l1DescAddr s.ttb p.va) p) := rfl

/-- The branch of the lookup's `choose` that takes a line takes one that was found (R31). -/
theorem chooseLine_mem {n : Nat} {ms : List TlbLine} {x : TlbLine} (h : chooseLine n ms = some x) :
    x ∈ ms :=
  List.mem_of_getElem? h

/-- With a locked entry among the lines found there is no walk (R21, R33). -/
theorem chooseLine_of_locked {n : Nat} {ms : List TlbLine} (h : ms.any TlbLine.locked = true) :
    ∃ x ∈ ms, chooseLine n ms = some x := by
  have hlen : 0 < ms.length := by
    cases ms with
    | nil => simp at h
    | cons x xs => simp
  have hlt : Config.freeTlbChoice n % ms.length < ms.length := Nat.mod_lt _ hlen
  refine ⟨ms[Config.freeTlbChoice n % ms.length], List.getElem_mem hlt, ?_⟩
  simp [chooseLine, h, hlt]

/-- What an access with the MMU enabled can begin with: a walk, when no entry found is locked, or one of the
lines found (R31). -/
theorem State.enabledAccess_cases (a : Access) (s : State) :
    ((∀ x ∈ s.tlbLookup a.kind.side a.va, x.locked = false) ∧
        (s.enabledAccess a = s.startWalk (.access a) ∨ s.enabledAccess a = (s.startWalk (.access a)).tick)) ∨
      ∃ x ∈ s.tlbLookup a.kind.side a.va,
        s.enabledAccess a = ((s.withWalkReads []).tlbHit x a).tick := by
  unfold State.enabledAccess
  split
  · rename_i hl
    simp [hl]
  · rename_i x xs hl
    split
    · rename_i hit hc
      exact Or.inr ⟨hit, by rw [hl]; exact chooseLine_mem hc, rfl⟩
    · rename_i hc
      refine Or.inl ⟨?_, Or.inr rfl⟩
      intro y hy
      by_contra hn
      have : (x :: xs).any TlbLine.locked = true :=
        List.any_eq_true.mpr ⟨y, by rwa [hl] at hy, by simpa using hn⟩
      obtain ⟨z, -, hz⟩ := chooseLine_of_locked (n := s.draws) this
      rw [hz] at hc
      cases hc

end Sys2Proof.Machine
end

