-- ==== Sys2Proof/Laws/Effects.lean ====
section
/-! SUPPORT. What a step can do, said once: every row that answers a next state has one of the effects of
`RowEffect`, and every operation of the processor one of the effects of `AcceptEffect`. A statement about
every step follows from these by cases, without unfolding a meaning. -/

namespace Sys2Proof.Machine

/-- What one row does when it answers a next state, by the place in the operation at which it stands. -/
inductive RowEffect (i : Instr) (s : State) : State → Prop
  /-- The walk has met a fault descriptor (R161, R162). -/
  | walkFault (f : HeldFault) (p : Purpose) :
      (∃ d, s.phase = .l1Desc d p) ∨ (∃ t d domain, s.phase = .l2Desc t d domain p) →
      f.covers p.va = true → RowEffect i s (s.walkFault f p)
  /-- The check refuses the access as a memory abort (R163, R164). -/
  | checkAbort (kind : AbortKind) (e : TlbEntry) (a : Access) : s.phase = .check e a →
      RowEffect i s (s.raiseAbort kind a.va (some e.domain) (a.kind.updatesFaultRegs s.cfg))
  /-- The walk goes on to a second-level table (R95, R96). -/
  | descend (d : Word) (t : TableKind) (addr : Word) (domain : BitVec 4) (p : Purpose) :
      s.phase = .l1Desc d p → field addr 0 2 = 0 → RowEffect i s (s.withPhase (.l2Addr t addr domain p))
  /-- The walk has found its entry (R102, R147). -/
  | found (e : TlbEntry) (p : Purpose) :
      (∃ d, s.phase = .l1Desc d p) ∨ (∃ t d domain, s.phase = .l2Desc t d domain p) →
      e.locked = false → e.mapping.covers p.va = true → RowEffect i s (s.finishWalk e p)
  /-- A first-level descriptor is read (R92). -/
  | readL1 (w addr : Word) (p : Purpose) : s.phase = .l1Addr w p →
      RowEffect i s ((s.physRead32 addr).2.withPhase (.l1Desc (s.physRead32 addr).1 p))
  /-- A second-level descriptor is read (R95, R96). -/
  | readL2 (t : TableKind) (w addr : Word) (domain : BitVec 4) (p : Purpose) :
      s.phase = .l2Addr t w domain p →
      RowEffect i s ((s.physRead32 addr).2.withPhase (.l2Desc t (s.physRead32 addr).1 domain p))
  /-- The access proceeds through its entry (R107). -/
  | proceed (e : TlbEntry) (a : Access) (t : State) : s.phase = .check e a →
      s.proceedThrough e a = .next t → RowEffect i s t
  /-- CP15 register 1 is written (R140). -/
  | ctrl (v : Word) :
      (i = .ctrl v ∧ ∃ w codeVa, s.phase = .ctrlWrite w codeVa .privileged) ∨
        (∃ w codeVa cp cond rd, i = .mcrMrc cond 0 false 1 rd 0 0 ∧
          s.phase = .coproc w v codeVa cp .privileged) →
      RowEffect i s ((s.withCtrl v).respond .done)
  /-- CP15 register 2 is written (R143). -/
  | ttb (v : Word) :
      (∃ base sbz w, i = .ttb base sbz ∧ v = base ++ sbz ∧ s.phase = .ttbWrite w .privileged) ∨
        (∃ w codeVa cp cond rd, i = .mcrMrc cond 0 false 2 rd 0 0 ∧
          s.phase = .coproc w v codeVa cp .privileged) →
      RowEffect i s ((s.withTtb v).respond .done)
  /-- The domain access control register is written by a transfer (R144). -/
  | dac (w v codeVa : Word) (cp : Bool) (cond rd : BitVec 4) : i = .mcrMrc cond 0 false s.cfg.dacrRegnum rd 0 0 →
      s.phase = .coproc w v codeVa cp .privileged → RowEffect i s ((s.withDac v).respond .done)
  /-- The fault status register is written by a transfer (R169). -/
  | fsr (w v codeVa : Word) (cp : Bool) : s.phase = .coproc w v codeVa cp .privileged →
      RowEffect i s ((s.withFsr v).respond .done)
  /-- The fault address register is written by a transfer (R169). -/
  | far (w v codeVa : Word) (cp : Bool) : s.phase = .coproc w v codeVa cp .privileged →
      RowEffect i s ((s.withFar v).respond .done)
  /-- TLBs are flushed by a transfer (R146). -/
  | flush (w v codeVa : Word) (cp : Bool) (which : FlushWhich) (test : TlbLine → Bool) :
      s.phase = .coproc w v codeVa cp .privileged → RowEffect i s ((s.tlbFlush which test).respond .done)
  /-- A register is read by a transfer (R145). -/
  | read (w v codeVa x : Word) (cp : Bool) (rd : BitVec 4) :
      s.phase = .coproc w v codeVa cp .privileged → RowEffect i s (s.tick.respond (.coprocValue rd x))
  /-- A transfer whose condition is not met (R86). -/
  | skip (w v codeVa : Word) (cp : Bool) (priv : Priv) : s.phase = .coproc w v codeVa cp priv →
      RowEffect i s (s.respond .done)

/-- A result that is refused under a condition and answers a next state answers the other one. -/
theorem refuses_next {c : Prop} [Decidable c] {r : Refusal} {x t : State}
    (h : (if c then (.refused r : Result) else .next x) = .next t) : t = x := by
  split at h
  · cases h
  · injection h with h; exact h.symm

/-- A row that finds a first-level walk waiting for its descriptor stands at that descriptor. -/
theorem Phase.atL1Desc_some {p : Phase} {q : Purpose} (h : p.atL1Desc = some q) : ∃ d, p = .l1Desc d q := by
  cases p <;> simp_all [Phase.atL1Desc]

/-- A row that finds a walk waiting for a first-level descriptor address stands at it. -/
theorem Phase.atL1Addr_some {p : Phase} {q : Purpose} (h : p.atL1Addr = some q) : ∃ d, p = .l1Addr d q := by
  cases p <;> simp_all [Phase.atL1Addr]

/-- A row that finds a walk waiting for a second-level descriptor stands at that descriptor. -/
theorem Phase.atL2Desc_some {p : Phase} {t : TableKind} {d : BitVec 4} {q : Purpose}
    (h : p.atL2Desc t = some (d, q)) : ∃ w, p = .l2Desc t w d q := by
  cases p <;> simp_all [Phase.atL2Desc]

/-- A row that finds a walk waiting for a second-level descriptor address stands at it. -/
theorem Phase.atL2Addr_some {p : Phase} {t : TableKind} {d : BitVec 4} {q : Purpose}
    (h : p.atL2Addr t = some (d, q)) : ∃ w, p = .l2Addr t w d q := by
  cases p <;> simp_all [Phase.atL2Addr]

/-- A row that finds an access being checked stands at its check. -/
theorem Phase.atCheck_some {p : Phase} {e : TlbEntry} {a : Access} (h : p.atCheck = some (e, a)) : p = .check e a := by
  cases p <;> simp_all [Phase.atCheck]

/-- What a row that answers a next state has done. -/
theorem exec_effect {i : Instr} {s t : State} (h : exec i s = .next t) : RowEffect i s t := by
  cases i <;> simp only [exec] at h
  case l1Fault x =>
    unfold execL1Fault at h
    split at h
    · cases h
    · rename_i p hp; cases h
      exact .walkFault _ p (.inl (Phase.atL1Desc_some hp)) (by simp [HeldFault.covers])
  case l1Coarse base sbz domain imp =>
    unfold execL1Coarse at h
    split at h
    · cases h
    · rename_i p hp; obtain ⟨d, hd⟩ := Phase.atL1Desc_some hp
      cases refuses_next h
      exact .descend d _ _ _ _ hd (field_append_low _ _ _ _ (by decide))
  case l1Section base sbzHi ap sbz domain imp c b =>
    unfold execL1Section at h
    split at h
    · cases h
    · rename_i p hp; obtain ⟨d, hd⟩ := Phase.atL1Desc_some hp
      cases refuses_next h
      exact .found _ p (.inl ⟨d, hd⟩) rfl (by simp [Mapping.covers, sectEntry])
  case l1Fine base sbz domain imp =>
    unfold execL1Fine at h
    split at h
    · cases h
    · rename_i p hp; obtain ⟨d, hd⟩ := Phase.atL1Desc_some hp
      cases refuses_next h
      exact .descend d _ _ _ _ hd (field_append_low _ _ _ _ (by decide))
  case l2cFault x =>
    unfold execL2cFault pageFault at h
    split at h
    · cases h
    · rename_i dom p hp; cases h; obtain ⟨d, hd⟩ := Phase.atL2Desc_some hp
      exact .walkFault _ p (.inr ⟨_, _, _, hd⟩) (by simp [HeldFault.page, HeldFault.covers])
  case l2fFault x =>
    unfold execL2fFault pageFault at h
    split at h
    · cases h
    · rename_i dom p hp; cases h; obtain ⟨d, hd⟩ := Phase.atL2Desc_some hp
      exact .walkFault _ p (.inr ⟨_, _, _, hd⟩) (by simp [HeldFault.page, HeldFault.covers])
  case l2cLarge =>
    unfold execL2cLarge largePageTranslate at h
    split at h
    · cases h
    · rename_i dom p hp; obtain ⟨d, hd⟩ := Phase.atL2Desc_some hp
      cases refuses_next h
      exact .found _ p (.inr ⟨_, _, _, hd⟩) rfl (by simp [Mapping.covers, largeEntry])
  case l2fLarge =>
    unfold execL2fLarge largePageTranslate at h
    split at h
    · cases h
    · rename_i dom p hp; obtain ⟨d, hd⟩ := Phase.atL2Desc_some hp
      cases refuses_next h
      exact .found _ p (.inr ⟨_, _, _, hd⟩) rfl (by simp [Mapping.covers, largeEntry])
  case l2cSmall =>
    unfold execL2cSmall smallPageTranslate at h
    split at h
    · cases h
    · rename_i dom p hp; obtain ⟨d, hd⟩ := Phase.atL2Desc_some hp
      cases h
      exact .found _ p (.inr ⟨_, _, _, hd⟩) rfl (by simp [Mapping.covers, smallEntry])
  case l2fSmall =>
    unfold execL2fSmall smallPageTranslate at h
    split at h
    · cases h
    · rename_i dom p hp; obtain ⟨d, hd⟩ := Phase.atL2Desc_some hp
      cases h
      exact .found _ p (.inr ⟨_, _, _, hd⟩) rfl (by simp [Mapping.covers, smallEntry])
  case l2cTiny =>
    unfold execL2cTiny at h
    split at h <;> cases h
  case l2fTiny =>
    unfold execL2fTiny at h
    split at h
    · cases h
    · rename_i dom p hp; obtain ⟨d, hd⟩ := Phase.atL2Desc_some hp
      cases refuses_next h
      exact .found _ p (.inr ⟨_, _, _, hd⟩) rfl (by simp [Mapping.covers, tinyEntry])
  case dacNoAccess =>
    unfold execDacNoAccess at h
    split at h
    · cases h
    · rename_i e a hp; cases h
      exact .checkAbort _ e a (Phase.atCheck_some hp)
  case dacClient =>
    unfold execDacClient at h
    split at h
    · cases h
    · rename_i e a hp
      split at h
      · exact .proceed e a t (Phase.atCheck_some hp) h
      · cases h
        exact .checkAbort _ e a (Phase.atCheck_some hp)
      · cases h
  case dacReserved =>
    unfold execDacReserved at h
    split at h <;> cases h
  case dacManager =>
    unfold execDacManager at h
    split at h
    · cases h
    · rename_i e a hp
      exact .proceed e a t (Phase.atCheck_some hp) h
  case ttb base sbz =>
    unfold execTtb at h
    split at h
    · rename_i w priv hp
      obtain ⟨rfl, h⟩ := asPrivileged_next h
      cases State.writeTtb_next h
      exact .ttb _ (.inl ⟨_, _, _, rfl, rfl, hp⟩)
    · cases h
  case ctrl value =>
    unfold execCtrl at h
    split at h
    · rename_i w codeVa priv hp
      obtain ⟨rfl, h⟩ := asPrivileged_next h
      obtain ⟨-, rfl⟩ := State.writeControl_next h
      exact .ctrl _ (.inl ⟨rfl, _, _, hp⟩)
    · cases h
  case l1Addr base index =>
    unfold execL1Addr at h
    split at h
    · cases h
    · rename_i p hp; obtain ⟨w, hw⟩ := Phase.atL1Addr_some hp
      cases h
      exact .readL1 w _ _ hw
  case l2AddrCoarse base index =>
    unfold execL2AddrCoarse readL2Desc at h
    split at h
    · cases h
    · rename_i p hp; obtain ⟨w, hw⟩ := Phase.atL2Addr_some hp
      cases h
      exact .readL2 _ w _ _ _ hw
  case l2AddrFine base index =>
    unfold execL2AddrFine readL2Desc at h
    split at h
    · cases h
    · rename_i p hp; obtain ⟨w, hw⟩ := Phase.atL2Addr_some hp
      cases h
      exact .readL2 _ w _ _ _ hw
  case mcrMrc cond opc1 load crn rd opc2 crm =>
    unfold execMcrMrc at h
    split at h
    · rename_i w v codeVa cp priv hp
      split at h
      · cases h; exact .skip _ _ _ _ _ hp
      · obtain ⟨rfl, h⟩ := asPrivileged_next h
        split at h
        · cases h
        rename_i hopc1
        split at h
        · unfold State.cp15Read at h
          split at h
          · cases h
          · split at h
            · cases h; exact .read _ _ _ _ _ _ hp
            · cases h
        · rename_i hload
          have h0 : opc1 = 0 := not_not.mp hopc1
          have hl : load = false := Bool.eq_false_iff.mpr hload
          unfold State.cp15Write at h
          split at h
          · split at h
            · cases h; exact .flush _ _ _ _ _ _ hp
            · cases h
          split at h
          · cases h
          rename_i hform
          push Not at hform
          have hm := hform.1
          have h2 := hform.2
          split at h
          · rename_i hcrn
            obtain ⟨-, rfl⟩ := State.writeControl_next h
            exact .ctrl _ (.inr ⟨_, _, _, cond, rd, by rw [h0, hl, hcrn, hm, h2], hp⟩)
          split at h
          · rename_i hcrn
            cases State.writeTtb_next h
            exact .ttb _ (.inr ⟨_, _, _, cond, rd, by rw [h0, hl, hcrn, hm, h2], hp⟩)
          split at h
          · rename_i hcrn
            cases h; exact .dac _ _ _ _ cond rd (by rw [h0, hl, hcrn, hm, h2]) hp
          split at h
          · cases h; exact .fsr _ _ _ _ hp
          split at h
          · cases h; exact .far _ _ _ _ hp
          · cases h
    · cases h

/-- What taking the processor's next operation does when it answers a next state. -/
inductive AcceptEffect (s : State) : State → Prop
  /-- There is none: the MMU waits. -/
  | waits : s.inputs = [] → AcceptEffect s s
  /-- An access with the MMU disabled (R43). -/
  | flat (a : Access) (rest : List Request) (t : State) : s.inputs = .access a :: rest → s.mmuOn = false →
      (s.withInputs rest).disabledAccess a = .next t → AcceptEffect s t
  /-- An access that starts a walk (R34). -/
  | walks (a : Access) (rest : List Request) (t : State) : s.inputs = .access a :: rest → s.mmuOn = true →
      (∀ x ∈ s.tlbLookup a.kind.side a.va, x.locked = false) →
      t = (s.withInputs rest).startWalk (.access a) ∨ t = ((s.withInputs rest).startWalk (.access a)).tick →
      AcceptEffect s t
  /-- An access that hits in a TLB (R33). -/
  | hits (a : Access) (rest : List Request) (e : TlbEntry) : s.inputs = .access a :: rest → s.mmuOn = true →
      .entry e ∈ s.tlbLookup a.kind.side a.va →
      AcceptEffect s (((s.withInputs rest).withWalkReads []).withPhase (.check e a)).tick
  /-- An access that hits a translation fault that the TLB holds (D6). -/
  | hitsFault (a : Access) (rest : List Request) (f : HeldFault) : s.inputs = .access a :: rest →
      s.mmuOn = true → .fault f ∈ s.tlbLookup a.kind.side a.va →
      AcceptEffect s (((s.withInputs rest).withWalkReads []).raiseAbort (.translation f.level) a.va f.domain
        (a.kind.updatesFaultRegs s.cfg)).tick
  /-- A value for CP15 register 1 comes to hand. -/
  | asksCtrl (v codeVa : Word) (priv : Priv) (rest : List Request) :
      s.inputs = .control (.writeControl v codeVa) priv :: rest →
      AcceptEffect s ((s.withInputs rest).withPhase (.ctrlWrite v codeVa priv))
  /-- A value for CP15 register 2 comes to hand. -/
  | asksTtb (v : Word) (priv : Priv) (rest : List Request) :
      s.inputs = .control (.writeTtb v) priv :: rest →
      AcceptEffect s ((s.withInputs rest).withPhase (.ttbWrite v priv))
  /-- A coprocessor register transfer comes to hand. -/
  | asksTransfer (w v codeVa : Word) (cp : Bool) (priv : Priv) (rest : List Request) :
      s.inputs = .coproc w v codeVa cp priv :: rest →
      AcceptEffect s ((s.withInputs rest).withPhase (.coproc w v codeVa cp priv))
  /-- `WriteDAC` (R144). -/
  | dac (v : Word) (rest : List Request) : s.inputs = .control (.writeDac v) .privileged :: rest →
      AcceptEffect s (((s.withInputs rest).withDac v).respond .done)
  /-- A register is read (R145). -/
  | reads (v : Word) (rest : List Request) : s.inputs ≠ [] →
      AcceptEffect s ((s.withInputs rest).answerValue v)
  /-- The fault status information is read (R145, R168). -/
  | readsFault (rest : List Request) : s.inputs = .control .readFault .privileged :: rest →
      AcceptEffect s ((s.withInputs rest).respond (.faultRecord s.lastFault))
  /-- `TLBFlush` (R146). -/
  | flush (which : FlushWhich) (rest : List Request) :
      s.inputs = .control (.tlbFlush which) .privileged :: rest →
      AcceptEffect s (((s.withInputs rest).tlbFlush which fun _ => true).respond .done)
  /-- `TLBLock` starts its walk (R147). -/
  | lock (side : TlbSide) (va : Word) (rest : List Request) :
      s.inputs = .control (.tlbLock side va) .privileged :: rest →
      AcceptEffect s ((s.withInputs rest).startWalk (.lock side va))
  /-- `TLBUnlock` (R147). -/
  | unlock (side : TlbSide) (e : TlbEntry) (rest : List Request) :
      s.inputs = .control (.tlbUnlock side e) .privileged :: rest →
      AcceptEffect s (((s.withInputs rest).withTlbOf side (tlbUnlocked e (s.tlbOf side))).respond .done)
  /-- `CacheFlush` (R149). -/
  | cacheFlush (rest : List Request) : s.inputs = .control .cacheFlush .privileged :: rest →
      AcceptEffect s (((s.withInputs rest).withCacheHolds false).respond .done)
  /-- Every held write reaches main memory (R199). -/
  | drain (rest : List Request) : s.inputs = .drain :: rest →
      AcceptEffect s ((s.withInputs rest).drainAll.respond .done)

/-- What taking an operation has done when it answered a next state. -/
theorem State.accept_effect {s t : State} (h : s.accept = .next t) : AcceptEffect s t := by
  unfold State.accept at h
  split at h
  · cases h; exact .waits ‹_›
  · rename_i r rest hi
    cases r <;> simp only [State.perform] at h
    case access a =>
      unfold State.beginAccess at h
      split at h
      · rename_i hm
        cases h
        rcases State.enabledAccess_cases a (s.withInputs rest) with ⟨hl, h2⟩ | ⟨x, hx, h2⟩
        · exact .walks a rest _ hi hm hl h2
        · rw [h2]
          cases x with
          | entry e => exact .hits a rest e hi hm hx
          | fault f => exact .hitsFault a rest f hi hm hx
      · rename_i hm
        exact .flat a rest t hi (Bool.eq_false_iff.mpr hm) h
    case control op priv =>
      cases op <;> simp only [State.control] at h
      case writeControl v codeVa => cases h; exact .asksCtrl _ _ _ _ hi
      case writeTtb v => cases h; exact .asksTtb _ _ _ hi
      case writeDac v =>
        obtain ⟨rfl, h⟩ := asPrivileged_next h
        cases h; exact .dac _ _ hi
      case readControl =>
        obtain ⟨rfl, h⟩ := asPrivileged_next h
        cases h; exact .reads _ _ (by simp [hi])
      case readTtb =>
        obtain ⟨rfl, h⟩ := asPrivileged_next h
        cases h; exact .reads _ _ (by simp [hi])
      case readDac =>
        obtain ⟨rfl, h⟩ := asPrivileged_next h
        cases h; exact .reads _ _ (by simp [hi])
      case readFault =>
        obtain ⟨rfl, h⟩ := asPrivileged_next h
        cases h; exact .readsFault _ hi
      case tlbFlush which =>
        obtain ⟨rfl, h⟩ := asPrivileged_next h
        cases h; exact .flush _ _ hi
      case tlbLock side va =>
        obtain ⟨rfl, h⟩ := asPrivileged_next h
        obtain ⟨-, h⟩ := ifLockdown_next h
        cases h; exact .lock _ _ _ hi
      case tlbUnlock side e =>
        obtain ⟨rfl, h⟩ := asPrivileged_next h
        obtain ⟨-, h⟩ := ifLockdown_next h
        cases h; exact .unlock _ _ _ hi
      case cacheFlush =>
        obtain ⟨rfl, h⟩ := asPrivileged_next h
        cases h; exact .cacheFlush _ hi
    case coproc => cases h; exact .asksTransfer _ _ _ _ _ _ hi
    case drain => cases h; exact .drain _ hi

/-- With no word at hand no operation is in progress. -/
theorem State.nextWord_none {s : State} (h : s.nextWord = none) : s.phase = .idle := by
  unfold State.nextWord at h
  split at h <;> simp_all

/-- What a step that answers a next state has done. -/
theorem step_effect {s t : State} (h : step s = .next t) :
    (s.phase = .idle ∧ AcceptEffect s t) ∨
      ∃ r w i, s.nextWord = some (r, w) ∧ decodeWord r w = .ok i ∧ RowEffect i s t := by
  rcases step_cases h with ⟨hw, h⟩ | ⟨r, w, i, hw, hd, h⟩
  · exact .inl ⟨State.nextWord_none hw, State.accept_effect h⟩
  · exact .inr ⟨r, w, i, hw, hd, exec_effect h⟩
/-- A run of a machine whose first step answers a next state goes on from there. -/
theorem run_succ {k : Nat} {s t : State} (h : step s = .next t) :
    Sys2Proof.core.run (k + 1) s = Sys2Proof.core.run k t := by
  have gen : ∀ (M : Host.Core) (s t : M.State), M.step s = .next t → M.run (k + 1) s = M.run k t := by
    intro M s t h
    simp only [Host.Core.run, h]
  exact gen Sys2Proof.core s t h

/-- A run of one step is that step. -/
theorem run_one (s : State) : Sys2Proof.core.run 1 s = step s := by
  have gen : ∀ (M : Host.Core) (s : M.State), M.run 1 s = M.step s := by
    intro M s
    simp only [Host.Core.run]
    cases M.step s <;> rfl
  exact gen Sys2Proof.core s

end Sys2Proof.Machine
end

