-- ==== Sys2Proof/Laws/PerInstr.lean ====
section
/-! SUPPORT. The per-instruction families: one lemma per constructor of `Instr`. -/

namespace Sys2Proof.Laws

namespace FixedBits

/-- The word of a row carries the fixed bits that the opcode table gives the row: the type bits [1:0] of a
descriptor or of a descriptor address (R63, R68, R62, R74, R75), the value of a domain field (R76), and the
fixed fields of a coprocessor register transfer (R86). The two register formats have none. -/
def Statement : Instr → Prop
  | .l1Fault ig => field (encode (.l1Fault ig)) 0 2 = 0
  | .l1Coarse base sbz domain imp => field (encode (.l1Coarse base sbz domain imp)) 0 2 = 1
  | .l1Section base sbzHi ap sbz domain imp c b => field (encode (.l1Section base sbzHi ap sbz domain imp c b)) 0 2 = 2
  | .l1Fine base sbz domain imp => field (encode (.l1Fine base sbz domain imp)) 0 2 = 3
  | .l2cFault ig => field (encode (.l2cFault ig)) 0 2 = 0
  | .l2cLarge base sbz ap3 ap2 ap1 ap0 c b => field (encode (.l2cLarge base sbz ap3 ap2 ap1 ap0 c b)) 0 2 = 1
  | .l2cSmall base ap3 ap2 ap1 ap0 c b => field (encode (.l2cSmall base ap3 ap2 ap1 ap0 c b)) 0 2 = 2
  | .l2cTiny und => field (encode (.l2cTiny und)) 0 2 = 3
  | .l2fFault ig => field (encode (.l2fFault ig)) 0 2 = 0
  | .l2fLarge base sbz ap3 ap2 ap1 ap0 c b => field (encode (.l2fLarge base sbz ap3 ap2 ap1 ap0 c b)) 0 2 = 1
  | .l2fSmall base ap3 ap2 ap1 ap0 c b => field (encode (.l2fSmall base ap3 ap2 ap1 ap0 c b)) 0 2 = 2
  | .l2fTiny base sbz ap c b => field (encode (.l2fTiny base sbz ap c b)) 0 2 = 3
  | .dacNoAccess => field (encode (.dacNoAccess)) 0 2 = 0
  | .dacClient => field (encode (.dacClient)) 0 2 = 1
  | .dacReserved => field (encode (.dacReserved)) 0 2 = 2
  | .dacManager => field (encode (.dacManager)) 0 2 = 3
  | .ttb _ _ => True
  | .ctrl _ => True
  | .l1Addr base index => field (encode (.l1Addr base index)) 0 2 = 0
  | .l2AddrCoarse base index => field (encode (.l2AddrCoarse base index)) 0 2 = 0
  | .l2AddrFine base index => field (encode (.l2AddrFine base index)) 0 2 = 0
  | .mcrMrc cond opc1 load crn rd opc2 crm => isCoprocTransfer (encode (.mcrMrc cond opc1 load crn rd opc2 crm)) = true

theorem l1Fault : ∀ ig, Statement (.l1Fault ig) :=
  fun _ => field_append_low _ _ 0 2 (by decide)

theorem l1Coarse : ∀ base sbz domain imp, Statement (.l1Coarse base sbz domain imp) :=
  fun _ _ _ _ => field_append_low _ _ 0 2 (by decide)

theorem l1Section : ∀ base sbzHi ap sbz domain imp c b, Statement (.l1Section base sbzHi ap sbz domain imp c b) :=
  fun _ _ _ _ _ _ _ _ => field_append_low _ _ 0 2 (by decide)

theorem l1Fine : ∀ base sbz domain imp, Statement (.l1Fine base sbz domain imp) :=
  fun _ _ _ _ => field_append_low _ _ 0 2 (by decide)

theorem l2cFault : ∀ ig, Statement (.l2cFault ig) :=
  fun _ => field_append_low _ _ 0 2 (by decide)

theorem l2cLarge : ∀ base sbz ap3 ap2 ap1 ap0 c b, Statement (.l2cLarge base sbz ap3 ap2 ap1 ap0 c b) :=
  fun _ _ _ _ _ _ _ _ => field_append_low _ _ 0 2 (by decide)

theorem l2cSmall : ∀ base ap3 ap2 ap1 ap0 c b, Statement (.l2cSmall base ap3 ap2 ap1 ap0 c b) :=
  fun _ _ _ _ _ _ _ => field_append_low _ _ 0 2 (by decide)

theorem l2cTiny : ∀ und, Statement (.l2cTiny und) :=
  fun _ => field_append_low _ _ 0 2 (by decide)

theorem l2fFault : ∀ ig, Statement (.l2fFault ig) :=
  fun _ => field_append_low _ _ 0 2 (by decide)

theorem l2fLarge : ∀ base sbz ap3 ap2 ap1 ap0 c b, Statement (.l2fLarge base sbz ap3 ap2 ap1 ap0 c b) :=
  fun _ _ _ _ _ _ _ _ => field_append_low _ _ 0 2 (by decide)

theorem l2fSmall : ∀ base ap3 ap2 ap1 ap0 c b, Statement (.l2fSmall base ap3 ap2 ap1 ap0 c b) :=
  fun _ _ _ _ _ _ _ => field_append_low _ _ 0 2 (by decide)

theorem l2fTiny : ∀ base sbz ap c b, Statement (.l2fTiny base sbz ap c b) :=
  fun _ _ _ _ _ => field_append_low _ _ 0 2 (by decide)

theorem dacNoAccess : Statement (.dacNoAccess) :=
  field_append_low _ _ 0 2 (by decide)

theorem dacClient : Statement (.dacClient) :=
  field_append_low _ _ 0 2 (by decide)

theorem dacReserved : Statement (.dacReserved) :=
  field_append_low _ _ 0 2 (by decide)

theorem dacManager : Statement (.dacManager) :=
  field_append_low _ _ 0 2 (by decide)

theorem ttb : ∀ base sbz, Statement (.ttb base sbz) :=
  fun _ _ => trivial

theorem ctrl : ∀ value, Statement (.ctrl value) :=
  fun _ => trivial

theorem l1Addr : ∀ base index, Statement (.l1Addr base index) :=
  fun _ _ => field_append_low _ _ 0 2 (by decide)

theorem l2AddrCoarse : ∀ base index, Statement (.l2AddrCoarse base index) :=
  fun _ _ => field_append_low _ _ 0 2 (by decide)

theorem l2AddrFine : ∀ base index, Statement (.l2AddrFine base index) :=
  fun _ _ => field_append_low _ _ 0 2 (by decide)

theorem mcrMrc : ∀ cond opc1 load crn rd opc2 crm, Statement (.mcrMrc cond opc1 load crn rd opc2 crm) := by
  intro cond opc1 load crn rd opc2 crm
  have h1 : field (encode (.mcrMrc cond opc1 load crn rd opc2 crm)) 24 4 = 0b1110#4 := by
    unfold field encode
    dsimp only
    rw [field_append_high (h := by decide), field_append_high (h := by decide),
      field_append_high (h := by decide), field_append_high (h := by decide),
      field_append_high (h := by decide), field_append_high (h := by decide),
      field_append_high (h := by decide), field_append_high (h := by decide),
      field_append_low (h := by decide)]
    exact field_whole _
  have h2 : field (encode (.mcrMrc cond opc1 load crn rd opc2 crm)) 8 4 = 0b1111#4 := by
    unfold field encode
    dsimp only
    rw [field_append_high (h := by decide), field_append_high (h := by decide),
      field_append_high (h := by decide), field_append_low (h := by decide)]
    exact field_whole _
  have h3 : field (encode (.mcrMrc cond opc1 load crn rd opc2 crm)) 4 1 = 0b1#1 := by
    unfold field encode
    dsimp only
    rw [field_append_high (h := by decide), field_append_low (h := by decide)]
    exact field_whole _
  show isCoprocTransfer _ = true
  unfold isCoprocTransfer
  rw [h1, h2, h3]
  decide

end FixedBits

end Sys2Proof.Laws
end

