-- ==== Sys2Proof/Tests/Slice0.lean ====
section
/-! SUPPORT. The model's own tests: the well-formedness smoke, the decoding of every row from a word of the
spec, single steps against the vectors of `95_test_vectors.md`, and a witness for the hypotheses of every
statement. Every expected value is the spec's: the vector that gives it is named before the test. -/

namespace Sys2Proof.Tests

open Sys2Proof.Machine

/-! ## Well-formedness: an ill-formed term for each check -/

theorem test_wf_refuses_coarse_sbz : (Instr.l1Coarse 0 1 0 0).wellFormed = false := by decide
theorem test_wf_refuses_section_sbz_19_12 :
    (Instr.l1Section 0 0x80 3 0 0 1 false false).wellFormed = false := by decide
theorem test_wf_refuses_section_sbz_9 :
    (Instr.l1Section 0 0 3 1 0 1 false false).wellFormed = false := by decide
theorem test_wf_refuses_fine_sbz : (Instr.l1Fine 0 4 0 0).wellFormed = false := by decide
theorem test_wf_refuses_large_sbz_coarse :
    (Instr.l2cLarge 0 1 0 0 0 0 false false).wellFormed = false := by decide
theorem test_wf_refuses_large_sbz_fine :
    (Instr.l2fLarge 0 8 0 0 0 0 false false).wellFormed = false := by decide
theorem test_wf_refuses_tiny_sbz : (Instr.l2fTiny 0 2 0 false false).wellFormed = false := by decide
theorem test_wf_refuses_tiny_in_coarse : (Instr.l2cTiny 0).wellFormed = false := by decide
theorem test_wf_refuses_reserved_domain : Instr.dacReserved.wellFormed = false := by decide
theorem test_wf_refuses_ttb_sbz : (Instr.ttb 0 1).wellFormed = false := by decide
theorem test_wf_takes_the_vectors :
    (Instr.l1Section 0x456 0 3 0 0 1 false false).wellFormed = true ∧
      (Instr.l2fTiny 0x2EB71 0 2 true true).wellFormed = true ∧ Instr.dacClient.wellFormed = true := by
  decide
theorem test_wf_config_default : resetConfig.wellFormed = true := by decide
theorem test_wf_config_s_on_m : { resetConfig with sBitPos := 0 }.wellFormed = false := by decide
theorem test_wf_config_r_on_m : { resetConfig with rBitPos := 0 }.wellFormed = false := by decide
theorem test_wf_config_s_on_r : { resetConfig with sBitPos := 9 }.wellFormed = false := by decide
theorem test_wf_config_dacr_order :
    { resetConfig with
      dacrFieldOrder := #v[0, 0, 2, 3, 4, 5, 6, 7, 8, 9, 10, 11, 12, 13, 14, 15] }.wellFormed = false := by decide
theorem test_wf_config_tlb_entries : { resetConfig with tlbEntries := some 0 }.wellFormed = false := by decide
theorem test_wf_config_dacr_1 : { resetConfig with dacrRegnum := 1 }.wellFormed = false := by decide
theorem test_wf_config_dacr_2 : { resetConfig with dacrRegnum := 2 }.wellFormed = false := by decide
theorem test_wf_config_dacr_5 : { resetConfig with dacrRegnum := 5 }.wellFormed = false := by decide
theorem test_wf_config_dacr_6 : { resetConfig with dacrRegnum := 6 }.wellFormed = false := by decide
theorem test_wf_config_dacr_8 : { resetConfig with dacrRegnum := 8 }.wellFormed = false := by decide

/-! ## Decoding: every row from a word of the spec's encoding -/

/-- V-E2. -/
theorem test_decode_l1Fault : decodeWord .l1Desc 0xFFFFFFFC = .ok (.l1Fault 0x3FFFFFFF) := by decide
/-- V-E3. -/
theorem test_decode_l1Coarse : decodeWord .l1Desc 0x00402C41 = .ok (.l1Coarse 0x100B 0 2 0) := by decide
/-- V-E5. -/
theorem test_decode_l1Section :
    decodeWord .l1Desc 0x00100822 = .ok (.l1Section 0x001 0 2 0 1 0 false false) := by decide
/-- V-E6. -/
theorem test_decode_l1Fine : decodeWord .l1Desc 0x00405023 = .ok (.l1Fine 0x405 0 1 0) := by decide
/-- V-E11. -/
theorem test_decode_l2cFault :
    decodeWord (.l2Desc .coarse) 0xFFFFFFFC = .ok (.l2cFault 0x3FFFFFFF) := by decide
/-- V-E7. -/
theorem test_decode_l2cLarge :
    decodeWord (.l2Desc .coarse) 0x89AB0E49 = .ok (.l2cLarge 0x89AB 0 3 2 1 0 true false) := by decide
/-- V-E8. -/
theorem test_decode_l2cSmall :
    decodeWord (.l2Desc .coarse) 0xCDEF1E46 = .ok (.l2cSmall 0xCDEF1 3 2 1 0 false true) := by decide
/-- V-E10: 0x0BADC42F is 0x02EB710B followed by `0b11`. -/
theorem test_decode_l2cTiny :
    decodeWord (.l2Desc .coarse) 0x0BADC42F = .ok (.l2cTiny 0x02EB710B) := by decide
/-- V-E11. -/
theorem test_decode_l2fFault :
    decodeWord (.l2Desc .fine) 0xFFFFFFFC = .ok (.l2fFault 0x3FFFFFFF) := by decide
/-- V-E7. -/
theorem test_decode_l2fLarge :
    decodeWord (.l2Desc .fine) 0x89AB0E49 = .ok (.l2fLarge 0x89AB 0 3 2 1 0 true false) := by decide
/-- V-E8. -/
theorem test_decode_l2fSmall :
    decodeWord (.l2Desc .fine) 0xCDEF1E46 = .ok (.l2fSmall 0xCDEF1 3 2 1 0 false true) := by decide
/-- V-E9: the base is 0x0BADC400[31:10]. -/
theorem test_decode_l2fTiny :
    decodeWord (.l2Desc .fine) 0x0BADC42F = .ok (.l2fTiny 0x02EB71 0 2 true true) := by decide
/-- R76: the four values of the field. -/
theorem test_decode_dacFields :
    decodeWord .dacField 0 = .ok .dacNoAccess ∧ decodeWord .dacField 1 = .ok .dacClient ∧
      decodeWord .dacField 2 = .ok .dacReserved ∧ decodeWord .dacField 3 = .ok .dacManager := by decide
/-- R76: a field has two bits. -/
theorem test_decode_dacField_refused : decodeWord .dacField 4 = .error .notADomainField := by decide
/-- V-C5's value: base 0x00304000, should-be-zero bits 0x123. -/
theorem test_decode_ttb : decodeWord .ttbReg 0x00304123 = .ok (.ttb 0xC1 0x123) := by decide
/-- P2 step 11: `M = 1`, `R = 1` at bit 9. -/
theorem test_decode_ctrl : decodeWord .ctrlReg 0x00000201 = .ok (.ctrl 0x201) := by decide
/-- V-A3: table 0x00304000, index 0x123. -/
theorem test_decode_l1Addr : decodeWord .l1Addr 0x0030448C = .ok (.l1Addr 0xC1 0x123) := by decide
/-- R62: bits [1:0] are zero. -/
theorem test_decode_l1Addr_refused : decodeWord .l1Addr 0x0030448E = .error .notADescriptorAddress := by
  decide
/-- V-A7: table 0x00402C00, index 0x45. -/
theorem test_decode_l2AddrCoarse :
    decodeWord (.l2Addr .coarse) 0x00402D14 = .ok (.l2AddrCoarse 0x100B 0x45) := by decide
/-- V-A12: table 0x00405000, index 0x115. -/
theorem test_decode_l2AddrFine :
    decodeWord (.l2Addr .fine) 0x00405454 = .ok (.l2AddrFine 0x405 0x115) := by decide
/-- P1 step 5: `MCR p15,0,r0,c8,c7,0`. -/
theorem test_decode_mcr : decodeWord .coproc 0xEE080F17 = .ok (.mcrMrc 14 0 false 8 0 0 7) := by decide
/-- R86 written out: cond 1110, 1110, opc1 000, L 1, CRn 0011, Rd 0101, 1111, opc2 000, 1, CRm 0000. -/
theorem test_decode_mrc :
    decodeWord .coproc 0b1110_1110_000_1_0011_0101_1111_000_1_0000 = .ok (.mcrMrc 14 0 true 3 5 0 0) := by
  decide
/-- R86: coprocessor 14 is not coprocessor 15. -/
theorem test_decode_coproc_refused :
    decodeWord .coproc 0xEE080E17 = .error .notACoprocessorTransfer := by decide
/-- The bytes of V-E4 in both byte orders (R45). -/
theorem test_decode_bytes :
    decode .little .l1Desc [0x12, 0x0C, 0x60, 0x45, 0xAA] =
        .ok (.l1Section 0x456 0 3 0 0 1 false false, [0xAA]) ∧
      decode .big .l1Desc [0x45, 0x60, 0x0C, 0x12] = .ok (.l1Section 0x456 0 3 0 0 1 false false, []) := by
  decide
/-- Three bytes are no descriptor. -/
theorem test_decode_truncated : decode .little .l1Desc [0x12, 0x0C, 0x60] = .error .truncated := by decide
/-- Bare table words (log entry 2). -/
theorem test_decodeTableWord :
    decodeTableWord 8 1 = some .dacClient ∧
      decodeTableWord 32 0xEE020F10 = some (.mcrMrc 14 0 false 2 0 0 0) ∧
      decodeTableWord 32 0x45600C12 = some (.l1Section 0x456 0 3 0 0 1 false false) := by decide
/-- A bare word runs as the first step after reset (log entry 2). -/
theorem test_withFetchWord_runs :
    ∃ t, step (State.reset.withFetchWord 32 0) = .next t ∧
      t.outputs = [.abort (.translation .sect) 0] := ⟨_, rfl, rfl⟩

/-! ## Small states -/

/-- Main memory that holds words at addresses, in little-endian order. -/
def memOf : List (Word × Word) → Memory
  | [] => []
  | (a, w) :: rest => (memOf rest).writeBytes a (bytesOfWord .little w)

/-- The MMU enabled, over some tables. -/
def on (ttb dac : Word) (words : List (Word × Word)) : State :=
  { State.reset with ctrl := 1, ttb := ttb, dac := dac, mem := memOf words, cacheHolds := false }

/-- The first-level table and the second-level table of the vectors V-W, with two descriptors in them. -/
def tables (l1d a2 l2d : Word) : State := on 0x00304000 1 [(0x0030448C, l1d), (a2, l2d)]

/-- What a result answers, if it is a next state. -/
def next? : Result → Option State
  | .next s => some s
  | .fault _ => none
  | .refused _ => none

/-- The fault a result stops with, if it does. -/
def fault? : Result → Option Fault
  | .next _ => none
  | .fault f => some f
  | .refused _ => none

/-- The refusal a result stops with, if it does. -/
def refusal? : Result → Option Refusal
  | .next _ => none
  | .fault _ => none
  | .refused r => some r

/-- A read of one word by the user. -/
def userRead (va : Word) : Access := ⟨va, .read 4, .user⟩

/-- A write of one byte by the user. -/
def userWrite (va : Word) : Access := ⟨va, .write [0x5A], .user⟩

/-- A state with an access to take. -/
def asked (a : Access) (s : State) : State := s.withInputs [.access a]

/-- A state with a control operation to take, in privileged state. -/
def askedControl (op : ControlOp) (s : State) : State := s.withInputs [.control op .privileged]

/-- The entry of V-W1. -/
def entryW1 : TlbEntry := ⟨.sect 0x123 0x456 3, 0, false, false, false⟩

/-- The entry of V-W2. -/
def entryW2 : TlbEntry := ⟨.large 0x1234 0x89AB 3 2 1 0, 0, true, false, false⟩

/-- The entry of V-W3. -/
def entryW3 : TlbEntry := ⟨.small 0x12345 0xCDEF1 3 2 1 0, 0, false, true, false⟩

/-- The entry of V-W4. -/
def entryW4 : TlbEntry := ⟨.tiny 0x048D15 0x02EB71 2, 1, true, true, false⟩

/-- The entry of V-W1, locked. -/
def lockedW1 : TlbEntry := { entryW1 with locked := true }

/-- A walk for the access of the vectors V-W, at a first-level descriptor. -/
def atL1 (d : Word) : State := (tables 0 0 0).withPhase (.l1Desc d (.access (userRead 0x12345678)))

/-- The same at a second-level descriptor. -/
def atL2 (t : TableKind) (d : Word) (domain : BitVec 4) : State :=
  (tables 0 0 0).withPhase (.l2Desc t d domain (.access (userRead 0x12345678)))

/-- The check of an access through an entry. -/
def atCheck (dac : Word) (e : TlbEntry) (a : Access) : State := (on 0x00304000 dac []).withPhase (.check e a)

/-! ## Addresses -/

/-- V-A2, V-A3, V-A4, V-A5. -/
theorem test_l1_addresses :
    l1DescAddr 0x00300000 0xFFFFFFFF = 0x00303FFC ∧ l1DescAddr 0x00304000 0x12345678 = 0x0030448C ∧
      l1DescAddr 0xFFFFC000 0xABCDEF01 = 0xFFFFEAF0 ∧ l1DescAddr 0x00303FFF 0x12345678 = 0x0030048C := by
  decide
/-- V-P1, V-P5, V-P7, V-P10. -/
theorem test_physical_addresses :
    entryW1.mapping.physAddr 0x12345678 = 0x45645678 ∧
      (Mapping.large 0 0xFFFF 3 3 3 3).physAddr 0x0000FFFF = 0xFFFFFFFF ∧
      entryW3.mapping.physAddr 0x12345678 = 0xCDEF1678 ∧
      entryW4.mapping.physAddr 0x12345678 = 0x0BADC678 := by decide
/-- V-L2 to V-L5. -/
theorem test_matches :
    entryW1.mapping.covers 0x12400000 = false ∧
      entryW2.mapping.covers 0x1234FFFF = true ∧ entryW2.mapping.covers 0x12350000 = false ∧
      entryW3.mapping.covers 0x12345FFF = true ∧ entryW3.mapping.covers 0x12346000 = false ∧
      entryW4.mapping.covers 0x123457FF = true ∧ entryW4.mapping.covers 0x12345800 = false ∧
      entryW4.mapping.covers 0x123453FF = false := by decide
/-- V-U2 to V-U6: the permission of each subpage. -/
theorem test_subpages :
    entryW2.mapping.ap 0x12343FFF = 0 ∧ entryW2.mapping.ap 0x12344000 = 1 ∧
      entryW2.mapping.ap 0x12348000 = 2 ∧ entryW2.mapping.ap 0x1234FFFF = 3 := by decide

/-! ## Whole walks -/

/-- V-W1. -/
theorem test_walk_section : (tables 0x45600C12 0 0).walk 0x12345678 = .entry entryW1 := by decide
/-- V-W2. -/
theorem test_walk_large : (tables 0x00402C01 0x00402D14 0x89AB0E49).walk 0x12345678 = .entry entryW2 := by
  decide
/-- V-W4. -/
theorem test_walk_tiny : (tables 0x00405023 0x00405454 0x0BADC42F).walk 0x12345678 = .entry entryW4 := by
  decide
/-- V-W7. -/
theorem test_walk_tiny_in_coarse :
    (tables 0x00402C01 0x00402D14 0x0BADC42F).walk 0x12345678 = .tinyInCoarse := by decide
/-- V-W10. -/
theorem test_walk_page_fault :
    (tables 0x00405023 0x00405454 0xFFFFFFFC).walk 0x12345678 = .abort (.translation .page) (some 1) := by
  decide

/-! ## One step of each row -/

/-- V-W8: `L1_FAULT`. -/
theorem test_l1Fault :
    (next? (step (atL1 0xFFFFFFFC))).map (fun t => (t.outputs, t.lastFault, t.tlb)) =
      some ([.abort (.translation .sect) 0x12345678], some ⟨.translation .sect, 0x12345678, none⟩, []) := by
  decide
/-- V-A8: `L1_COARSE` with every ignored bit one. -/
theorem test_l1Coarse :
    (next? (step (atL1 0x00402FFD))).map (·.phase) =
      some (.l2Addr .coarse 0x00402D14 15 (.access (userRead 0x12345678))) := by decide
/-- V-W1: `L1_SECTION`. -/
theorem test_l1Section :
    (next? (step (atL1 0x45600C12))).map (fun t => (t.phase, t.tlb)) =
      some (.check entryW1 (userRead 0x12345678), [.entry entryW1]) := by decide
/-- V-A15: `L1_FINE` with a nonzero should-be-zero field. -/
theorem test_l1Fine :
    (next? (step (atL1 0x00405E23))).map (·.phase) =
      some (.l2Addr .fine 0x00405454 1 (.access (userRead 0x12345678))) := by decide
/-- V-A15 under `SBZ_POLICY = refuse`. -/
theorem test_l1Fine_refused :
    refusal? (step { atL1 0x00405E23 with cfg := { resetConfig with sbzPolicy := .refuseBits } }) =
      some .sbzNonzero := by decide
/-- V-W9: `L2C_FAULT`. -/
theorem test_l2cFault :
    (next? (step (atL2 .coarse 0xFFFFFFFC 0))).map (fun t => (t.outputs, t.lastFault)) =
      some ([.abort (.translation .page) 0x12345678], some ⟨.translation .page, 0x12345678, some 0⟩) := by
  decide
/-- V-W2: `L2C_LARGE`. -/
theorem test_l2cLarge :
    (next? (step (atL2 .coarse 0x89AB0E49 0))).map (·.tlb) = some [.entry entryW2] := by decide
/-- V-W3: `L2C_SMALL`. -/
theorem test_l2cSmall :
    (next? (step (atL2 .coarse 0xCDEF1E46 0))).map (·.tlb) = some [.entry entryW3] := by decide
/-- V-W7: `L2C_TINY`. -/
theorem test_l2cTiny : fault? (step (atL2 .coarse 0x0BADC42F 0)) = some .tinyInCoarse := by decide
/-- V-W10: `L2F_FAULT`. -/
theorem test_l2fFault :
    (next? (step (atL2 .fine 0xFFFFFFFC 1))).map (·.lastFault) =
      some (some ⟨.translation .page, 0x12345678, some 1⟩) := by decide
/-- V-W5: `L2F_LARGE`. -/
theorem test_l2fLarge :
    (next? (step (atL2 .fine 0x89AB0E49 1))).map (·.tlb) = some [.entry { entryW2 with domain := 1 }] := by decide
/-- V-W6: `L2F_SMALL`. -/
theorem test_l2fSmall :
    (next? (step (atL2 .fine 0xCDEF1E46 1))).map (·.tlb) = some [.entry { entryW3 with domain := 1 }] := by decide
/-- V-W4: `L2F_TINY`. -/
theorem test_l2fTiny : (next? (step (atL2 .fine 0x0BADC42F 1))).map (·.tlb) = some [.entry entryW4] := by decide
/-- V-D3 and V-D5: `DAC_NOACCESS`. -/
theorem test_dacNoAccess :
    (next? (step (atCheck 0xFFFFFFF3 entryW4 (userWrite 0x12345678)))).map (fun t => (t.outputs, t.mem)) =
      some ([.abort (.domain .page) 0x12345678], []) := by decide
/-- R169: the status of a page domain fault is `0b1011`, its domain 1. -/
theorem test_faultRegisters :
    (next? (step (atCheck 0 entryW4 (userWrite 0x12345678)))).map (fun t => (t.fsr, t.far)) =
      some (0x1B, 0x12345678) := by decide
/-- V-D1: `DAC_CLIENT`, AP `0b10`, a write by the user. -/
theorem test_dacClient_aborts :
    (next? (step (atCheck 0x4 entryW4 (userWrite 0x12345678)))).map (fun t => (t.outputs, t.mem)) =
      some ([.abort (.permission .page) 0x12345678], []) := by decide
/-- V-T4: `DAC_CLIENT`, AP `0b00`, S and R both set. -/
theorem test_dacClient_unpredictable :
    fault? (step { atCheck 0x1 { entryW1 with mapping := .sect 0x123 0x456 0 } (userRead 0x12345678) with
      ctrl := 0x301 }) = some .apWithSystemAndRom := by decide
/-- V-D4: `DAC_RESERVED`. -/
theorem test_dacReserved :
    fault? (step (atCheck 0x8 entryW4 (userWrite 0x12345678))) = some .domainReserved := by decide
/-- V-D2: `DAC_MANAGER`; the byte is at the physical address. -/
theorem test_dacManager :
    (next? (step (atCheck 0xC entryW4 (userWrite 0x12345678)))).map (fun t => (t.outputs, t.mem)) =
      some ([.ok 0x0BADC678 true true []], [(0x0BADC678, 0x5A)]) := by decide
/-- V-C4: `TTB`. -/
theorem test_ttb :
    (next? (step { on 0 0 [] with phase := .ttbWrite 0x00304000 .privileged, tlb := [.entry entryW1] })).map
      (fun t => (t.ttb, t.tlb)) = some (0x00304000, [.entry entryW1]) := by decide
/-- V-C3: `CTRL` disables the MMU, from code that the tables map to itself (P1's table); the TLB stays. -/
theorem test_ctrl_disables :
    (next? (step { on 0x4000 1 [(0x4000, 0x00000C0E)] with
      phase := .ctrlWrite 0 0x8004 .privileged, tlb := [.entry entryW1] })).map (fun t => (t.mmuOn, t.tlb)) =
      some (false, [.entry entryW1]) := by decide
/-- P1 step 6 from code that is not mapped to itself (R198). -/
theorem test_ctrl_refused :
    refusal? (step { on 0x4000 1 [] with ctrl := 0, phase := .ctrlWrite 1 0x8004 .privileged }) =
      some .enableNotIdentityMapped := by decide
/-- V-W1's first read: `L1_ADDR`. -/
theorem test_l1Addr :
    (next? (step ((tables 0x45600C12 0 0).withPhase
        (.l1Addr 0x0030448C (.access (userRead 0x12345678)))))).map (fun t => (t.phase, t.walkReads)) =
      some (.l1Desc 0x45600C12 (.access (userRead 0x12345678)), [0x0030448C]) := by decide
/-- V-W2's second read: `L2_ADDR_COARSE`. -/
theorem test_l2AddrCoarse :
    (next? (step ((tables 0 0x00402D14 0x89AB0E49).withPhase
        (.l2Addr .coarse 0x00402D14 0 (.access (userRead 0x12345678)))))).map (·.phase) =
      some (.l2Desc .coarse 0x89AB0E49 0 (.access (userRead 0x12345678))) := by decide
/-- V-W4's second read: `L2_ADDR_FINE`. -/
theorem test_l2AddrFine :
    (next? (step ((tables 0 0x00405454 0x0BADC42F).withPhase
        (.l2Addr .fine 0x00405454 1 (.access (userRead 0x12345678)))))).map (·.phase) =
      some (.l2Desc .fine 0x0BADC42F 1 (.access (userRead 0x12345678))) := by decide
/-- P1 step 4: `MCR p15,0,r0,c3,c0,0` with r0 = 5. -/
theorem test_mcr_dac :
    (next? (step (State.reset.withPhase (.coproc 0xEE030F10 5 0x8000 true .privileged)))).map (·.dac) =
      some 5 := by decide
/-- P1 step 5 and V-C7: `MCR p15,0,r0,c8,c7,0` with a locked entry. -/
theorem test_mcr_flush :
    (next? (step { State.reset with
      phase := .coproc 0xEE080F17 0 0x8000 true .privileged
      tlb := [.entry entryW1, .entry { entryW2 with locked := true }] })).map (·.tlb) =
      some [.entry { entryW2 with locked := true }] := by decide

/-! ## Accesses and control operations -/

/-- V-M1. -/
theorem test_disabled_access :
    (next? (step (asked (userWrite 0xC0001234) State.reset))).map (·.outputs) =
      some [.ok 0xC0001234 false false []] := by decide
/-- V-M3. -/
theorem test_disabled_fetch_split :
    (next? (step (asked ⟨0xFFFFFFFC, .fetch 4, .user⟩
      { State.reset with cfg := { resetConfig with cacheWithMmuOff := true, tlbOrg := .split } }))).map
      (fun t => t.outputs) = some [.ok 0xFFFFFFFC true false [0, 0, 0, 0]] := by decide
/-- V-L2: the read is at 0x00304490. -/
theorem test_miss_walks :
    (next? (step (asked (userRead 0x12400000) { on 0x00304000 1 [] with tlb := [.entry entryW1] }))).map
      (·.phase) = some (.l1Addr 0x00304490 (.access (userRead 0x12400000))) := by decide
/-- D6 with the parameter: a faulting walk is held in the TLB; the region of V-W9 is the 4KB at 0x12345000. -/
theorem test_held_fault :
    ((next? (step { atL2 .coarse 0xFFFFFFFC 0 with
        cfg := { resetConfig with tlbCachesFaults := true } })).map (·.tlb) =
        some [.fault (.coarse 0x12345 0)]) ∧
      HeldFault.covers (.coarse 0x12345 0) 0x12345FFF = true ∧
      HeldFault.covers (.coarse 0x12345 0) 0x12346000 = false := by decide
/-- R20 with `TLB_ENTRIES = 2`: a fill keeps the locked entry and the capacity. -/
theorem test_tlb_capacity :
    (tlbInsert (some 2) (.entry entryW3) [.entry entryW2, .entry lockedW1]) =
      [.entry entryW3, .entry lockedW1] := by decide
/-- R147 and R20 with `TLB_ENTRIES = 1`: a lock overwrites the one unlocked line, whatever V is. -/
theorem test_lock_in_full_tlb :
    tlbInsert (some 1) (.entry lockedW1) (tlbYield (some 1) 0 [.entry entryW2]) = [.entry lockedW1] := by
  cases h : Config.freeEvict 0 0 <;> simp [tlbYield, tlbEvict, h] <;> decide
/-- R147 without a capacity: the union drops nothing. -/
theorem test_lock_unbounded :
    tlbInsert none (.entry lockedW1) (tlbYield none 0 [.entry entryW2]) = [.entry lockedW1, .entry entryW2] := by
  decide
/-- R15 with another `DACR_FIELD_ORDER`: domain 0's field at bits [31:30]. -/
theorem test_dac_field_order :
    dacField { resetConfig with
      dacrFieldOrder := #v[15, 14, 13, 12, 11, 10, 9, 8, 7, 6, 5, 4, 3, 2, 1, 0] } 0xC0000001 0 = 3 := by decide
/-- V-C8. -/
theorem test_flush_split :
    (next? (step (askedControl (.tlbFlush .instruction) { State.reset with
      cfg := { resetConfig with tlbOrg := .split }, itlb := [.entry entryW1], dtlb := [.entry entryW2] }))).map
      (fun t => (t.itlb, t.dtlb)) = some ([], [.entry entryW2]) := by decide

/-! ## Witnesses: a state and operands that meet the hypotheses of each statement

Each theorem is named after the statement whose hypotheses it meets; where a statement has several clauses
or alternatives, each has its own conjunct. -/

/-- The walk of the witnesses. -/
def walkFor : Purpose := .access (userRead 0x12345678)

/-- The `TLBLock` of the witnesses. -/
def lockFor : Purpose := .lock .data 0x12345678

/-- A state that refuses nonzero should-be-zero fields. -/
def strict (s : State) : State := { s with cfg := { resetConfig with sbzPolicy := .refuseBits } }

/-- A state whose TLBs hold translation faults. -/
def holdingFaults (s : State) : State := { s with cfg := { resetConfig with tlbCachesFaults := true } }

/-- Two writes on their way to main memory that have a byte in common, the first a descriptor. -/
def held : List PendingWrite := [⟨0x0030448C, [0x12, 0x0C, 0x60, 0x45]⟩, ⟨0x0030448F, [0x78]⟩]

/-- A state in which those writes are held back. -/
def holding (ph : Phase) (reads : List Word) : State :=
  { tables 0xFFFFFFFC 0 0 with
    cfg := { resetConfig with hasWriteBuffer := true }, pending := held, phase := ph, walkReads := reads }

/-- A transfer in progress, with a value in Rd. -/
def transferring (w v : Word) (cp : Bool) : State :=
  (on 0x4000 1 [(0x4000, 0x00000C0E)]).withPhase (.coproc w v 0x8004 cp .privileged)

theorem inv_holding {ph : Phase} {reads : List Word} (ha : ph.aligned) (hr : ph.readsSoFar reads) :
    (holding ph reads).Inv :=
  ⟨(by decide : (tables 0xFFFFFFFC 0 0).mem.wf), List.nodup_nil, List.nodup_nil, List.nodup_nil,
    (by decide : ∀ p ∈ held, p.data.length ≤ 2 ^ 32), ha, hr, fun _ _ => ⟨nofun, nofun, nofun⟩,
    fun _ => (by decide : (1 : Word).getLsbD 0 = true)⟩

theorem inv_atCheck (dac : Word) (e : TlbEntry) (a : Access) : (atCheck dac e a).Inv :=
  ⟨Memory.wf_nil, List.nodup_nil, List.nodup_nil, List.nodup_nil, (by intro p hp; cases hp), trivial,
    Nat.zero_le _, fun _ _ => ⟨nofun, nofun, nofun⟩,
    fun _ => (by decide : (1 : Word).getLsbD 0 = true)⟩

theorem witness_EncodeOfDecodeIsTheWord :
    decodeWord .l1Desc 0x45600C12 = .ok (.l1Section 0x456 0 3 0 0 1 false false) := by decide
theorem witness_StepRunsTheDecodedRow :
    (State.reset.phase = .idle ∧ State.reset.inputs = []) ∧
      (askedControl (.writeControl 1 0x8004) State.reset).inputs =
        [.control (.writeControl 1 0x8004) .privileged] ∧
      (askedControl (.writeTtb 0x4000) State.reset).inputs = [.control (.writeTtb 0x4000) .privileged] ∧
      (State.reset.withInputs [.coproc 0xEE020F10 0x4000 0 false .user]).inputs =
        [.coproc 0xEE020F10 0x4000 0 false .user] ∧
      decodeWord .ctrlReg 1 = .ok (.ctrl 1) ∧
      decodeWord .ttbReg 0x4000 = .ok (.ttb 1 0) ∧
      decodeWord .coproc 0xEE020F10 = .ok (.mcrMrc 14 0 false 2 0 0 0) ∧
      decodeWord .l1Addr 0x0030448C = .ok (.l1Addr 0xC1 0x123) ∧
      decodeWord .l1Desc 0 = .ok (.l1Fault 0) ∧
      decodeWord (.l2Addr .fine) 0x00405454 = .ok (.l2AddrFine 0x405 0x115) ∧
      decodeWord (.l2Desc .coarse) 3 = .ok (.l2cTiny 0) ∧
      decodeWord .dacField ((dacField resetConfig 0x4 1).setWidth 32) = .ok .dacClient := by decide
theorem witness_FirstLevelFaultAborts :
    (atL1 0).phase.atL1Desc = some walkFor ∧
      ((tables 0 0 0).withPhase (.l1Desc 0 lockFor)).phase.atL1Desc = some lockFor := by decide
theorem witness_PageTableDescriptorFormsTheNextAddress :
    ((atL1 0x1).phase.atL1Desc = some walkFor ∧ (atL1 0x1).cfg.sbzPolicy = .ignoreBits) ∧
      (strict (atL1 0x1)).phase.atL1Desc = some walkFor := by decide
theorem witness_SectionDescriptorEndsTheWalk :
    ((atL1 0x2).phase.atL1Desc = some walkFor ∧ (atL1 0x2).cfg.sbzPolicy = .ignoreBits) ∧
      (strict ((tables 0 0 0).withPhase (.l1Desc 0x2 lockFor))).phase.atL1Desc = some lockFor := by decide
theorem witness_SecondLevelFaultAborts :
    (atL2 .coarse 0 0).phase.atL2Desc .coarse = some (0, walkFor) ∧
      (atL2 .fine 0 15).phase.atL2Desc .fine = some (15, walkFor) := by decide
theorem witness_LargePageDescriptorEndsTheWalk :
    (atL2 .coarse 1 0).cfg.sbzPolicy = .ignoreBits ∧
      (atL2 .coarse 1 0).phase.atL2Desc .coarse = some (0, walkFor) ∧
      (strict (atL2 .fine 1 15)).phase.atL2Desc .fine = some (15, walkFor) := by decide
theorem witness_SmallPageDescriptorEndsTheWalk :
    (atL2 .coarse 2 0).phase.atL2Desc .coarse = some (0, walkFor) ∧
      (atL2 .fine 2 15).phase.atL2Desc .fine = some (15, walkFor) := by decide
theorem witness_TinyPageDescriptorEndsTheWalk :
    ((atL2 .fine 3 1).cfg.sbzPolicy = .ignoreBits ∧
      (atL2 .fine 3 1).phase.atL2Desc .fine = some (1, walkFor)) ∧
      (strict (atL2 .fine 3 1)).phase.atL2Desc .fine = some (1, walkFor) := by decide
theorem witness_UnpredictableRowsStop :
    (atL2 .coarse 3 0).phase.atL2Desc .coarse = some (0, walkFor) ∧
      (atCheck 0x8 entryW4 (userRead 0x12345678)).phase = .check entryW4 (userRead 0x12345678) := by decide
theorem witness_DescriptorIsReadFromMainMemory :
    (tables 0 0 0).drained ∧
      ((tables 0 0 0).withPhase (.l1Addr 0x0030448C walkFor)).phase.atL1Addr = some walkFor ∧
      ((tables 0 0 0).withPhase (.l2Addr .coarse 0xFFFFFFFC 2 walkFor)).phase.atL2Addr .coarse =
        some (2, walkFor) ∧
      ((tables 0 0 0).withPhase (.l2Addr .fine 0 3 lockFor)).phase.atL2Addr .fine = some (3, lockFor) :=
  ⟨rfl, rfl, rfl, rfl⟩
theorem witness_DescriptorReadMayLetWritesArrive_first :
    (holding (.l1Addr 0x0030448C walkFor) []).Inv ∧
      (holding (.l1Addr 0x0030448C walkFor) []).phase.atL1Addr = some walkFor :=
  ⟨inv_holding (by decide : field (0x0030448C : Word) 0 2 = 0) rfl, rfl⟩
theorem witness_DescriptorReadMayLetWritesArrive_coarse :
    (holding (.l2Addr .coarse 0xFFFFFFFC 2 walkFor) [0]).Inv ∧
      (holding (.l2Addr .coarse 0xFFFFFFFC 2 walkFor) [0]).phase.atL2Addr .coarse = some (2, walkFor) :=
  ⟨inv_holding (by decide : field (0xFFFFFFFC : Word) 0 2 = 0) rfl, rfl⟩
theorem witness_DescriptorReadMayLetWritesArrive_fine :
    (holding (.l2Addr .fine 0 3 lockFor) [0]).Inv ∧
      (holding (.l2Addr .fine 0 3 lockFor) [0]).phase.atL2Addr .fine = some (3, lockFor) :=
  ⟨inv_holding (by decide : field (0 : Word) 0 2 = 0) rfl, rfl⟩
theorem witness_ArrivingWritesKeepTheProcessorsView :
    (holding .idle []).Inv ∧ (holding .idle []).pending ≠ [] :=
  ⟨inv_holding trivial (Nat.zero_le _), by decide⟩
theorem witness_NoAccessDomainAborts :
    (atCheck 0 entryW4 (userRead 0x12345678)).phase = .check entryW4 (userRead 0x12345678) := rfl
/-- The last word of the section: the access ends where its region ends. -/
theorem witness_ManagerDomainAllows :
    (atCheck 0x3 entryW1 (userRead 0x123FFFFC)).Inv ∧
      (atCheck 0x3 entryW1 (userRead 0x123FFFFC)).phase = .check entryW1 (userRead 0x123FFFFC) ∧
      (userRead 0x123FFFFC).transfer.size = entryW1.mapping.room (userRead 0x123FFFFC).va :=
  ⟨inv_atCheck _ _ _, rfl, by decide⟩
/-- A read by the user in the subpage whose permission is read-only (V-U4). -/
theorem witness_ClientDomainAllowsByPermission :
    (atCheck 0x1 entryW2 (userRead 0x12348000)).Inv ∧
      (atCheck 0x1 entryW2 (userRead 0x12348000)).phase = .check entryW2 (userRead 0x12348000) ∧
      permission (entryW2.mapping.ap 0x12348000) false false .user = some .readOnly ∧
      Permission.readOnly.allows (userRead 0x12348000).kind = true ∧
      (userRead 0x12348000).transfer.size ≤ entryW2.mapping.room 0x12348000 :=
  ⟨inv_atCheck _ _ _, rfl, by decide, rfl, by decide⟩
theorem witness_ClientDomainAbortsByPermission :
    (atCheck 0x1 entryW2 (userWrite 0x12348000)).phase = .check entryW2 (userWrite 0x12348000) ∧
      permission (entryW2.mapping.ap 0x12348000) false false .user = some .readOnly ∧
      Permission.readOnly.allows (userWrite 0x12348000).kind = false := by decide
theorem witness_CheckStepFollowsTheWholeCheck :
    (userWrite 0x123457FF).transfer.size = entryW4.mapping.room 0x123457FF ∧
      dacField resetConfig 0xFFFFFFF3 1 = 0b00 ∧ dacField resetConfig 0x8 1 = 0b10 ∧ dacField resetConfig 0xC 1 = 0b11 ∧
      dacField resetConfig 0x4 1 = 0b01 := by decide
theorem witness_UnpredictableExactlyInTheThreeConditions :
    (field (0x0BADC42F : Word) 0 2 = 0b11 ∧
      (atL2 .coarse 0x0BADC42F 0).phase = .l2Desc .coarse 0x0BADC42F 0 walkFor) ∧
      dacField resetConfig 0x8 1 = 0b10 ∧
      (dacField resetConfig 0x1 0 = 0b01 ∧ (Mapping.sect 0x123 0x456 0).ap 0x12345678 = 0b00 ∧
        ({ State.reset with ctrl := 0x301 } : State).systemBit = true ∧
        ({ State.reset with ctrl := 0x301 } : State).romBit = true) := by decide
theorem witness_UnpredictableExactlyInTheThreeConditions_legal :
    (on 0x00304000 0x55555555 []).noReservedDomain ∧ (on 0x00304000 0x55555555 []).notBothSystemAndRom ∧
      (on 0x00304000 0x55555555 []).noTinyInCoarse :=
  ⟨by unfold State.noReservedDomain; decide, by unfold State.notBothSystemAndRom; decide,
    fun _ _ _ h => nomatch h⟩
theorem witness_FormsOutsideTheSpecAreRefusedByName_sbz :
    (strict (atL1 0x201)).cfg.sbzPolicy = .refuseBits ∧
      (strict (atL1 0x201)).phase.atL1Desc = some walkFor ∧
      (strict (atL2 .coarse 0x1001 0)).phase.atL2Desc .coarse = some (0, walkFor) ∧
      (strict (atL2 .fine 0x1001 0)).phase.atL2Desc .fine = some (0, walkFor) ∧
      (strict ((on 0 0 []).withPhase (.ttbWrite 1 .privileged))).phase = .ttbWrite 1 .privileged := by decide
/-- One byte too many for the section, and for the flat address space. -/
theorem witness_FormsOutsideTheSpecAreRefusedByName_spans :
    (atCheck 0x3 entryW1 (userRead 0x123FFFFD)).phase = .check entryW1 (userRead 0x123FFFFD) ∧
      entryW1.mapping.room 0x123FFFFD < (userRead 0x123FFFFD).transfer.size ∧
      permission (entryW1.mapping.ap 0x123FFFFD) false false .user = some .readWrite ∧
      2 ^ 32 - (0xFFFFFFFD : Word).toNat < (userRead 0xFFFFFFFD).transfer.size := by decide
theorem witness_FormsOutsideTheSpecAreRefusedByName_lockdown :
    (askedControl (.tlbLock .data 0)
        { State.reset with cfg := { resetConfig with tlbLockdown := false } }).cfg.tlbLockdown = false ∧
      (askedControl (.tlbLock .data 0) State.reset).inputs = [.control (.tlbLock .data 0) .privileged] ∧
      (askedControl (.tlbUnlock .data lockedW1) State.reset).inputs =
        [.control (.tlbUnlock .data lockedW1) .privileged] := by decide
/-- A word for coprocessor 14, a transfer that would enable the MMU from code that is not mapped to itself, one
that writes a nonzero should-be-zero field, and one to register 7. -/
theorem witness_FormsOutsideTheSpecAreRefusedByName_transfer :
    (isCoprocTransfer 0xEE080E17 = false ∧
        (transferring 0xEE080E17 0 true).phase = .coproc 0xEE080E17 0 0x8004 true .privileged) ∧
      ((0 : Word).getLsbD 0 ≠ (on 0 0 []).ctrl.getLsbD 0 ∧ ¬ (on 0 0 []).identityMapped 0x8004) ∧
      ((strict (transferring 0xEE020F10 1 true)).cfg.sbzPolicy = .refuseBits ∧
        field (1 : Word) 0 14 ≠ 0) ∧
      ((7 : BitVec 4) ≠ 8 ∧ (7 : BitVec 4) ≠ 1 ∧ (7 : BitVec 4) ≠ 2 ∧ (7 : BitVec 4) ≠ resetConfig.dacrRegnum ∧
        (7 : BitVec 4) ≠ 5 ∧ (7 : BitVec 4) ≠ 6) := by
  rw [← State.mapsToItself_iff]
  decide
theorem witness_FormsOutsideTheSpecAreRefusedByName_control :
    (on 0x4000 1 []).ctrl.getLsbD 0 ≠ (0 : Word).getLsbD 0 ∧
      ¬ (on 0x4000 1 []).identityMapped 0x8004 ∧
      (transferring 0xEE220F10 0 true).phase = .coproc 0xEE220F10 0 0x8004 true .privileged := by
  rw [← State.mapsToItself_iff]
  decide
/-- The last word of the address space. -/
theorem witness_DisabledAccessIsFlat :
    (asked (userRead 0xFFFFFFFC) State.reset).phase = .idle ∧
      (asked (userRead 0xFFFFFFFC) State.reset).inputs = [.access (userRead 0xFFFFFFFC)] ∧
      (asked (userRead 0xFFFFFFFC) State.reset).ctrl.getLsbD 0 = false ∧
      (userRead 0xFFFFFFFC).transfer.size = 2 ^ 32 - (0xFFFFFFFC : Word).toNat := by decide
/-- An access, and a `TLBLock` whose walk meets a fault descriptor, with the MMU disabled. -/
theorem witness_DisabledMmuGeneratesNoAbort :
    (asked (userRead 0xFFFFFFFC) State.reset).Inv ∧
      (asked (userRead 0xFFFFFFFC) State.reset).ctrl.getLsbD 0 = false ∧
      (∃ t, step (asked (userRead 0xFFFFFFFC) State.reset) = .next t) ∧
      { State.reset with phase := .l1Desc 0 lockFor, walkReads := [0] }.Inv ∧
      ∃ t, step { State.reset with phase := .l1Desc 0 lockFor, walkReads := [0] } = .next t ∧
        t.outputs = [.done] :=
  ⟨⟨Memory.wf_nil, List.nodup_nil, List.nodup_nil, List.nodup_nil, nofun, trivial, Nat.zero_le _,
      fun _ _ => ⟨nofun, nofun, nofun⟩, nofun⟩, rfl, ⟨_, rfl⟩,
    ⟨Memory.wf_nil, List.nodup_nil, List.nodup_nil, List.nodup_nil, nofun, trivial, rfl,
      fun _ _ => ⟨nofun, nofun, nofun⟩, nofun⟩, ⟨_, rfl, rfl⟩⟩
theorem witness_TlbMissStartsTheWalk :
    (asked (userRead 0x12400000) { tables 0 0 0 with tlb := [.entry entryW1] }).phase = .idle ∧
      (asked (userRead 0x12400000) { tables 0 0 0 with tlb := [.entry entryW1] }).ctrl.getLsbD 0 = true ∧
      ∀ x ∈ (asked (userRead 0x12400000) { tables 0 0 0 with tlb := [.entry entryW1] }).tlbOf .data,
        x.covers 0x12400000 = false := by decide
theorem witness_LookupHitsOrWalks :
    (asked (userRead 0x12345678) { tables 0 0 0 with tlb := [.entry entryW1] }).phase = .idle ∧
      (asked (userRead 0x12345678) { tables 0 0 0 with tlb := [.entry entryW1] }).inputs =
        [.access (userRead 0x12345678)] ∧
      (asked (userRead 0x12345678) { tables 0 0 0 with tlb := [.entry entryW1] }).ctrl.getLsbD 0 = true := by decide
theorem witness_LockedEntryForbidsTheWalk :
    (asked (userRead 0x12345678) { tables 0 0 0 with tlb := [.entry lockedW1] }).phase =
        .idle ∧
      ∃ x ∈ (asked (userRead 0x12345678)
          { tables 0 0 0 with tlb := [.entry lockedW1] }).tlbOf .data,
        x.covers 0x12345678 = true ∧ x.locked = true :=
  ⟨rfl, _, List.mem_singleton.mpr rfl, by decide, rfl⟩
/-- A walk for an access, and one for a `TLBLock` that meets tables which `SBZ_POLICY = refuse` refuses. -/
theorem witness_MachineWalkIsTheWalkOfTheSpec :
    (((tables 0x45600C12 0 0).withPhase (.l1Addr 0x0030448C walkFor)).phase =
        .l1Addr (l1DescAddr 0x00304000 0x12345678) walkFor ∧
      (tables 0x45600C12 0 0).pending = []) ∧
    ((strict (tables 0x45601C12 0 0)).withPhase (.l1Addr 0x0030448C lockFor)).phase =
        .l1Addr (l1DescAddr 0x00304000 0x12345678) lockFor ∧
      (strict (tables 0x45601C12 0 0)).walk 0x12345678 = .sbzNonzero := by decide

/-- The entry of V-W1 agrees with the tables of V-W1 at every address it covers. -/
theorem entryW1_agrees {va : Word} (h : entryW1.mapping.covers va = true) :
    (tables 0x45600C12 0 0).walk va = .entry entryW1 := by
  have hv : field va 20 12 = 0x123 := of_decide_eq_true h
  have ha : l1DescAddr (tables 0x45600C12 0 0).ttb va = 0x0030448C := by
    unfold l1DescAddr l1Index
    rw [hv]
    decide
  have hw : (tables 0x45600C12 0 0).walkWord 0x0030448C = 0x45600C12 := by decide
  have he : sectEntry va 0x456 3 0 false false = entryW1 := by
    unfold sectEntry
    rw [hv]
    rfl
  simp only [State.walk, ha, hw]
  rw [if_neg (by decide), if_pos (by decide)]
  exact congrArg WalkResult.entry he

/-- An access that may hit or walk (V-L1), with the last word of the section. -/
theorem witness_AccessComesOutAsTheSpecSays :
    (asked (userRead 0x123FFFFC) { tables 0x45600C12 0 0 with tlb := [.entry entryW1] }).tlbAgrees .data ∧
      (asked (userRead 0x123FFFFC) { tables 0x45600C12 0 0 with tlb := [.entry entryW1] }).accessOutcome
        (userRead 0x123FFFFC) = .proceeds 0x456FFFFC false false ∧
      (userRead 0x123FFFFC).transfer.size =
        (asked (userRead 0x123FFFFC) { tables 0x45600C12 0 0 with tlb := [.entry entryW1] }).accessRoom
          (userRead 0x123FFFFC) ∧
      (asked (userRead 0x123FFFFC) { tables 0x45600C12 0 0 with tlb := [.entry entryW1] }).drained := by
  refine ⟨?_, by decide, by decide, rfl⟩
  intro x hx va hc
  obtain rfl : x = .entry entryW1 := List.mem_singleton.mp hx
  exact entryW1_agrees hc
theorem witness_WriteTtbWritesOnlyTtb :
    ((on 0 0 []).withPhase (.ttbWrite 0x123 .privileged)).phase = .ttbWrite 0x123 .privileged ∧
      (on 0 0 []).ignoresSbz := ⟨rfl, rfl⟩
theorem witness_WriteControlWritesOnlyCtrl :
    ((on 0 0 []).withPhase (.ctrlWrite 0x301 0 .privileged)).phase = .ctrlWrite 0x301 0 .privileged ∧
      (0x301 : Word).getLsbD 0 = (on 0 0 []).ctrl.getLsbD 0 ∧
      (on 0x4000 1 [(0x4000, 0x00000C0E)]).identityMapped 0x8004 := by
  rw [← State.mapsToItself_iff]
  decide
theorem witness_WriteDacWritesOnlyDac :
    (askedControl (.writeDac 0xC) State.reset).phase = .idle ∧
      (askedControl (.writeDac 0xC) State.reset).inputs = [.control (.writeDac 0xC) .privileged] := by decide
theorem witness_UserControlOperationIsRefused :
    ((on 0 0 []).withPhase (.ttbWrite 0 .user)).phase = .ttbWrite 0 .user ∧
      ((on 0 0 []).withPhase (.ctrlWrite 0 0 .user)).phase = .ctrlWrite 0 0 .user ∧
      ((on 0 0 []).withPhase (.coproc 0xEE020F10 0 0 true .user)).phase = .coproc 0xEE020F10 0 0 true .user ∧
      ((on 0 0 []).withInputs [.control .cacheFlush .user]).inputs = [.control .cacheFlush .user] := by decide
/-- Three requests of the user; the transfer has the condition `always`, or one that is met. -/
theorem witness_UserControlOperationIsRefused_requests :
    ((on 0 0 []).withInputs [.control (.writeControl 0 0) .user]).inputs =
        [.control (.writeControl 0 0) .user] ∧
      ((on 0 0 []).withInputs [.control (.writeTtb 0) .user]).inputs = [.control (.writeTtb 0) .user] ∧
      ((on 0 0 []).withInputs [.coproc 0xEE020F10 0 0 false .user]).phase = .idle ∧
      ((on 0 0 []).withInputs [.coproc 0xEE020F10 0 0 false .user]).inputs =
        [.coproc 0xEE020F10 0 0 false .user] ∧
      isCoprocTransfer 0xEE020F10 = true ∧ field (0xEE020F10 : Word) 28 4 = 0b1110 ∧
      isCoprocTransfer 0x0E020F10 = true ∧ field (0x0E020F10 : Word) 28 4 ≠ 0b1110 := by decide
theorem witness_TlbFlushRemovesTheUnlocked :
    (askedControl (.tlbFlush .data) State.reset).phase = .idle ∧
      (askedControl (.tlbFlush .data) State.reset).inputs = [.control (.tlbFlush .data) .privileged] := by
  decide
theorem witness_TlbLockAndUnlock :
    (askedControl (.tlbLock .data 0x12345678) State.reset).cfg.tlbLockdown = true ∧
      (askedControl (.tlbLock .data 0x12345678) State.reset).inputs =
        [.control (.tlbLock .data 0x12345678) .privileged] ∧
      .entry lockedW1 ∈
        (askedControl (.tlbUnlock .data lockedW1)
          { State.reset with tlb := [.entry lockedW1] }).tlbOf .data := by decide
/-- An unlock of an entry that is not there, and of one that is not locked. -/
theorem witness_TlbLockAndUnlock_nothing :
    (TlbLine.entry lockedW1 ∉ (askedControl (.tlbUnlock .data lockedW1) State.reset).tlbOf .data ∧
        (askedControl (.tlbUnlock .data lockedW1) State.reset).cfg.tlbLockdown = true) ∧
      TlbLine.entry entryW1 ∈ (askedControl (.tlbUnlock .data entryW1)
        { State.reset with tlb := [.entry entryW1] }).tlbOf .data ∧ entryW1.locked = false := by decide
theorem witness_ReadBackGivesTheDescribedBits :
    (askedControl .readTtb State.reset).phase = .idle ∧
      (askedControl .readTtb State.reset).inputs = [.control .readTtb .privileged] ∧
      (askedControl .readControl State.reset).inputs = [.control .readControl .privileged] ∧
      (askedControl .readDac State.reset).inputs = [.control .readDac .privileged] ∧
      (askedControl .readFault State.reset).inputs = [.control .readFault .privileged] := by decide
theorem witness_McrWritesTheRegister :
    (transferring 0x0E010F10 0 true).phase = .coproc 0x0E010F10 0 0x8004 true .privileged ∧
      (transferring 0x0E010F10 0 true).cfg.wellFormed = true ∧
      (transferring 0x0E010F10 0 true).identityMapped 0x8004 ∧
      (transferring 0x0E010F10 0 true).cfg.sbzPolicy = .ignoreBits := by
  rw [← State.mapsToItself_iff]
  decide
theorem witness_McrFlushesTheTlb :
    (transferring 0xEE080F37 0x12345678 false).phase = .coproc 0xEE080F37 0x12345678 0x8004 false .privileged :=
  rfl
theorem witness_MrcReadsTheRegister :
    (transferring 0xEE135F10 0 false).phase = .coproc 0xEE135F10 0 0x8004 false .privileged ∧
      (transferring 0xEE135F10 0 false).cfg.wellFormed = true ∧
      (3 : BitVec 4) = (transferring 0xEE135F10 0 false).cfg.dacrRegnum := by decide
theorem witness_TransferWithFailedConditionDoesNothing :
    (transferring 0x0E020F10 0 false).phase = .coproc 0x0E020F10 0 0x8004 false .privileged ∧
      (0b0000 : BitVec 4) ≠ 0b1110 := by decide
theorem witness_CacheFlushEmptiesTheCache :
    (askedControl .cacheFlush State.reset).phase = .idle ∧
      (askedControl .cacheFlush State.reset).inputs = [.control .cacheFlush .privileged] ∧
      (on 0 0 []).cacheHolds = false := by decide
/-- A fetch with the MMU disabled may fill a cache again (R41 b). -/
theorem witness_CacheFlushEmptiesTheCache_until :
    ∃ t, step (asked ⟨0, .fetch 4, .user⟩ { State.reset with
        cacheHolds := false
        cfg := { resetConfig with cacheWithMmuOff := true, tlbOrg := .split, hasCache := true } }) = .next t ∧
      t.cacheHolds = true := ⟨_, rfl, rfl⟩
/-- A cache that may hold something: a flush of the TLBs leaves it so, a flush of the cache does not. -/
theorem witness_CacheFlushEmptiesTheCache_keeps :
    (askedControl (.tlbFlush .all) State.reset).cacheHolds = true ∧
      (∃ t, step (askedControl (.tlbFlush .all) State.reset) = .next t ∧ t.cacheHolds = true) ∧
      ∃ t, step (askedControl .cacheFlush State.reset) = .next t ∧ t.cacheHolds = false :=
  ⟨rfl, ⟨_, rfl, rfl⟩, ⟨_, rfl, rfl⟩⟩
/-- A cacheable access that proceeds in a system with a cache. -/
theorem witness_CacheFlushEmptiesTheCache_fills :
    ∃ t, step { atCheck 0xC entryW4 (userWrite 0x12345678) with
        cfg := { resetConfig with hasCache := true } } = .next t ∧
      t.outputs = [.ok 0x0BADC678 true true []] := ⟨_, rfl, rfl⟩
/-- A write that is held back and one that is made at once, over older held writes to its bytes. -/
theorem witness_WriteIsSeenInProgramOrder :
    (holding .idle []).Inv ∧ (holding .idle []).cacheHit true = false ∧
      holdsBack (holding .idle []).cfg false true = true ∧
      holdsBack (holding .idle []).cfg true false = false ∧
      (holding .idle []).pending.any (PendingWrite.overlaps ⟨0x0030448D, [1, 2]⟩) = true :=
  ⟨inv_holding trivial (Nat.zero_le _), by decide, by decide, by decide, by decide⟩
theorem witness_DrainPutsEveryWriteInMainMemory :
    ((holding .idle []).withInputs [.drain]).Inv ∧
      ((holding .idle []).withInputs [.drain]).phase = .idle ∧
      ((holding .idle []).withInputs [.drain]).inputs = [.drain] :=
  ⟨⟨by decide, by decide, by decide, by decide, by decide, trivial, Nat.zero_le _,
    fun _ _ => ⟨nofun, nofun, nofun⟩, nofun⟩, rfl, rfl⟩
theorem witness_LastFaultIsWrittenByAbortsOnly :
    (∃ t, step (atL1 0) = .next t ∧ t.lastFault ≠ (atL1 0).lastFault) ∧
      ∃ t, step (atL1 0x45600C12) = .next t ∧ t.lastFault = (atL1 0x45600C12).lastFault :=
  ⟨⟨_, rfl, by decide⟩, ⟨_, rfl, rfl⟩⟩
theorem witness_AbortedAccessDoesNotHappen :
    ∃ t, step (atL1 0) = .next t ∧
      t.outputs = .abort (.translation .sect) 0x12345678 :: (atL1 0).outputs := ⟨_, rfl, rfl⟩
/-- An abort of a data access, of a fetch that is not recorded, and of a `TLBLock`. -/
theorem witness_DataAbortUpdatesTheFaultRegisters :
    (∃ t, step (atCheck 0 entryW4 (userWrite 0x12345678)) = .next t ∧
        t.outputs = [.abort (.domain .page) 0x12345678] ∧
        (atCheck 0 entryW4 (userWrite 0x12345678)).purpose = some (.access (userWrite 0x12345678))) ∧
      (∃ t, step (atCheck 0 entryW4 ⟨0x12345678, .fetch 4, .user⟩) = .next t ∧
        t.outputs = [.abort (.domain .page) 0x12345678]) ∧
      ∃ t, step ((tables 0 0 0).withPhase (.l1Desc 0 lockFor)) = .next t ∧
        t.outputs = [.abort (.translation .sect) 0x12345678] :=
  ⟨⟨_, rfl, rfl, rfl⟩, ⟨_, rfl, rfl⟩, ⟨_, rfl, rfl⟩⟩
theorem witness_StepKeepsTheInvariant :
    (holding (.l1Desc 0x45600C12 walkFor) [0x0030448C]).Inv ∧
      ∃ t, step (holding (.l1Desc 0x45600C12 walkFor) [0x0030448C]) = .next t :=
  ⟨inv_holding trivial rfl, _, rfl⟩
theorem witness_ResetDisablesTheMmu :
    (asked (userRead 0xFFFFFFFC) State.reset).afterReset ∧
      (asked (userRead 0xFFFFFFFC) State.reset).inputs = [.access (userRead 0xFFFFFFFC)] ∧
      (userRead 0xFFFFFFFC).transfer.size = 2 ^ 32 - (0xFFFFFFFC : Word).toNat ∧
      (∃ t, step (asked (userRead 0xFFFFFFFC) State.reset) = .next t) ∧
      ∃ t, step { on 0x4000 1 [(0x4000, 0x00000C0E)] with
          ctrl := 0, phase := .coproc 0xEE010F10 1 0x8004 true .privileged } = .next t ∧ t.ctrl = 1 :=
  ⟨rfl, rfl, by decide, ⟨_, rfl⟩, ⟨_, rfl, rfl⟩⟩
theorem witness_OnlyPrivilegedWritesChangeTheRegisters :
    (∃ t, step ((on 0 0 []).withPhase (.ctrlWrite 0x201 0 .privileged)) = .next t ∧ t.ctrl ≠ 1) ∧
      (∃ t, step ((on 0 0 []).withPhase (.ttbWrite 0x4000 .privileged)) = .next t ∧ t.ttb ≠ 0) ∧
      (∃ t, step (askedControl (.writeDac 5) (on 0 0 [])) = .next t ∧ t.dac ≠ 0) ∧
      ∃ t, step (transferring 0xEE030F10 5 true) = .next t ∧ t.dac ≠ 1 :=
  ⟨⟨_, rfl, by decide⟩, ⟨_, rfl, by decide⟩, ⟨_, rfl, by decide⟩, ⟨_, rfl, by decide⟩⟩
/-- A split organisation, with the same locked entry in both TLBs. -/
def splitLocked (s : State) : State :=
  { s with
    cfg := { resetConfig with tlbOrg := .split }, itlb := [.entry lockedW1], dtlb := [.entry lockedW1] }

/-- In a split organisation an unlock is a way out of its own TLB only. -/
theorem witness_LockedEntryStaysUntilUnlocked_split :
    ∃ t, step (askedControl (.tlbUnlock .data lockedW1) (splitLocked State.reset)) = .next t ∧
      TlbLine.entry lockedW1 ∉ t.tlbOf .data ∧ TlbLine.entry lockedW1 ∈ t.tlbOf .instruction :=
  ⟨_, rfl, by decide, by decide⟩
/-- A flush leaves the locked entry; an unlock is the way out. -/
theorem witness_LockedEntryStaysUntilUnlocked :
    (∃ t, step (askedControl (.tlbFlush .all) { State.reset with tlb := [.entry lockedW1] }) = .next t) ∧
      ∃ t, step (askedControl (.tlbUnlock .data lockedW1)
        { State.reset with tlb := [.entry lockedW1] }) = .next t ∧
        TlbLine.entry lockedW1 ∉ t.tlbOf .data :=
  ⟨⟨_, rfl⟩, ⟨_, rfl, by decide⟩⟩
/-- A walk, an unlock, a lock, and a fault that is held. -/
theorem witness_EntriesEnterByWalkOrUnlock :
    (∃ t, step (atL1 0x45600C12) = .next t ∧ TlbLine.entry entryW1 ∈ t.tlbOf .data ∧
        TlbLine.entry entryW1 ∉ (atL1 0x45600C12).tlbOf .data) ∧
      (∃ t, step (askedControl (.tlbUnlock .data lockedW1)
        { State.reset with tlb := [.entry lockedW1] }) = .next t ∧
        TlbLine.entry entryW1 ∈ t.tlbOf .data) ∧
      (∃ t, step ((tables 0 0 0).withPhase (.l1Desc 0x45600C12 lockFor)) = .next t ∧
        TlbLine.entry lockedW1 ∈ t.tlbOf .data) ∧
      ∃ t, step (holdingFaults (atL1 0)) = .next t ∧ TlbLine.fault (.sect 0x123) ∈ t.tlbOf .data :=
  ⟨⟨_, rfl, by decide, by decide⟩, ⟨_, rfl, by decide⟩, ⟨_, rfl, by decide⟩, ⟨_, rfl, by decide⟩⟩
/-- In a split organisation a walk for a read and an unlock enter the data TLB only. -/
theorem witness_EntriesEnterByWalkOrUnlock_split :
    (∃ t, step (splitLocked (atL1 0x45600C12)) = .next t ∧ TlbLine.entry entryW1 ∈ t.tlbOf .data ∧
        TlbLine.entry entryW1 ∉ t.tlbOf .instruction) ∧
      ∃ t, step (askedControl (.tlbUnlock .data lockedW1) (splitLocked State.reset)) = .next t ∧
        TlbLine.entry entryW1 ∈ t.tlbOf .data ∧ TlbLine.entry entryW1 ∉ t.tlbOf .instruction :=
  ⟨⟨_, rfl, by decide, by decide⟩, ⟨_, rfl, by decide, by decide⟩⟩

end Sys2Proof.Tests
end

section
/-! SUPPORT. When an operation is refused, and by what name: the equation of each row that can refuse, in the
phase in which it has a meaning, and the condition under which each shared operation refuses. From these the
statement about the forms outside the spec (00_scope.md R2) is assembled. -/

namespace Sys2Proof.Machine

/-! ## The rows with a should-be-zero field, in their phase (R82, D13) -/

/-- Under `SBZ_POLICY = refuse` a should-be-zero test that fails is refused. -/
theorem refusesSbz_of_nonzero {cfg : Config} {z : Prop} [Decidable z] (h : cfg.sbzPolicy = .refuseBits)
    (hz : ¬ z) : refusesSbz cfg (decide z) = true := by
  simp only [refusesSbz, h, decide_eq_false hz, Bool.not_false]

/-- `L1_COARSE` while a first-level descriptor is at hand. -/
theorem exec_l1Coarse {s : State} {p : Purpose} (hp : s.phase.atL1Desc = some p) (base : BitVec 22)
    (sbz : BitVec 1) (d : BitVec 4) (m : BitVec 3) :
    exec (.l1Coarse base sbz d m) s =
      if refusesSbz s.cfg (sbz = 0) then .refused .sbzNonzero
      else .next (s.withPhase (.l2Addr .coarse (coarseDescAddr base p.va) d p)) := by
  simp only [exec, execL1Coarse, hp]

/-- `L1_FINE` while a first-level descriptor is at hand. -/
theorem exec_l1Fine {s : State} {p : Purpose} (hp : s.phase.atL1Desc = some p) (base : BitVec 20)
    (sbz : BitVec 3) (d : BitVec 4) (m : BitVec 3) :
    exec (.l1Fine base sbz d m) s =
      if refusesSbz s.cfg (sbz = 0) then .refused .sbzNonzero
      else .next (s.withPhase (.l2Addr .fine (fineDescAddr base p.va) d p)) := by
  simp only [exec, execL1Fine, hp]

/-- `L1_SECTION` while a first-level descriptor is at hand. -/
theorem exec_l1Section {s : State} {p : Purpose} (hp : s.phase.atL1Desc = some p) (base : BitVec 12)
    (hi : BitVec 8) (ap : BitVec 2) (sbz : BitVec 1) (d : BitVec 4) (m : BitVec 1) (c b : Bool) :
    exec (.l1Section base hi ap sbz d m c b) s =
      if refusesSbz s.cfg (hi = 0 ∧ sbz = 0) then .refused .sbzNonzero
      else .next (s.finishWalk (sectEntry p.va base ap d c b) p) := by
  simp only [exec, execL1Section, hp, sectionTranslate]

/-- A large page descriptor while a second-level descriptor of its table is at hand (R70, R98). -/
theorem largePageTranslate_of_atL2Desc {t : TableKind} {s : State} {d : BitVec 4} {p : Purpose}
    (hp : s.phase.atL2Desc t = some (d, p)) (base : BitVec 16) (sbz : BitVec 4)
    (ap3 ap2 ap1 ap0 : BitVec 2) (c b : Bool) :
    largePageTranslate t base sbz ap3 ap2 ap1 ap0 c b s =
      if refusesSbz s.cfg (sbz = 0) then .refused .sbzNonzero
      else .next (s.finishWalk (largeEntry p.va base ap3 ap2 ap1 ap0 d c b) p) := by
  simp only [largePageTranslate, hp]

/-- `L2C_LARGE` is the large page descriptor of a coarse table. -/
theorem exec_l2cLarge (base : BitVec 16) (sbz : BitVec 4) (ap3 ap2 ap1 ap0 : BitVec 2) (c b : Bool)
    (s : State) :
    exec (.l2cLarge base sbz ap3 ap2 ap1 ap0 c b) s =
      largePageTranslate .coarse base sbz ap3 ap2 ap1 ap0 c b s := rfl

/-- `L2F_LARGE` is the large page descriptor of a fine table. -/
theorem exec_l2fLarge (base : BitVec 16) (sbz : BitVec 4) (ap3 ap2 ap1 ap0 : BitVec 2) (c b : Bool)
    (s : State) :
    exec (.l2fLarge base sbz ap3 ap2 ap1 ap0 c b) s =
      largePageTranslate .fine base sbz ap3 ap2 ap1 ap0 c b s := rfl

/-- `L2F_TINY` while a second-level descriptor of a fine table is at hand. -/
theorem exec_l2fTiny {s : State} {d : BitVec 4} {p : Purpose} (hp : s.phase.atL2Desc .fine = some (d, p))
    (base : BitVec 22) (sbz : BitVec 4) (ap : BitVec 2) (c b : Bool) :
    exec (.l2fTiny base sbz ap c b) s =
      if refusesSbz s.cfg (sbz = 0) then .refused .sbzNonzero
      else .next (s.finishWalk (tinyEntry p.va base ap d c b) p) := by
  simp only [exec, execL2fTiny, hp]

/-! ## The two register formats (R77, R78) -/

/-- `TTB` while a value is being written to CP15 register 2. -/
theorem exec_ttb {s : State} {w : Word} {priv : Priv} (hp : s.phase = .ttbWrite w priv) (base : BitVec 18)
    (sbz : BitVec 14) : exec (.ttb base sbz) s = asPrivileged priv (s.writeTtb (base ++ sbz)) := by
  simp only [exec, execTtb, hp]

/-- `CTRL` while a value is being written to CP15 register 1. -/
theorem exec_ctrl {s : State} {w codeVa : Word} {priv : Priv} (hp : s.phase = .ctrlWrite w codeVa priv)
    (v : Word) : exec (.ctrl v) s = asPrivileged priv (s.writeControl v codeVa) := by
  simp only [exec, execCtrl, hp]

/-- The should-be-zero field of a value for CP15 register 2 is its low part (R77). -/
theorem field_ttb_sbz (base : BitVec 18) (sbz : BitVec 14) : field (base ++ sbz) 0 14 = sbz :=
  (field_append_low base sbz 0 14 (le_refl _)).trans (field_whole sbz)

/-- `WriteTTB` refuses a nonzero should-be-zero field under `SBZ_POLICY = refuse` (R82). -/
theorem State.writeTtb_of_sbz {s : State} {v : Word} (hc : s.cfg.sbzPolicy = .refuseBits)
    (hv : field v 0 14 ≠ 0) : s.writeTtb v = .refused .sbzNonzero :=
  if_pos (refusesSbz_of_nonzero hc hv)

/-- `WriteControl` refuses to change M from code that the tables do not map to itself (R141, R198, D24). -/
theorem State.writeControl_of_not_identityMapped {s : State} {v codeVa : Word}
    (hm : v.getLsbD 0 ≠ s.ctrl.getLsbD 0) (hn : ¬ s.identityMapped codeVa) :
    s.writeControl v codeVa = .refused .enableNotIdentityMapped := by
  have hmap : s.mapsToItself codeVa = false := by rwa [← Bool.not_eq_true, State.mapsToItself_iff]
  exact if_pos ⟨hm, hmap⟩

/-! ## An access that runs past its region (R47, D21) -/

/-- An access that is longer than its region has room for does not proceed. -/
theorem State.proceed_of_no_room {pa : Word} {c b : Bool} {room : Nat} {t : Transfer} {s : State}
    (h : room < t.size) : s.proceed pa c b room t = .refused .spansRegions :=
  if_pos h

/-- `DAC_MANAGER` while an access is being checked (R125). -/
theorem exec_dacManager {s : State} {e : TlbEntry} {a : Access} (hp : s.phase = .check e a) :
    exec .dacManager s = s.proceedThrough e a := by
  simp only [exec, execDacManager, hp, Phase.atCheck]

/-- `DAC_CLIENT` lets an access proceed that its permission level allows (R123, R133). -/
theorem exec_dacClient_of_allows {s : State} {e : TlbEntry} {a : Access} {lvl : Permission}
    (hp : s.phase = .check e a)
    (hl : permission (e.mapping.ap a.va) s.systemBit s.romBit a.priv = some lvl)
    (ha : lvl.allows a.kind = true) : exec .dacClient s = s.proceedThrough e a := by
  have hc : s.apCheck e a = .allowed := by simp only [State.apCheck, hl, ha, if_true]
  simp only [exec, execDacClient, hp, Phase.atCheck, hc]

/-! ## The processor's requests -/

/-- With no operation in progress the next step performs the processor's next request. -/
theorem step_of_request {s : State} {r : Request} {rest : List Request} (hp : s.phase = .idle)
    (hi : s.inputs = r :: rest) : step s = (s.withInputs rest).perform r := by
  simp only [step_of_idle hp, State.accept, hi]

/-- With the MMU disabled an access is the flat one (R43). -/
theorem State.beginAccess_of_disabled {s : State} (a : Access) (hm : s.ctrl.getLsbD 0 = false) :
    s.beginAccess a = s.disabledAccess a :=
  if_neg (Bool.eq_false_iff.mp hm)

/-- Without lockdown an operation that needs it is refused (R147). -/
theorem ifLockdown_of_none {cfg : Config} (h : cfg.tlbLockdown = false) (r : Result) :
    ifLockdown cfg r = .refused .noTlbLockdown := by
  simp [ifLockdown, h]

/-! ## The coprocessor register transfer (R86) -/

/-- A word at hand that is no transfer to coprocessor 15 is undecodable. -/
theorem step_of_not_coprocTransfer {s : State} {w v codeVa : Word} {cp : Bool} {priv : Priv}
    (hp : s.phase = .coproc w v codeVa cp priv) (hw : isCoprocTransfer w = false) :
    step s = .refused (.undecodable .notACoprocessorTransfer) := by
  simp [step, State.nextWord, hp, decodeWord, decodeCoproc, hw]

/-- A privileged transfer whose condition is met reads or writes its CP15 register, if its opc1 is 0. -/
theorem exec_mcrMrc_of_met {s : State} {w v codeVa : Word} {cp : Bool} {cond : BitVec 4}
    (hp : s.phase = .coproc w v codeVa cp .privileged) (hc : cond = 0b1110 ∨ cp = true) (opc1 : BitVec 3)
    (load : Bool) (crn rd : BitVec 4) (opc2 : BitVec 3) (crm : BitVec 4) :
    exec (.mcrMrc cond opc1 load crn rd opc2 crm) s =
      if opc1 ≠ 0 then .refused (.cp15NotDescribed crn crm opc2)
      else if load then s.cp15Read crn rd crm opc2
      else s.cp15Write crn crm opc2 v codeVa := by
  have hmet : ¬ (cond ≠ 0b1110 ∧ cp = false) := by
    rintro ⟨hne, hf⟩
    rcases hc with h | h
    · exact hne h
    · simp [h] at hf
  simp only [exec, execMcrMrc, hp, if_neg hmet, asPrivileged]

/-- An MCR of CP15 register 1 is `WriteControl`. -/
theorem State.cp15Write_ctrl (v codeVa : Word) (s : State) :
    s.cp15Write 1 0 0 v codeVa = s.writeControl v codeVa := rfl

/-- An MCR of CP15 register 2 is `WriteTTB`. -/
theorem State.cp15Write_ttb (v codeVa : Word) (s : State) : s.cp15Write 2 0 0 v codeVa = s.writeTtb v := rfl

/-- The registers that the spec describes, register 8 aside, have none of these numbers: CTRL, TTB, the
domain access control register, the fault status and the fault address register. -/
def undescribedReg (cfg : Config) (crn : BitVec 4) : Prop :=
  crn ≠ 1 ∧ crn ≠ 2 ∧ crn ≠ cfg.dacrRegnum ∧ crn ≠ 5 ∧ crn ≠ 6

/-- A register that the spec does not describe has no value to read. -/
theorem State.cp15Value_of_undescribed {crn : BitVec 4} {s : State} (h : undescribedReg s.cfg crn) :
    s.cp15Value crn = none := by
  obtain ⟨h1, h2, hd, h5, h6⟩ := h
  simp only [State.cp15Value, h1, h2, hd, h5, h6, if_false]

/-- An MRC in a form or of a register that the spec does not describe is refused. -/
theorem State.cp15Read_of_undescribed {crn crm : BitVec 4} {opc2 : BitVec 3} {s : State} (rd : BitVec 4)
    (h : crm ≠ 0 ∨ opc2 ≠ 0 ∨ undescribedReg s.cfg crn) :
    s.cp15Read crn rd crm opc2 = .refused (.cp15NotDescribed crn crm opc2) := by
  by_cases hform : crm ≠ 0 ∨ opc2 ≠ 0
  · exact if_pos hform
  · have hreg : undescribedReg s.cfg crn := by tauto
    simp only [State.cp15Read, if_neg hform, State.cp15Value_of_undescribed hreg]

/-- An MCR in a form or of a register that the spec does not describe is refused. -/
theorem State.cp15Write_of_undescribed {crn crm : BitVec 4} {opc2 : BitVec 3} {s : State} (v codeVa : Word)
    (h8 : crn ≠ 8) (h : crm ≠ 0 ∨ opc2 ≠ 0 ∨ undescribedReg s.cfg crn) :
    s.cp15Write crn crm opc2 v codeVa = .refused (.cp15NotDescribed crn crm opc2) := by
  by_cases hform : crm ≠ 0 ∨ opc2 ≠ 0
  · simp only [State.cp15Write, h8, if_false, if_pos hform]
  · obtain ⟨h1, h2, hd, h5, h6⟩ : undescribedReg s.cfg crn := by tauto
    simp only [State.cp15Write, if_neg hform, h8, h1, h2, hd, h5, h6, if_false]

/-- A CRm that selects no TLB (R146). -/
theorem flushOfCrm_of_none {crm : BitVec 4} (h : crm ≠ 5 ∧ crm ≠ 6 ∧ crm ≠ 7) : flushOfCrm crm = none := by
  obtain ⟨h5, h6, h7⟩ := h
  simp only [flushOfCrm, h5, h6, h7, if_false]

/-- An opc2 that selects no entries (R146). -/
theorem flushTest_of_none {opc2 : BitVec 3} (va : Word) (h : opc2 ≠ 0 ∧ opc2 ≠ 1) :
    flushTest opc2 va = none := by
  obtain ⟨h0, h1⟩ := h
  simp only [flushTest, h0, h1, if_false]

/-- An MCR of CP15 register 8 in a form that is no flush is refused. -/
theorem State.cp15Write_of_no_flush {crm : BitVec 4} {opc2 : BitVec 3} (v codeVa : Word) (s : State)
    (h : crm ≠ 5 ∧ crm ≠ 6 ∧ crm ≠ 7 ∨ opc2 ≠ 0 ∧ opc2 ≠ 1) :
    s.cp15Write 8 crm opc2 v codeVa = .refused (.cp15NotDescribed 8 crm opc2) := by
  rcases h with hcrm | hopc2
  · simp only [State.cp15Write, flushOfCrm_of_none hcrm, if_true]
  · simp only [State.cp15Write, flushTest_of_none v hopc2, if_true]
    cases flushOfCrm crm <;> rfl

/-- A transfer in a form or of a register that the spec does not describe is refused by the name of both. -/
theorem exec_mcrMrc_of_undescribed {s : State} {w v codeVa : Word} {cp : Bool} {cond : BitVec 4}
    (hp : s.phase = .coproc w v codeVa cp .privileged) (hc : cond = 0b1110 ∨ cp = true) {opc1 : BitVec 3}
    {load : Bool} {crn : BitVec 4} (rd : BitVec 4) {opc2 : BitVec 3} {crm : BitVec 4}
    (h : opc1 ≠ 0 ∨
      (crn ≠ 8 ∨ load = true) ∧ (crm ≠ 0 ∨ opc2 ≠ 0 ∨ undescribedReg s.cfg crn) ∨
      (crn = 8 ∧ load = false) ∧ (crm ≠ 5 ∧ crm ≠ 6 ∧ crm ≠ 7 ∨ opc2 ≠ 0 ∧ opc2 ≠ 1)) :
    exec (.mcrMrc cond opc1 load crn rd opc2 crm) s = .refused (.cp15NotDescribed crn crm opc2) := by
  rw [exec_mcrMrc_of_met hp hc]
  by_cases hopc1 : opc1 ≠ 0
  · exact if_pos hopc1
  rw [if_neg hopc1]
  rcases h.resolve_left hopc1 with ⟨h8, hform⟩ | ⟨⟨rfl, rfl⟩, hflush⟩
  · cases load with
    | true => exact State.cp15Read_of_undescribed rd hform
    | false => exact State.cp15Write_of_undescribed v codeVa (h8.resolve_right Bool.false_ne_true) hform
  · exact State.cp15Write_of_no_flush v codeVa s hflush

/-! ## The statement -/

/-- Settles O39: each kind of form outside the spec, by the lemma that names its refusal. -/
theorem formsOutsideTheSpecAreRefusedByName : Obligations.FormsOutsideTheSpecAreRefusedByName := by
  intro s
  refine ⟨?sbz, ?region, ?flat, ?control, ?lockdown, ?transfer⟩
  case sbz =>
    intro hc
    refine ⟨?coarse, ?fine, ?sect, ?coarseLarge, ?fineLarge, ?fineTiny, ?ttb, ?mcr⟩
    case coarse =>
      intro p base sbz d m hp hz
      rw [exec_l1Coarse hp, if_pos (refusesSbz_of_nonzero hc hz)]
    case fine =>
      intro p base sbz d m hp hz
      rw [exec_l1Fine hp, if_pos (refusesSbz_of_nonzero hc hz)]
    case sect =>
      intro p base hi ap sbz d m c b hp hz
      rw [exec_l1Section hp, if_pos (refusesSbz_of_nonzero hc (not_and_or.mpr hz))]
    case coarseLarge =>
      intro q base sbz g h e f c b hp hz
      rw [exec_l2cLarge, largePageTranslate_of_atL2Desc hp, if_pos (refusesSbz_of_nonzero hc hz)]
    case fineLarge =>
      intro q base sbz g h e f c b hp hz
      rw [exec_l2fLarge, largePageTranslate_of_atL2Desc hp, if_pos (refusesSbz_of_nonzero hc hz)]
    case fineTiny =>
      intro q base sbz ap c b hp hz
      rw [exec_l2fTiny hp, if_pos (refusesSbz_of_nonzero hc hz)]
    case ttb =>
      intro w base sbz hp hz
      rw [exec_ttb hp]
      exact State.writeTtb_of_sbz hc (by rwa [field_ttb_sbz])
    case mcr =>
      intro cond rd w v codeVa cp hp hmet hz
      rw [exec_mcrMrc_of_met hp hmet]
      exact (State.cp15Write_ttb v codeVa s).trans (State.writeTtb_of_sbz hc hz)
  case region =>
    intro e a hp hroom
    refine ⟨?_, fun lvl hl ha => ?_⟩
    · rw [exec_dacManager hp]
      exact State.proceed_of_no_room hroom
    · rw [exec_dacClient_of_allows hp hl ha]
      exact State.proceed_of_no_room hroom
  case flat =>
    intro a rest hp hi hm hroom
    rw [step_of_request hp hi]
    exact (State.beginAccess_of_disabled (s := s.withInputs rest) a hm).trans (State.proceed_of_no_room hroom)
  case control =>
    intro v w codeVa hp hm hn
    rw [exec_ctrl hp]
    exact State.writeControl_of_not_identityMapped hm hn
  case lockdown =>
    intro side va e rest hp hl hi
    rcases hi with hi | hi
    all_goals
      rw [step_of_request hp hi]
      exact ifLockdown_of_none hl _
  case transfer =>
    intro w v codeVa cp hp
    refine ⟨step_of_not_coprocTransfer hp, fun cond hmet => ⟨fun rd hm hn => ?_, ?_⟩⟩
    · rw [exec_mcrMrc_of_met hp hmet]
      exact (State.cp15Write_ctrl v codeVa s).trans (State.writeControl_of_not_identityMapped hm hn)
    · exact fun opc1 load crn rd opc2 crm h => exec_mcrMrc_of_undescribed hp hmet rd h

end Sys2Proof.Machine
end

section
/-! SUPPORT. That every step keeps the invariant of the machine (10_state.md R19, R24). The invariant is taken in
three parts, main memory with the held writes, the TLBs, and where the MMU stands; each shared operation keeps its
part, and the statements follow by the cases of what a step can have done. -/

namespace Sys2Proof.Machine

/-! ## Main memory and the held writes in the invariant -/

/-- The part of the invariant that speaks of main memory and of the writes on their way to it. -/
structure State.MemoryWf (s : State) : Prop where
  mem : s.mem.wf
  pending : ∀ p ∈ s.pending, p.data.length ≤ 2 ^ 32

/-- A descriptor read keeps main memory and the held writes well formed, whatever arrives before it. -/
theorem State.MemoryWf.physRead32 {s : State} (h : s.MemoryWf) (a : Word) : (s.physRead32 a).2.MemoryWf := by
  refine ⟨State.physRead32_wf a h.mem, fun p hp => h.pending p ?_⟩
  have hsub : (s.physRead32 a).2.pending.Sublist s.pending := drainGo_sublist s.draws 0 [] s.pending s.mem
  exact hsub.subset hp

/-- The arrival of every held write keeps main memory well formed. -/
theorem State.MemoryWf.drainAll {s : State} (h : s.MemoryWf) : s.drainAll.MemoryWf :=
  ⟨Memory.writeAll_wf h.mem s.pending, fun _ hp => absurd hp List.not_mem_nil⟩

/-- A data write no longer than the address space keeps main memory and the held writes well formed. -/
theorem State.MemoryWf.storeData {s : State} (h : s.MemoryWf) (pa : Word) (c b : Bool) {data : List Byte}
    (hlen : data.length ≤ 2 ^ 32) : (s.storeData pa c b data).MemoryWf := by
  unfold State.storeData
  split
  · refine ⟨h.mem, fun p hp => ?_⟩
    rcases List.mem_append.mp hp with hp | hp
    · exact h.pending p hp
    · rw [List.mem_singleton.mp hp]
      exact hlen
  · have ht : (if s.pending.any (PendingWrite.overlaps ⟨pa, data⟩) then s.drainAll else s).MemoryWf := by
      split
      · exact h.drainAll
      · exact h
    exact ⟨Memory.writeBytes_wf ht.mem pa data, ht.pending⟩

/-- An access that proceeds keeps main memory and the held writes well formed: it stays inside its region,
which is no larger than the address space (R47). -/
theorem State.MemoryWf.proceed {s t : State} (h : s.MemoryWf) {pa : Word} {c b : Bool} {room : Nat}
    {tr : Transfer} (hroom : room ≤ 2 ^ 32) (hp : s.proceed pa c b room tr = .next t) : t.MemoryWf := by
  obtain ⟨hsize, rfl⟩ := State.proceed_next hp
  have hmoved : (s.moveData pa c b tr).2.MemoryWf := by
    cases tr with
    | fetch n => exact h
    | read n => exact h
    | write data => exact h.storeData pa c b (hsize.trans hroom)
  exact ⟨hmoved.mem, hmoved.pending⟩

/-- A translation region is no larger than the address space (R9). -/
theorem Mapping.room_le (m : Mapping) (va : Word) : m.room va ≤ 2 ^ 32 := by
  cases m <;> simp only [Mapping.room] <;> omega

/-! ## The TLBs in the invariant -/

/-- What the invariant asks of one TLB: it is a set (R19) that holds faults only under `TLB_CACHES_FAULTS` (R34,
D6). -/
structure TlbWf (cfg : Config) (xs : List TlbLine) : Prop where
  nodup : xs.Nodup
  noFault : cfg.tlbCachesFaults = false → ∀ f, .fault f ∉ xs

/-- A part of a well-formed TLB is well formed. -/
theorem TlbWf.sublist {cfg : Config} {xs ys : List TlbLine} (h : TlbWf cfg ys) (hs : xs.Sublist ys) :
    TlbWf cfg xs :=
  ⟨h.nodup.sublist hs, fun hc f hf => h.noFault hc f (hs.subset hf)⟩

/-- A line placed in a well-formed TLB keeps it so, a held fault only under `TLB_CACHES_FAULTS`. -/
theorem TlbWf.insert {cfg : Config} {xs : List TlbLine} {x : TlbLine} (h : TlbWf cfg xs) (cap : Option Nat)
    (hx : ∀ f, x = .fault f → cfg.tlbCachesFaults = true) : TlbWf cfg (tlbInsert cap x xs) := by
  refine ⟨tlbInsert_nodup h.nodup, fun hc f hf => ?_⟩
  rcases mem_tlbInsert hf with rfl | hf
  · exact absurd (hx f rfl) (Bool.eq_false_iff.mp hc)
  · exact h.noFault hc f hf

/-- `TLBUnlock` keeps a TLB well formed (R147). -/
theorem TlbWf.unlocked {cfg : Config} {xs : List TlbLine} (h : TlbWf cfg xs) (e : TlbEntry) :
    TlbWf cfg (tlbUnlocked e xs) := by
  unfold tlbUnlocked
  split
  · exact (h.sublist List.filter_sublist).insert none fun f hf => by cases hf
  · exact h

/-- The part of the invariant that speaks of the TLBs. -/
structure State.TlbsWf (s : State) : Prop where
  tlb : TlbWf s.cfg s.tlb
  itlb : TlbWf s.cfg s.itlb
  dtlb : TlbWf s.cfg s.dtlb

/-- The TLB that `SelectTLB` selects is well formed with the three of them. -/
theorem State.TlbsWf.tlbOf {s : State} (h : s.TlbsWf) (side : TlbSide) : TlbWf s.cfg (s.tlbOf side) := by
  unfold State.tlbOf
  split
  · exact h.tlb
  · exact h.itlb
  · exact h.dtlb

/-- A TLB replaced by a well-formed one leaves the TLBs well formed. -/
theorem State.TlbsWf.withTlbOf {s : State} (h : s.TlbsWf) (side : TlbSide) {xs : List TlbLine}
    (hx : TlbWf s.cfg xs) : (s.withTlbOf side xs).TlbsWf := by
  unfold State.withTlbOf
  split
  · exact ⟨hx, h.itlb, h.dtlb⟩
  · exact ⟨h.tlb, hx, h.dtlb⟩
  · exact ⟨h.tlb, h.itlb, hx⟩

/-- TLBs that are left alone stay well formed. -/
theorem State.TlbsWf.of_same {s t : State} (h : s.TlbsWf) (hc : t.cfg = s.cfg) (ht : SameTlbs s t) :
    t.TlbsWf := by
  refine ⟨?_, ?_, ?_⟩
  · rw [hc, ht.tlb]; exact h.tlb
  · rw [hc, ht.itlb]; exact h.itlb
  · rw [hc, ht.dtlb]; exact h.dtlb

/-- A fill keeps the TLBs well formed (R102), that of a held fault under `TLB_CACHES_FAULTS`. -/
theorem State.TlbsWf.tlbFill {s : State} (h : s.TlbsWf) (side : TlbSide) {x : TlbLine}
    (hx : ∀ f, x = .fault f → s.cfg.tlbCachesFaults = true) : (s.tlbFill side x).TlbsWf := by
  have hleft := (h.tlbOf side).sublist (tlbEvict_sublist s.draws 0 _)
  have hfill := h.withTlbOf side (hleft.insert s.cfg.tlbEntries hx)
  exact ⟨hfill.tlb, hfill.itlb, hfill.dtlb⟩

/-- Locking a walk's result in keeps the TLBs well formed (R147). -/
theorem State.TlbsWf.lockIn {s : State} (h : s.TlbsWf) (side : TlbSide) (e : TlbEntry) :
    (s.lockIn side e).TlbsWf := by
  have hleft := (h.tlbOf side).sublist (tlbYield_sublist s.cfg.tlbEntries s.draws _)
  have hlock := h.withTlbOf side
    (hleft.insert s.cfg.tlbEntries (x := .entry { e with locked := true }) fun f hf => by cases hf)
  exact ⟨hlock.tlb, hlock.itlb, hlock.dtlb⟩

/-- The end of a walk that has found its entry keeps the TLBs well formed. -/
theorem State.TlbsWf.finishWalk {s : State} (h : s.TlbsWf) (e : TlbEntry) (p : Purpose) :
    (s.finishWalk e p).TlbsWf := by
  cases p with
  | access a =>
    have hfill := h.tlbFill a.kind.side (x := .entry e) fun f hf => by cases hf
    exact ⟨hfill.tlb, hfill.itlb, hfill.dtlb⟩
  | lock side va =>
    have hlock := h.lockIn side e
    exact ⟨hlock.tlb, hlock.itlb, hlock.dtlb⟩

/-- The end of a walk that has met a fault descriptor keeps the TLBs well formed (R34, D6). -/
theorem State.TlbsWf.walkFault {s : State} (h : s.TlbsWf) (f : HeldFault) (p : Purpose) :
    (s.walkFault f p).TlbsWf := by
  have hheld : (s.holdFault p.side f).TlbsWf := by
    rcases s.holdFault_cases p.side f with ⟨-, heq⟩ | ⟨hc, heq⟩ <;> rw [heq]
    · exact h
    · exact h.tlbFill p.side fun _ _ => hc
  rcases s.walkFault_cases f p with ⟨-, heq⟩ | ⟨-, -, heq⟩ <;> rw [heq]
  · obtain ⟨hr, ht, -, -⟩ := (s.holdFault p.side f).raiseAbort_frame (.translation f.level) p.va f.domain
      (p.updatesFaultRegs s.cfg)
    exact hheld.of_same hr.cfg ht
  · exact ⟨hheld.tlb, hheld.itlb, hheld.dtlb⟩

/-- A flush keeps the TLBs well formed (R146). -/
theorem State.TlbsWf.tlbFlush {s : State} (h : s.TlbsWf) (which : FlushWhich) (test : TlbLine → Bool) :
    (s.tlbFlush which test).TlbsWf := by
  have hone : ∀ (side : TlbSide) {u : State}, u.TlbsWf → (u.tlbRemove side test).TlbsWf := fun side _ hu =>
    hu.withTlbOf side ((hu.tlbOf side).sublist List.filter_sublist)
  cases which with
  | all => exact hone .data (hone .instruction h)
  | instruction => exact hone .instruction h
  | data => exact hone .data h

/-! ## The invariant by its parts -/

/-- At any point an operation has read at most two descriptors (R103). -/
theorem Phase.readsSoFar_le_two {p : Phase} {as : List Word} (h : p.readsSoFar as) : as.length ≤ 2 := by
  cases p <;> simp only [Phase.readsSoFar] at h <;> omega

/-- The invariant is that of main memory, that of the TLBs, and that of where the MMU stands. -/
theorem State.inv_iff {s : State} :
    s.Inv ↔ s.MemoryWf ∧ s.TlbsWf ∧ s.phase.aligned ∧ s.phase.readsSoFar s.walkReads ∧
      (s.phase.translates → s.ctrl.getLsbD 0 = true) := by
  constructor
  · intro h
    exact ⟨⟨h.mem, h.pending⟩, ⟨⟨h.tlb, fun hc f => (h.heldFaults hc f).1⟩,
      ⟨h.itlb, fun hc f => (h.heldFaults hc f).2.1⟩, ⟨h.dtlb, fun hc f => (h.heldFaults hc f).2.2⟩⟩,
      h.aligned, h.reads, h.enabled⟩
  · rintro ⟨hm, ht, ha, hr, he⟩
    exact ⟨hm.mem, ht.tlb.nodup, ht.itlb.nodup, ht.dtlb.nodup, hm.pending, ha, hr,
      fun hc f => ⟨ht.tlb.noFault hc f, ht.itlb.noFault hc f, ht.dtlb.noFault hc f⟩, he⟩

theorem State.Inv.memoryWf {s : State} (h : s.Inv) : s.MemoryWf := (State.inv_iff.mp h).1

theorem State.Inv.tlbsWf {s : State} (h : s.Inv) : s.TlbsWf := (State.inv_iff.mp h).2.1

theorem State.Inv.reads_le_two {s : State} (h : s.Inv) : s.walkReads.length ≤ 2 :=
  Phase.readsSoFar_le_two h.reads

/-- With no operation in progress the invariant asks nothing of where the MMU stands but that the last operation
has read at most two descriptors. -/
theorem State.Inv.of_idle {s : State} (hm : s.MemoryWf) (ht : s.TlbsWf) (hp : s.phase = .idle)
    (hr : s.walkReads.length ≤ 2) : s.Inv := by
  refine State.inv_iff.mpr ⟨hm, ht, ?_, ?_, ?_⟩ <;> rw [hp]
  · trivial
  · exact hr
  · exact False.elim

/-- What the invariant speaks of is unchanged, beside where the MMU stands and CP15 register 1. -/
structure SameStore (s t : State) : Prop where
  cfg : t.cfg = s.cfg
  tlbs : SameTlbs s t
  mem : t.mem = s.mem
  pending : t.pending = s.pending

theorem SameStore.memoryWf {s t : State} (h : SameStore s t) (hs : s.MemoryWf) : t.MemoryWf :=
  ⟨by rw [h.mem]; exact hs.mem, by rw [h.pending]; exact hs.pending⟩

theorem SameStore.tlbsWf {s t : State} (h : SameStore s t) (hs : s.TlbsWf) : t.TlbsWf :=
  hs.of_same h.cfg h.tlbs

/-- An operation that ends with memory and TLBs unchanged and no more descriptor reads keeps the invariant. -/
theorem State.Inv.of_ended {s t : State} (hs : s.Inv) (h : SameStore s t) (hp : t.phase = .idle)
    (hr : t.walkReads = s.walkReads) : t.Inv :=
  .of_idle (h.memoryWf hs.memoryWf) (h.tlbsWf hs.tlbsWf) hp (by rw [hr]; exact hs.reads_le_two)

/-- A walk that starts for an access with the MMU enabled, or for a `TLBLock`, meets the invariant: its
descriptor address is aligned (R62) and it has read nothing. -/
theorem State.Inv.startWalk {s : State} (hs : s.Inv) (p : Purpose)
    (he : (∃ a, p = .access a) → s.ctrl.getLsbD 0 = true) : (s.startWalk p).Inv := by
  have hsame : SameStore s (s.startWalk p) := ⟨rfl, ⟨rfl, rfl, rfl⟩, rfl, rfl⟩
  refine State.inv_iff.mpr ⟨hsame.memoryWf hs.memoryWf, hsame.tlbsWf hs.tlbsWf, ?_, rfl, he⟩
  exact field_append_low _ _ 0 2 (le_refl _)

/-- Taking an abort keeps the invariant (R170). -/
theorem State.Inv.raiseAbort {s : State} (hs : s.Inv) (kind : AbortKind) (va : Word)
    (domain : Option (BitVec 4)) (upd : Bool) : (s.raiseAbort kind va domain upd).Inv := by
  obtain ⟨hr, ht, hm, -⟩ := s.raiseAbort_frame kind va domain upd
  obtain ⟨-, -, hp, hw⟩ := s.raiseAbort_spec kind va domain upd
  exact hs.of_ended ⟨hr.cfg, ht, State.raiseAbort_mem kind va domain upd s, hm.pending⟩ hp hw

/-- An access that proceeds inside a region keeps the invariant (R31, R107). -/
theorem State.Inv.proceed {s t : State} (hs : s.Inv) {pa : Word} {c b : Bool} {room : Nat} {tr : Transfer}
    (hroom : room ≤ 2 ^ 32) (h : s.proceed pa c b room tr = .next t) : t.Inv := by
  obtain ⟨hr, -, ht, -, hp, hw, -⟩ := State.proceed_frame h
  exact .of_idle (hs.memoryWf.proceed hroom h) (hs.tlbsWf.of_same hr.cfg ht) hp
    (by rw [hw]; exact hs.reads_le_two)

/-- The end of a walk that has met a fault descriptor keeps the invariant (R161, R162, D6). -/
theorem State.Inv.walkFault {s : State} (hs : s.Inv) (f : HeldFault) (p : Purpose) : (s.walkFault f p).Inv := by
  obtain ⟨-, -, hm, -, -, hw, hmem⟩ := s.holdFault_frame p.side f
  have htlbs := hs.tlbsWf.walkFault f p
  rcases s.walkFault_cases f p with ⟨-, heq⟩ | ⟨-, -, heq⟩ <;> rw [heq] at htlbs ⊢
  · obtain ⟨-, -, hm', -⟩ := (s.holdFault p.side f).raiseAbort_frame (.translation f.level) p.va f.domain
      (p.updatesFaultRegs s.cfg)
    obtain ⟨-, -, hp, hw'⟩ := (s.holdFault p.side f).raiseAbort_spec (.translation f.level) p.va f.domain
      (p.updatesFaultRegs s.cfg)
    refine .of_idle ⟨?_, ?_⟩ htlbs hp ?_
    · rw [State.raiseAbort_mem, hmem]; exact hs.mem
    · rw [hm'.pending, hm.pending]; exact hs.pending
    · rw [hw', hw]; exact hs.reads_le_two
  · refine .of_idle ⟨?_, ?_⟩ htlbs rfl ?_
    · rw [State.respond_mem, hmem]; exact hs.mem
    · rw [State.respond_pending, hm.pending]; exact hs.pending
    · rw [State.respond_walkReads, hw]; exact hs.reads_le_two

/-- The end of a walk that has found its entry keeps the invariant (R102, R147). -/
theorem State.Inv.finishWalk {s : State} (hs : s.Inv) (e : TlbEntry) (p : Purpose)
    (he : (∃ a, p = .access a) → s.ctrl.getLsbD 0 = true) : (s.finishWalk e p).Inv := by
  have htlbs := hs.tlbsWf.finishWalk e p
  cases p with
  | access a =>
    refine State.inv_iff.mpr ⟨⟨?_, ?_⟩, htlbs, trivial, ?_, fun _ => ?_⟩
    · rw [State.finishWalk, State.withPhase_mem, State.tlbFill_mem]; exact hs.mem
    · obtain ⟨-, -, hm, -⟩ := s.tlbFill_frame a.kind.side (.entry e)
      rw [State.finishWalk, State.withPhase_pending, hm.pending]; exact hs.pending
    · have hw : (s.finishWalk e (.access a)).walkReads = s.walkReads := (s.finishWalk_spec e _).2
      rw [hw]; exact hs.reads_le_two
    · rw [State.finishWalk, State.withPhase_ctrl, State.tlbFill_ctrl]; exact he ⟨a, rfl⟩
  | lock side va =>
    refine .of_idle ⟨?_, ?_⟩ htlbs rfl ?_
    · rw [State.finishWalk, State.respond_mem, State.lockIn_mem]; exact hs.mem
    · rw [State.finishWalk, State.respond_pending, State.lockIn_pending]; exact hs.pending
    · rw [State.finishWalk, State.respond_walkReads, State.lockIn_walkReads]; exact hs.reads_le_two

/-- A flush that ends its operation keeps the invariant (R146). -/
theorem State.Inv.tlbFlush {s : State} (hs : s.Inv) (which : FlushWhich) (test : TlbLine → Bool)
    (r : Response) : ((s.tlbFlush which test).respond r).Inv := by
  have htlbs := hs.tlbsWf.tlbFlush which test
  have hkept : (s.tlbFlush which test).mem = s.mem ∧ (s.tlbFlush which test).pending = s.pending ∧
      (s.tlbFlush which test).walkReads = s.walkReads := by
    cases which <;> simp [State.tlbFlush, State.tlbRemove]
  obtain ⟨hm, hp, hw⟩ := hkept
  refine .of_idle ⟨?_, ?_⟩ ⟨htlbs.tlb, htlbs.itlb, htlbs.dtlb⟩ rfl ?_
  · rw [State.respond_mem, hm]; exact hs.mem
  · rw [State.respond_pending, hp]; exact hs.pending
  · rw [State.respond_walkReads, hw]; exact hs.reads_le_two

/-- A descriptor read keeps the invariant where the walk then stands at a point for which it has made the right
number of reads (R92, R95, R96). -/
theorem State.Inv.physRead32 {s : State} (hs : s.Inv) (addr : Word) {q : Phase} (ha : q.aligned)
    (hq : q.readsSoFar (s.walkReads ++ [addr])) (he : q.translates → s.ctrl.getLsbD 0 = true) :
    ((s.physRead32 addr).2.withPhase q).Inv := by
  obtain ⟨hr, -, ht, -, -, hw⟩ := s.physRead32_frame addr
  have hmem := hs.memoryWf.physRead32 addr
  have htlbs := hs.tlbsWf.of_same hr.cfg ht
  refine State.inv_iff.mpr ⟨⟨hmem.mem, hmem.pending⟩, ⟨htlbs.tlb, htlbs.itlb, htlbs.dtlb⟩, ha, ?_, fun hp => ?_⟩
  · rw [State.withPhase_walkReads, hw]; exact hq
  · rw [State.withPhase_ctrl, hr.ctrl]; exact he hp

/-- Every row keeps the invariant. -/
theorem RowEffect.inv {i : Instr} {s t : State} (h : RowEffect i s t) (hs : s.Inv) : t.Inv := by
  have hmem := hs.memoryWf
  have hreads := hs.reads
  have hen := hs.enabled
  cases h with
  | walkFault f p _ _ => exact hs.walkFault f p
  | checkAbort kind e a _ => exact hs.raiseAbort kind a.va _ _
  | descend d tk addr domain p hp haddr =>
    rw [hp] at hreads hen
    have hsame : SameStore s (s.withPhase (.l2Addr tk addr domain p)) := ⟨rfl, ⟨rfl, rfl, rfl⟩, rfl, rfl⟩
    exact State.inv_iff.mpr ⟨hsame.memoryWf hmem, hsame.tlbsWf hs.tlbsWf, haddr, hreads, hen⟩
  | found e p hp _ _ =>
    refine hs.finishWalk e p ?_
    rcases hp with ⟨d, hp⟩ | ⟨tk, d, domain, hp⟩ <;> rw [hp] at hen <;> exact hen
  | readL1 w addr p hp =>
    rw [hp] at hreads hen
    exact hs.physRead32 addr trivial (List.length_append.trans (congrArg (· + 1) hreads)) hen
  | readL2 tk w addr domain p hp =>
    rw [hp] at hreads hen
    exact hs.physRead32 addr trivial (List.length_append.trans (congrArg (· + 1) hreads)) hen
  | proceed e a _ _ hpr => exact hs.proceed (Mapping.room_le _ _) hpr
  | flush w v codeVa cp which test _ => exact hs.tlbFlush which test _
  | ctrl | ttb | dac | fsr | far | read | skip => exact hs.of_ended ⟨rfl, ⟨rfl, rfl, rfl⟩, rfl, rfl⟩ rfl rfl

/-- Taking the processor's next operation keeps the invariant. -/
theorem AcceptEffect.inv {s t : State} (h : AcceptEffect s t) (hs : s.Inv) (hp : s.phase = .idle) : t.Inv := by
  have hmem := hs.memoryWf
  have htlbs := hs.tlbsWf
  have htaken : ∀ rest, (s.withInputs rest).Inv := fun rest => hs.of_ended ⟨rfl, ⟨rfl, rfl, rfl⟩, rfl, rfl⟩ hp rfl
  have hfresh : ∀ rest, ((s.withInputs rest).withWalkReads []).Inv := fun rest =>
    .of_idle ⟨hs.mem, hs.pending⟩ (htlbs.of_same rfl ⟨rfl, rfl, rfl⟩) hp (Nat.zero_le 2)
  have hasked : ∀ (rest : List Request) (q : Phase), q.aligned → q.readsSoFar s.walkReads → ¬ q.translates →
      ((s.withInputs rest).withPhase q).Inv := fun rest q ha hr hn =>
    State.inv_iff.mpr ⟨⟨hs.mem, hs.pending⟩, htlbs.of_same rfl ⟨rfl, rfl, rfl⟩, ha, hr, fun hq => absurd hq hn⟩
  cases h with
  | waits _ => exact hs
  | flat a rest _ _ _ hflat => exact (hfresh rest).proceed (Nat.sub_le _ _) hflat
  | walks a rest _ _ hm _ ht =>
    have hwalk : ((s.withInputs rest).startWalk (.access a)).Inv := (htaken rest).startWalk _ fun _ => hm
    rcases ht with rfl | rfl
    · exact hwalk
    · obtain ⟨hm', ht', ha, hr, he⟩ := State.inv_iff.mp hwalk
      exact State.inv_iff.mpr ⟨⟨hm'.mem, hm'.pending⟩, ht'.of_same rfl ⟨rfl, rfl, rfl⟩, ha, hr, he⟩
  | hits a rest e _ hm _ =>
    exact State.inv_iff.mpr ⟨⟨hs.mem, hs.pending⟩, htlbs.of_same rfl ⟨rfl, rfl, rfl⟩, trivial, Nat.zero_le 2,
      fun _ => hm⟩
  | hitsFault a rest f _ _ _ =>
    have habort := (hfresh rest).raiseAbort (.translation f.level) a.va f.domain (a.kind.updatesFaultRegs s.cfg)
    obtain ⟨-, -, hidle, -⟩ := ((s.withInputs rest).withWalkReads []).raiseAbort_spec (.translation f.level) a.va
      f.domain (a.kind.updatesFaultRegs s.cfg)
    exact habort.of_ended ⟨rfl, ⟨rfl, rfl, rfl⟩, rfl, rfl⟩ hidle rfl
  | asksCtrl | asksTtb | asksTransfer => exact hasked _ _ trivial hs.reads_le_two id
  | flush which rest _ => exact (htaken rest).tlbFlush which _ _
  | lock side va rest _ => exact (htaken rest).startWalk _ fun ⟨_, ha⟩ => by cases ha
  | unlock side e rest _ =>
    have hunlocked := (htaken rest).tlbsWf.withTlbOf side ((htlbs.tlbOf side).unlocked e)
    refine .of_idle ⟨?_, ?_⟩ ⟨hunlocked.tlb, hunlocked.itlb, hunlocked.dtlb⟩ rfl ?_
    · simpa using hs.mem
    · simpa using hs.pending
    · simpa using hs.reads_le_two
  | drain rest _ =>
    have hdrained := hmem.drainAll
    exact .of_idle ⟨hdrained.mem, hdrained.pending⟩ (htlbs.of_same rfl ⟨rfl, rfl, rfl⟩) rfl hs.reads_le_two
  | dac | reads | readsFault | cacheFlush => exact hs.of_ended ⟨rfl, ⟨rfl, rfl, rfl⟩, rfl, rfl⟩ rfl rfl

/-- Settles O55, by what a step can have done: taken an operation or run a row. -/
theorem stepKeepsTheInvariant : Obligations.StepKeepsTheInvariant := by
  intro s t hs h
  rcases step_effect h with ⟨hp, h⟩ | ⟨r, w, i, -, -, h⟩
  · exact h.inv hs hp
  · exact h.inv hs

/-- Settles O56: at reset memory and TLBs are empty and no operation is in progress. -/
theorem resetMeetsTheInvariant : Obligations.ResetMeetsTheInvariant := by
  have hempty : TlbWf State.reset.cfg [] := ⟨List.nodup_nil, fun _ _ => List.not_mem_nil⟩
  exact .of_idle ⟨Memory.wf_nil, fun _ hp => absurd hp List.not_mem_nil⟩ ⟨hempty, hempty, hempty⟩ rfl
    (Nat.zero_le 2)

end Sys2Proof.Machine
end

section
/-! SUPPORT. What one step does to the TLB of one side, and the statements that follow from it: what a locked line
leaves by, and what brings a line in (10_state.md R18 to R22). -/

namespace Sys2Proof.Machine

/-! ## Reading the TLBs after a change -/

/-- TLBs that are left alone are selected as before. -/
theorem SameTlbs.tlbOf_eq {s t : State} (h : SameTlbs s t) (hc : t.cfg = s.cfg) (side : TlbSide) :
    t.tlbOf side = s.tlbOf side := by
  simp only [State.tlbOf, hc, h.tlb, h.itlb, h.dtlb]

/-- Of two sides the one selects the TLB of the other, unless the organisation is split and they differ (R18). -/
theorem State.sides_cases (s : State) (other side : TlbSide) :
    (s.cfg.tlbOrg = .split ∧ other ≠ side) ∨
      (s.cfg.tlbOrg = .split → other = side) ∧ ∀ t : State, t.cfg = s.cfg → t.tlbOf other = t.tlbOf side := by
  by_cases hne : other = side
  · exact .inr ⟨fun _ => hne, fun t _ => by rw [hne]⟩
  · cases hc : s.cfg.tlbOrg with
    | split => exact .inl ⟨rfl, hne⟩
    | unified =>
      exact .inr ⟨fun h => (by cases h), fun t ht => t.tlbOf_unified other side (by rw [ht, hc])⟩

/-- A line has come into a TLB that held the lines `xs`, and it holds `ys` now: all that was locked is still there
(R21), and nothing else has come. -/
structure LineCame (x : TlbLine) (xs ys : List TlbLine) : Prop where
  lockedStay : ∀ y ∈ xs, y.locked = true → y ∈ ys
  noOther : ∀ y ∈ ys, y = x ∨ y ∈ xs

/-- What placing a line on one side does to the TLB of any side: nothing, or the line has come there. -/
theorem Placed.atSide {x : TlbLine} {side : TlbSide} {s t : State} (h : Placed x side s t) (hc : t.cfg = s.cfg)
    (other : TlbSide) :
    t.tlbOf other = s.tlbOf other ∨
      (s.cfg.tlbOrg = .split → other = side) ∧ LineCame x (s.tlbOf other) (t.tlbOf other) := by
  rcases s.sides_cases other side with ⟨hsplit, hne⟩ | ⟨hside, hsame⟩
  · exact .inl (h.otherTlb hsplit other hne)
  · rw [hsame t hc, hsame s rfl]
    exact .inr ⟨hside, h.lockedStay, h.noOther⟩

/-! ## Flushes and unlocks -/

/-- The TLB of a side has lost unlocked lines at most. -/
structure LostUnlocked (xs ys : List TlbLine) : Prop where
  part : ys ⊆ xs
  lockedStay : ∀ x ∈ xs, x.locked = true → x ∈ ys

theorem LostUnlocked.of_eq {xs ys : List TlbLine} (h : ys = xs) : LostUnlocked xs ys := by
  subst h
  exact ⟨fun _ hx => hx, fun _ hx _ => hx⟩

theorem LostUnlocked.trans {xs ys zs : List TlbLine} (h : LostUnlocked xs ys) (h' : LostUnlocked ys zs) :
    LostUnlocked xs zs :=
  ⟨fun _ hx => h.part (h'.part hx), fun x hx hl => h'.lockedStay x (h.lockedStay x hx hl) hl⟩

/-- Removing lines on one side removes unlocked lines only, from the TLB of any side (R146). -/
theorem State.tlbRemove_lostUnlocked (which side : TlbSide) (test : TlbLine → Bool) (s : State) :
    LostUnlocked (s.tlbOf side) ((s.tlbRemove which test).tlbOf side) := by
  rcases s.sides_cases side which with ⟨hsplit, hne⟩ | ⟨-, hsame⟩
  · exact .of_eq (State.tlbOf_withTlbOf_of_ne which side _ s hsplit hne)
  · rw [hsame s rfl, hsame (s.tlbRemove which test) (State.withTlbOf_cfg ..)]
    exact ⟨fun _ hx => (State.mem_tlbRemove.mp hx).1, fun _ hx hl => State.mem_tlbRemove.mpr ⟨hx, .inl hl⟩⟩

/-- A flush removes unlocked lines only (R146). -/
theorem State.tlbFlush_lostUnlocked (which : FlushWhich) (side : TlbSide) (test : TlbLine → Bool) (s : State) :
    LostUnlocked (s.tlbOf side) ((s.tlbFlush which test).tlbOf side) := by
  cases which with
  | all =>
    exact (s.tlbRemove_lostUnlocked .instruction side test).trans
      (State.tlbRemove_lostUnlocked .data side test _)
  | instruction => exact s.tlbRemove_lostUnlocked .instruction side test
  | data => exact s.tlbRemove_lostUnlocked .data side test

/-- What `TLBUnlock` brings into a TLB is its locked entry, unlocked (R147). -/
theorem mem_tlbUnlocked {e : TlbEntry} {x : TlbLine} {xs : List TlbLine} (h : x ∈ tlbUnlocked e xs) :
    x ∈ xs ∨ e.locked = true ∧ x = .entry { e with locked := false } := by
  unfold tlbUnlocked at h
  split at h
  · rename_i he
    rcases mem_tlbInsert_none.mp h with h | h
    · exact .inr ⟨he.1, h⟩
    · exact .inl (List.mem_of_mem_filter h)
  · exact .inl h

/-- `TLBUnlock` takes no line but its own out of a TLB (R147). -/
theorem mem_tlbUnlocked_of_ne {e : TlbEntry} {x : TlbLine} {xs : List TlbLine} (hx : x ∈ xs)
    (hne : x ≠ .entry e) : x ∈ tlbUnlocked e xs := by
  unfold tlbUnlocked
  split
  · exact mem_tlbInsert_none.mpr (.inr (List.mem_filter.mpr ⟨hx, by simpa using hne⟩))
  · exact hx

/-! ## What a step does to the TLB of a side -/

/-- What one step does to the TLB of a side. -/
inductive TlbEffect (side : TlbSide) (s t : State) : Prop
  /-- It loses unlocked lines at most: a flush (R146), and every step that leaves the TLBs alone. -/
  | loses : LostUnlocked (s.tlbOf side) (t.tlbOf side) → TlbEffect side s t
  /-- The walk of an access has found its entry (R102). -/
  | fills (e : TlbEntry) (a : Access) : s.purpose = some (.access a) → s.hasDescriptor → t.phase = .check e a →
      e.locked = false → e.mapping.covers a.va = true → (s.cfg.tlbOrg = .split → side = a.kind.side) →
      LineCame (.entry e) (s.tlbOf side) (t.tlbOf side) → TlbEffect side s t
  /-- The walk of a `TLBLock` has found its entry (R147). -/
  | locks (e : TlbEntry) (other : TlbSide) (va : Word) : s.purpose = some (.lock other va) → s.hasDescriptor →
      t.phase = .idle → e.mapping.covers va = true → (s.cfg.tlbOrg = .split → side = other) →
      LineCame (.entry { e with locked := true }) (s.tlbOf side) (t.tlbOf side) → TlbEffect side s t
  /-- The walk has met a fault descriptor, and the fault is held (D6). -/
  | holds (f : HeldFault) (p : Purpose) : s.cfg.tlbCachesFaults = true → s.purpose = some p → s.hasDescriptor →
      f.covers p.va = true → (s.cfg.tlbOrg = .split → side = p.side) →
      LineCame (.fault f) (s.tlbOf side) (t.tlbOf side) → TlbEffect side s t
  /-- `TLBUnlock` in privileged state (R147). -/
  | unlocks (other : TlbSide) (e : TlbEntry) (rest : List Request) : s.phase = .idle →
      s.inputs = .control (.tlbUnlock other e) .privileged :: rest → (s.cfg.tlbOrg = .split → other = side) →
      t.tlbOf side = tlbUnlocked e (s.tlbOf side) → TlbEffect side s t

/-- A step that leaves the TLBs alone. -/
theorem TlbEffect.of_same {side : TlbSide} {s t : State} (h : t.tlbOf side = s.tlbOf side) : TlbEffect side s t :=
  .loses (.of_eq h)

/-- A walk that has a descriptor at hand is the operation in progress. -/
theorem State.purpose_of_descriptor {s : State} {p : Purpose}
    (h : (∃ d, s.phase = .l1Desc d p) ∨ ∃ t d domain, s.phase = .l2Desc t d domain p) :
    s.purpose = some p ∧ s.hasDescriptor := by
  rcases h with ⟨d, h⟩ | ⟨t, d, domain, h⟩
  · exact ⟨by simp only [State.purpose, h], .inl ⟨d, p, h⟩⟩
  · exact ⟨by simp only [State.purpose, h], .inr ⟨t, d, domain, p, h⟩⟩

/-- The end of a walk, seen from the TLB of a side (R102, R147). -/
theorem State.finishWalk_tlbEffect {s : State} {e : TlbEntry} {p : Purpose} (hp : s.purpose = some p)
    (hd : s.hasDescriptor) (hl : e.locked = false) (hcov : e.mapping.covers p.va = true) (side : TlbSide) :
    TlbEffect side s (s.finishWalk e p) := by
  obtain ⟨hends, -⟩ := s.finishWalk_spec e p
  cases p with
  | access a =>
    have hfilled : Filled e a s (s.finishWalk e (.access a)) := hends
    rcases hfilled.placed.atSide hfilled.registers.cfg side with hsame | ⟨hside, hcame⟩
    · exact .of_same hsame
    · exact .fills e a hp hd hfilled.phase hl hcov hside hcame
  | lock other va =>
    have hlocked : LockedIn e other s (s.finishWalk e (.lock other va)) := hends
    rcases hlocked.placed.atSide hlocked.registers.cfg side with hsame | ⟨hside, hcame⟩
    · exact .of_same hsame
    · exact .locks e other va hp hd hlocked.phase hcov hside hcame

/-- A walk that meets a fault descriptor changes no parameter and no control register (R170). -/
theorem State.walkFault_registers (f : HeldFault) (p : Purpose) (s : State) :
    SameRegisters s (s.walkFault f p) := by
  obtain ⟨hr, -⟩ := s.holdFault_frame p.side f
  rcases s.walkFault_cases f p with ⟨-, heq⟩ | ⟨-, -, heq⟩ <;> rw [heq]
  · obtain ⟨hr', -⟩ := (s.holdFault p.side f).raiseAbort_frame (.translation f.level) p.va f.domain
      (p.updatesFaultRegs s.cfg)
    exact ⟨hr'.cfg.trans hr.cfg, hr'.ctrl.trans hr.ctrl, hr'.ttb.trans hr.ttb, hr'.dac.trans hr.dac⟩
  · exact ⟨hr.cfg, hr.ctrl, hr.ttb, hr.dac⟩

/-- A walk that meets a fault descriptor, seen from the TLB of a side (R34, D6). -/
theorem State.walkFault_tlbEffect {s : State} {f : HeldFault} {p : Purpose} (hp : s.purpose = some p)
    (hd : s.hasDescriptor) (hcov : f.covers p.va = true) (side : TlbSide) :
    TlbEffect side s (s.walkFault f p) := by
  obtain ⟨hfaults, -⟩ := s.walkFault_spec f p
  obtain ⟨hcfg, -⟩ := s.walkFault_registers f p
  cases hc : s.cfg.tlbCachesFaults with
  | false => exact .of_same ((hfaults.tlbs hc).tlbOf_eq hcfg side)
  | true =>
    rcases (hfaults.held hc).atSide hcfg side with hsame | ⟨hside, hcame⟩
    · exact .of_same hsame
    · exact .holds f p hc hp hd hcov hside hcame

/-- A descriptor read leaves the TLB of a side alone (R44). -/
theorem State.physRead32_tlbOf (addr : Word) (side : TlbSide) (s : State) :
    (s.physRead32 addr).2.tlbOf side = s.tlbOf side := by
  obtain ⟨hr, -, ht, -⟩ := s.physRead32_frame addr
  exact ht.tlbOf_eq hr.cfg side

/-- What a row does to the TLB of a side. -/
theorem RowEffect.tlbEffect {i : Instr} {s t : State} (h : RowEffect i s t) (side : TlbSide) :
    TlbEffect side s t := by
  cases h with
  | walkFault f p hp hcov =>
    obtain ⟨hpur, hd⟩ := State.purpose_of_descriptor hp
    exact State.walkFault_tlbEffect hpur hd hcov side
  | found e p hp hl hcov =>
    obtain ⟨hpur, hd⟩ := State.purpose_of_descriptor hp
    exact State.finishWalk_tlbEffect hpur hd hl hcov side
  | checkAbort kind e a _ =>
    obtain ⟨hr, ht, -, -⟩ := s.raiseAbort_frame kind a.va (some e.domain) (a.kind.updatesFaultRegs s.cfg)
    exact .of_same (ht.tlbOf_eq hr.cfg side)
  | proceed e a _ _ hpr =>
    obtain ⟨hr, -, ht, -⟩ := State.proceed_frame hpr
    exact .of_same (ht.tlbOf_eq hr.cfg side)
  | flush w v codeVa cp which test _ => exact .loses (s.tlbFlush_lostUnlocked which side test)
  | readL1 w addr p _ => exact .of_same (s.physRead32_tlbOf addr side)
  | readL2 tk w addr domain p _ => exact .of_same (s.physRead32_tlbOf addr side)
  | descend | ctrl | ttb | dac | fsr | far | read | skip => exact .of_same rfl

/-- `TLBUnlock`, seen from the TLB of a side (R147). -/
theorem State.unlock_tlbEffect {s : State} {other : TlbSide} {e : TlbEntry} {rest : List Request}
    (hp : s.phase = .idle) (hi : s.inputs = .control (.tlbUnlock other e) .privileged :: rest) (side : TlbSide) :
    TlbEffect side s (((s.withInputs rest).withTlbOf other (tlbUnlocked e (s.tlbOf other))).respond .done) := by
  rcases s.sides_cases side other with ⟨hsplit, hne⟩ | ⟨hside, hsame⟩
  · exact .of_same (State.tlbOf_withTlbOf_of_ne other side _ (s.withInputs rest) hsplit hne)
  · refine .unlocks other e rest hp hi (fun h => (hside h).symm) ?_
    rw [State.tlbOf_respond, hsame s rfl, hsame _ (State.withTlbOf_cfg other _ (s.withInputs rest)),
      State.tlbOf_withTlbOf]

/-- What taking the processor's next operation does to the TLB of a side. -/
theorem AcceptEffect.tlbEffect {s t : State} (h : AcceptEffect s t) (hp : s.phase = .idle) (side : TlbSide) :
    TlbEffect side s t := by
  cases h with
  | flat a rest _ _ _ hflat =>
    obtain ⟨hr, -, ht, -⟩ := State.proceed_frame hflat
    exact .of_same (ht.tlbOf_eq hr.cfg side)
  | walks a rest _ _ _ _ ht =>
    rcases ht with rfl | rfl <;> exact .of_same rfl
  | hitsFault a rest f _ _ _ =>
    obtain ⟨hr, ht, -, -⟩ := ((s.withInputs rest).withWalkReads []).raiseAbort_frame (.translation f.level) a.va
      f.domain (a.kind.updatesFaultRegs s.cfg)
    exact .of_same (ht.tlbOf_eq hr.cfg side)
  | flush which rest _ => exact .loses ((s.withInputs rest).tlbFlush_lostUnlocked which side _)
  | unlock other e rest hi => exact State.unlock_tlbEffect hp hi side
  | waits | hits | asksCtrl | asksTtb | asksTransfer | dac | reads | readsFault | lock | cacheFlush | drain =>
    exact .of_same rfl

/-- What a step does to the TLB of a side. -/
theorem step_tlbEffect {s t : State} (h : step s = .next t) (side : TlbSide) :
    TlbEffect side s t := by
  rcases step_effect h with ⟨hp, h⟩ | ⟨r, w, i, -, -, h⟩
  · exact h.tlbEffect hp side
  · exact h.tlbEffect side

/-! ## What a locked line leaves by, and what brings a line in -/

/-- Settles O59: a line that comes in, and a flush, leave every locked line; an unlock takes only its own entry. -/
theorem lockedEntryStaysUntilUnlocked : Obligations.LockedEntryStaysUntilUnlocked := by
  intro s t side e h he hl
  cases step_tlbEffect h side with
  | loses hlost => exact .inl (hlost.lockedStay _ he hl)
  | fills _ _ _ _ _ _ _ _ hcame => exact .inl (hcame.lockedStay _ he hl)
  | locks _ _ _ _ _ _ _ _ hcame => exact .inl (hcame.lockedStay _ he hl)
  | holds _ _ _ _ _ _ _ hcame => exact .inl (hcame.lockedStay _ he hl)
  | unlocks other e' rest hp hi hside ht =>
    by_cases hne : e = e'
    · subst hne
      exact .inr ⟨other, rest, hp, hi, hside⟩
    · rw [ht]
      exact .inl (mem_tlbUnlocked_of_ne he fun h => hne (TlbLine.entry.inj h))

/-- A line that is new to a TLB into which one line came is that line. -/
theorem LineCame.eq_of_new {x y : TlbLine} {xs ys : List TlbLine} (h : LineCame x xs ys) (hy : y ∈ ys)
    (hn : y ∉ xs) : y = x :=
  (h.noOther y hy).resolve_right hn

/-- A line that an unlock brought in is its entry without the lock: the entry is that one with the lock (R147). -/
theorem eq_of_new_tlbUnlocked {e : TlbEntry} {y : TlbLine} {xs : List TlbLine} (h : y ∈ tlbUnlocked e xs)
    (hn : y ∉ xs) : ∃ e', y = .entry e' ∧ e'.locked = false ∧ e = { e' with locked := true } := by
  obtain ⟨hl, rfl⟩ := (mem_tlbUnlocked h).resolve_left hn
  refine ⟨_, rfl, rfl, ?_⟩
  cases e
  cases hl
  rfl

/-- Settles O60: of the effects a step can have on a TLB, each brings in the one line that the statement gives it. -/
theorem entriesEnterByWalkOrUnlock : Obligations.EntriesEnterByWalkOrUnlock := by
  intro s t side h
  refine ⟨fun e he hn hl => ?unlocked, fun e he hn hl => ?locked, fun f hf hn => ?fault⟩
  case unlocked =>
    cases step_tlbEffect h side with
    | loses hlost => exact absurd (hlost.part he) hn
    | fills e' a hp hd hph _ hcov hside hcame =>
      cases hcame.eq_of_new he hn
      exact .inl ⟨a, hp, hd, hph, hcov, hside⟩
    | locks _ _ _ _ _ _ _ _ hcame =>
      cases hcame.eq_of_new he hn
      cases hl
    | holds _ _ _ _ _ _ _ hcame => cases hcame.eq_of_new he hn
    | unlocks other e' rest hp hi hside ht =>
      rw [ht] at he
      obtain ⟨_, heq, -, rfl⟩ := eq_of_new_tlbUnlocked he hn
      cases heq
      exact .inr ⟨other, rest, hp, hi, hside⟩
  case locked =>
    cases step_tlbEffect h side with
    | loses hlost => exact absurd (hlost.part he) hn
    | fills _ _ _ _ _ hl' _ _ hcame =>
      cases hcame.eq_of_new he hn
      exact absurd (hl.symm.trans hl') Bool.noConfusion
    | locks e' other va hp hd hph hcov hside hcame =>
      cases hcame.eq_of_new he hn
      exact ⟨other, va, hp, hd, hph, hcov, hside⟩
    | holds _ _ _ _ _ _ _ hcame => cases hcame.eq_of_new he hn
    | unlocks other e' rest hp hi hside ht =>
      rw [ht] at he
      obtain ⟨_, heq, hl', -⟩ := eq_of_new_tlbUnlocked he hn
      cases heq
      exact absurd (hl.symm.trans hl') Bool.noConfusion
  case fault =>
    cases step_tlbEffect h side with
    | loses hlost => exact absurd (hlost.part hf) hn
    | fills _ _ _ _ _ _ _ _ hcame => cases hcame.eq_of_new hf hn
    | locks _ _ _ _ _ _ _ _ hcame => cases hcame.eq_of_new hf hn
    | holds f' p hc hp hd hcov hside hcame =>
      cases hcame.eq_of_new hf hn
      exact ⟨hc, p, hp, hd, hcov, hside⟩
    | unlocks other e' rest hp hi hside ht =>
      rw [ht] at hf
      obtain ⟨_, heq, -, -⟩ := eq_of_new_tlbUnlocked hf hn
      cases heq

end Sys2Proof.Machine
end

section
/-! SUPPORT. How an access begins while a locked entry covers its address and while the MMU is disabled, and who
writes CP15 register 1 (10_state.md R11, R21, R28). -/

namespace Sys2Proof.Machine

/-! ## A locked entry decides the access (R21, R33) -/

/-- With the MMU enabled the next step begins the access with a lookup (R31). -/
theorem step_of_access_enabled {s : State} {a : Access} {rest : List Request} (hp : s.phase = .idle)
    (hi : s.inputs = .access a :: rest) (hm : s.ctrl.getLsbD 0 = true) :
    step s = .next ((s.withInputs rest).enabledAccess a) :=
  (step_of_request hp hi).trans (if_pos hm)

/-- An access whose lookup finds a locked line takes one of the lines that it finds (R21, R33). -/
theorem State.enabledAccess_of_locked {s : State} {a : Access}
    (h : ∃ x ∈ s.tlbOf a.kind.side, x.covers a.va = true ∧ x.locked = true) :
    ∃ x ∈ s.tlbOf a.kind.side, x.covers a.va = true ∧
      s.enabledAccess a = ((s.withWalkReads []).tlbHit x a).tick := by
  obtain ⟨y, hy, hcov, hl⟩ := h
  rcases s.enabledAccess_cases a with ⟨hunlocked, -⟩ | ⟨x, hx, heq⟩
  · have hfree : y.locked = false := hunlocked y (State.mem_tlbLookup.mpr ⟨hy, hcov⟩)
    exact absurd (hl.symm.trans hfree) Bool.noConfusion
  · obtain ⟨hx, hcov⟩ := State.mem_tlbLookup.mp hx
    exact ⟨x, hx, hcov, heq⟩

/-- A held fault that the lookup of the next access hits is raised again (D6). -/
theorem State.tlbHit_fault_raised (s : State) (rest : List Request) (f : HeldFault) (a : Access) :
    HeldFaultRaised f a s (((s.withInputs rest).withWalkReads []).tlbHit (.fault f) a).tick := by
  have h := ((s.withInputs rest).withWalkReads []).raiseAbort_aborted (.translation f.level) a.va f.domain
    (a.kind.updatesFaultRegs s.cfg)
  refine ⟨h.outputs, h.lastFault, ⟨fun hu => ?_, h.faultRegs.kept⟩, h.phase⟩
  obtain ⟨haddress, hstatus, hdomain, hbit8, hothers⟩ := h.faultRegs.written hu
  exact ⟨haddress, hstatus, hdomain, hbit8, hothers⟩

/-- A lookup's hit makes no descriptor read. -/
theorem State.tlbHit_walkReads (x : TlbLine) (a : Access) (s : State) :
    (s.tlbHit x a).walkReads = s.walkReads := by
  cases x with
  | entry e => rfl
  | fault f => exact (s.raiseAbort_spec _ _ _ _).2.2.2

/-- Settles O34: the lookup finds the locked entry, so it takes one of the lines it finds and no walk. -/
theorem lockedEntryForbidsTheWalk : Obligations.LockedEntryForbidsTheWalk := by
  intro s a rest hp hi hm hlocked
  obtain ⟨x, hx, hcov, heq⟩ := State.enabledAccess_of_locked (s := s.withInputs rest) hlocked
  refine ⟨_, step_of_access_enabled hp hi hm, ?_, ?_⟩
  · rw [heq]
    exact State.tlbHit_walkReads x a _
  · rw [heq]
    cases x with
    | entry e => exact .inl ⟨e, hx, hcov, rfl⟩
    | fault f => exact .inr ⟨f, hx, hcov, s.tlbHit_fault_raised rest f a⟩

/-! ## Who writes CP15 register 1 (R140, R148) -/

/-- Software in privileged state is writing a value to CP15 register 1: asked for as such, or by a transfer to
that register (R86, D23). -/
def State.writesCtrl (s : State) (v : Word) : Prop :=
  (∃ codeVa, s.phase = .ctrlWrite v codeVa .privileged) ∨
    ∃ w codeVa cp cond rd, s.phase = .coproc w v codeVa cp .privileged ∧
      decodeWord .coproc w = .ok (.mcrMrc cond 0 false 1 rd 0 0)

/-- A flush leaves CP15 register 1 alone (R146). -/
@[simp] theorem State.tlbFlush_ctrl (which : FlushWhich) (test : TlbLine → Bool) (s : State) :
    (s.tlbFlush which test).ctrl = s.ctrl := by
  cases which <;> simp only [State.tlbFlush, State.tlbRemove, State.withTlbOf_ctrl]

/-- A walk that finds its entry leaves CP15 register 1 alone. -/
@[simp] theorem State.finishWalk_ctrl (e : TlbEntry) (p : Purpose) (s : State) :
    (s.finishWalk e p).ctrl = s.ctrl := by
  cases p with
  | access a => exact s.tlbFill_ctrl a.kind.side (.entry e)
  | lock side va => exact s.lockIn_ctrl side e

/-- Taking the processor's next operation leaves CP15 register 1 alone. -/
theorem AcceptEffect.ctrl_eq {s t : State} (h : AcceptEffect s t) : t.ctrl = s.ctrl := by
  cases h with
  | flat a rest _ _ _ hflat =>
    obtain ⟨hr, -⟩ := State.proceed_frame hflat
    exact hr.ctrl
  | walks a rest _ _ _ _ ht =>
    rcases ht with rfl | rfl <;> rfl
  | hitsFault a rest f _ _ _ =>
    obtain ⟨hr, -⟩ := ((s.withInputs rest).withWalkReads []).raiseAbort_frame (.translation f.level) a.va
      f.domain (a.kind.updatesFaultRegs s.cfg)
    exact hr.ctrl
  | flush which rest _ => exact State.tlbFlush_ctrl which _ (s.withInputs rest)
  | unlock other e rest _ => exact State.withTlbOf_ctrl other _ (s.withInputs rest)
  | waits | hits | asksCtrl | asksTtb | asksTransfer | dac | reads | readsFault | lock | cacheFlush | drain => rfl

/-- A row leaves CP15 register 1 alone, unless it writes a value to it. -/
theorem RowEffect.ctrl_eq_or {r : Role} {w : Word} {i : Instr} {s t : State} (h : RowEffect i s t)
    (hw : s.nextWord = some (r, w)) (hd : decodeWord r w = .ok i) :
    t.ctrl = s.ctrl ∨ s.writesCtrl t.ctrl := by
  cases h with
  | ctrl v hv =>
    rcases hv with ⟨rfl, w', codeVa, hp⟩ | ⟨w', codeVa, cp, cond, rd, rfl, hp⟩
    · simp only [State.nextWord, hp, Option.some.injEq, Prod.mk.injEq] at hw
      obtain ⟨rfl, rfl⟩ := hw
      cases hd
      exact .inr (.inl ⟨codeVa, hp⟩)
    · simp only [State.nextWord, hp, Option.some.injEq, Prod.mk.injEq] at hw
      obtain ⟨rfl, rfl⟩ := hw
      exact .inr (.inr ⟨w', codeVa, cp, cond, rd, hp, hd⟩)
  | walkFault f p _ _ => exact .inl (s.walkFault_registers f p).ctrl
  | found e p _ _ _ => exact .inl (s.finishWalk_ctrl e p)
  | checkAbort kind e a _ =>
    obtain ⟨hr, -⟩ := s.raiseAbort_frame kind a.va (some e.domain) (a.kind.updatesFaultRegs s.cfg)
    exact .inl hr.ctrl
  | proceed e a _ _ hpr =>
    obtain ⟨hr, -⟩ := State.proceed_frame hpr
    exact .inl hr.ctrl
  | flush w v codeVa cp which test _ => exact .inl (State.tlbFlush_ctrl which test s)
  | readL1 w addr p _ => exact .inl (s.physRead32_frame addr).1.ctrl
  | readL2 tk w addr domain p _ => exact .inl (s.physRead32_frame addr).1.ctrl
  | descend | ttb | dac | fsr | far | read | skip => exact .inl rfl

/-- A step leaves CP15 register 1 alone, unless privileged software writes a value to it (R140, R148). -/
theorem step_ctrl {s t : State} (h : step s = .next t) : t.ctrl = s.ctrl ∨ s.writesCtrl t.ctrl := by
  rcases step_effect h with ⟨-, h⟩ | ⟨r, w, i, hw, hd, h⟩
  · exact .inl h.ctrl_eq
  · exact h.ctrl_eq_or hw hd

/-- With the MMU disabled an access inside the flat space proceeds at its own address (R42, R43). -/
theorem step_of_access_disabled {s : State} {a : Access} {rest : List Request} (hm : s.ctrl.getLsbD 0 = false)
    (hp : s.phase = .idle) (hi : s.inputs = .access a :: rest) (hroom : a.transfer.size ≤ flatRoom a.va) :
    ∃ t data c b, step s = .next t ∧ t.outputs = .ok a.va c b data :: s.outputs := by
  have hstep : step s = (s.withInputs rest).disabledAccess a :=
    (step_of_request hp hi).trans (State.beginAccess_of_disabled (s := s.withInputs rest) a hm)
  have hproceeds := State.proceed_of_room (pa := a.va) (c := (disabledBits s.cfg a.kind).1)
    (b := (disabledBits s.cfg a.kind).2) (s := (s.withInputs rest).withWalkReads []) hroom
  obtain ⟨-, -, -, -, -, -, data, hout⟩ := State.proceed_frame hproceeds
  exact ⟨_, data, _, _, hstep.trans hproceeds, hout⟩

/-- Settles O57: reset clears M, an access is then the flat one, and M is set only by a write of the register. -/
theorem resetDisablesTheMmu : Obligations.ResetDisablesTheMmu := by
  refine ⟨rfl, fun s a rest hm hp hi hroom => step_of_access_disabled hm hp hi hroom, fun s t hm h => ?_⟩
  cases hM : t.ctrl.getLsbD 0 with
  | false => exact .inl hM
  | true =>
    rcases step_ctrl h with heq | ⟨codeVa, hp⟩ | ⟨w, codeVa, cp, cond, rd, hp, hd⟩
    · rw [heq, hm] at hM
      cases hM
    · exact .inr (.inl ⟨_, codeVa, hp, hM⟩)
    · exact .inr (.inr ⟨w, _, codeVa, cp, cond, rd, hp, hd, hM⟩)

end Sys2Proof.Machine
end

section
/-! SUPPORT. Decoding undoes encoding, on words and on the bytes that lie in memory (20_memory.md R45). -/

namespace Sys2Proof

/-! ## The word of a row (R60) -/

/-- A Boolean is the low bit of its one-bit word. -/
theorem bit_ofBool (b : Bool) : (BitVec.ofBool b).getLsbD 0 = b := by
  cases b <;> rfl

/-- The word of a row decodes to that row: the fixed bits choose the row, and each field is read back from where it
was joined. -/
theorem decodeWord_encode (i : Instr) : decodeWord i.role (encode i) = .ok i := by
  cases i
  case l1Fault | l1Coarse | l1Section | l1Fine =>
    simp (disch := omega) only [Instr.role, decodeWord, encode, decodeL1Desc, field, field_append_low,
      field_append_high, field_whole, bit_append_low, bit_append_high, bit_ofBool, Nat.reduceSub, -Nat.reduceAdd]
    rfl
  case l2cFault | l2cLarge | l2cSmall | l2cTiny =>
    simp (disch := omega) only [Instr.role, decodeWord, encode, encodeLarge, encodeSmall, decodeL2Coarse, field,
      field_append_low, field_append_high, field_whole, bit_append_low, bit_append_high, bit_ofBool, Nat.reduceSub,
      -Nat.reduceAdd]
    rfl
  case l2fFault | l2fLarge | l2fSmall | l2fTiny =>
    simp (disch := omega) only [Instr.role, decodeWord, encode, encodeLarge, encodeSmall, decodeL2Fine, field,
      field_append_low, field_append_high, field_whole, bit_append_low, bit_append_high, bit_ofBool, Nat.reduceSub,
      -Nat.reduceAdd]
    rfl
  case dacNoAccess | dacClient | dacReserved | dacManager => rfl
  case ctrl => rfl
  case ttb =>
    simp (disch := omega) only [Instr.role, decodeWord, encode, field, field_append_low, field_append_high,
      field_whole, Nat.reduceSub, -Nat.reduceAdd]
  case l1Addr | l2AddrCoarse | l2AddrFine =>
    simp (disch := omega) only [Instr.role, decodeWord, encode, field, field_append_low, field_append_high,
      field_whole, Nat.reduceSub, -Nat.reduceAdd]
    rfl
  case mcrMrc =>
    simp (disch := omega) only [Instr.role, decodeWord, encode, decodeCoproc, isCoprocTransfer, field,
      field_append_low, field_append_high, field_whole, bit_append_low, bit_append_high, bit_ofBool, Nat.reduceSub,
      -Nat.reduceAdd]
    rfl

/-! ## The bytes of a row (R45) -/

/-- The bytes of a word decode as that word does, in every role of a whole word. -/
theorem decode_bytesOfWord (o : ByteOrder) {r : Role} (hr : r ≠ .dacField) (w : Word) (rest : List Byte) :
    decode o r (bytesOfWord o w ++ rest) = (decodeWord r w).map (·, rest) := by
  obtain ⟨b0, b1, b2, b3, hbytes, hword⟩ := wordOfBytes_bytesOfWord o w
  rw [hbytes, ← hword]
  cases r with
  | dacField => exact absurd rfl hr
  | l1Desc | l2Desc | ttbReg | ctrlReg | l1Addr | l2Addr | coproc => rfl

/-- A domain access control field stands in one byte of its word. -/
theorem encode_of_dacField {i : Instr} (h : i.role = .dacField) : (field (encode i) 0 8).setWidth 32 = encode i := by
  cases i
  case dacNoAccess | dacClient | dacReserved | dacManager => rfl
  all_goals cases h

/-- The bytes of a row of a whole word are those of its word. -/
theorem encodeBytes_of_ne {i : Instr} (h : i.role ≠ .dacField) (o : ByteOrder) :
    encodeBytes o i = bytesOfWord o (encode i) := by
  unfold encodeBytes
  split
  · exact absurd ‹_› h
  · rfl

/-- Settles O3, by whether the row is one byte, a domain access control field, or a word. -/
theorem decodeOfEncodedBytesIsTheRow : Obligations.DecodeOfEncodedBytesIsTheRow := by
  intro o i rest
  by_cases h : i.role = .dacField
  · have hword := decodeWord_encode i
    rw [h] at hword
    simp only [encodeBytes, h, List.singleton_append, decode, encode_of_dacField h, hword]
    rfl
  · rw [encodeBytes_of_ne h, decode_bytesOfWord o h, decodeWord_encode]
    rfl

end Sys2Proof
end

section
/-! SUPPORT. One step: the row of the word at hand, or the processor's next operation (20_memory.md R31). -/

namespace Sys2Proof.Machine

/-- With no operation in progress and none to come the MMU waits (R150). -/
theorem step_of_no_request {s : State} (hp : s.phase = .idle) (hi : s.inputs = []) : step s = .next s := by
  rw [step_of_idle hp, State.accept, hi]

/-- Settles O9: with no operation in progress the processor's next one is taken, and at each point of an operation
the word at hand is the one that the phase holds. -/
theorem stepRunsTheDecodedRow : Obligations.StepRunsTheDecodedRow := by
  refine ⟨fun _ hp => step_of_idle hp, fun _ hp hi => step_of_no_request hp hi,
    fun s v codeVa priv rest hp hi => ?writeControl, fun s v priv rest hp hi => ?writeTtb,
    fun s w v codeVa cp priv rest hp hi => ?transfer, fun s v codeVa priv i hp => ?ctrlReg,
    fun s v priv i hp => ?ttbReg, fun s w v codeVa cp priv i hp => ?coproc, fun s w p i hp => ?l1Addr,
    fun s w p i hp => ?l1Desc, fun s t w d p i hp => ?l2Addr, fun s t w d p i hp => ?l2Desc,
    fun s e a i hp => ?dacField⟩
  case writeControl => exact step_of_request hp hi
  case writeTtb => exact step_of_request hp hi
  case transfer => exact step_of_request hp hi
  all_goals exact step_of_decoded (by simp only [State.nextWord, hp])

end Sys2Proof.Machine
end

section
/-! SUPPORT. What the processor sees of memory, and what the walk's reads see (20_memory.md R44, R49): the view after
writes arrive, after a data write, and the descriptor that a walk reads. -/

namespace Sys2Proof.Machine

/-! ## The processor's view (R49, D4) -/

/-- Held writes that arrive before a descriptor read do not change what the processor sees. -/
theorem State.drainSome_coherentByte {s : State} (h : s.MemoryWf) (x : Word) :
    s.drainSome.coherentByte x = s.coherentByte x :=
  drainGo_view h.mem s.draws 0 [] s.pending x h.pending

/-- The arrival of every held write does not change what the processor sees. -/
theorem State.drainAll_coherentByte {s : State} (h : s.MemoryWf) (x : Word) :
    s.drainAll.coherentByte x = s.coherentByte x :=
  Memory.read_writeAll h.mem x s.pending h.pending

/-- Settles O20, by induction on the held writes (`drainGo_view`): none overtakes an older one to the same byte. -/
theorem arrivingWritesKeepTheProcessorsView : Obligations.ArrivingWritesKeepTheProcessorsView :=
  fun _ hs x => State.drainSome_coherentByte hs.memoryWf x

/-! ## The bytes of one write -/

/-- A write has its `i`th byte at the `i`th address from its start. -/
theorem PendingWrite.byteAt_add {pa : Word} {data : List Byte} (hlen : data.length ≤ 2 ^ 32) {i : Nat}
    (hi : i < data.length) : (⟨pa, data⟩ : PendingWrite).byteAt (pa + BitVec.ofNat 32 i) = some data[i] := by
  simp only [PendingWrite.byteAt, Word.offset_toNat hi hlen, List.getElem?_eq_getElem hi]

/-- A write has no byte at an address outside it. -/
theorem PendingWrite.byteAt_of_outside {pa x : Word} {data : List Byte}
    (h : ∀ i < data.length, x ≠ pa + BitVec.ofNat 32 i) : (⟨pa, data⟩ : PendingWrite).byteAt x = none := by
  refine List.getElem?_eq_none (Nat.le_of_not_lt fun hlt => ?_)
  exact h _ hlt (Word.eq_add_offset pa x).symm

/-! ## A data write (R35, R49) -/

/-- A write that a cache or a write buffer takes is held back (R35). -/
theorem State.storeData_of_holdsBack {s : State} {c b : Bool} (h : holdsBack s.cfg c b = true) (pa : Word)
    (data : List Byte) :
    s.storeData pa c b data = s.withPending (s.pending ++ [⟨s.writeAddress pa c, data⟩]) :=
  if_pos h

/-- Any other write is made in main memory, over what is there or, where an older write to one of its bytes is held,
over what is there when every held write has arrived: no write that is still held touches its bytes. -/
theorem State.storeData_of_not_holdsBack {s : State} {c b : Bool} (h : holdsBack s.cfg c b = false) (pa : Word)
    (data : List Byte) :
    ∃ t, (t = s ∨ t = s.drainAll) ∧ (∀ q ∈ t.pending, PendingWrite.overlaps ⟨pa, data⟩ q = false) ∧
      s.storeData pa c b data = t.withMem (t.mem.writeBytes pa data) := by
  simp only [State.storeData, h, Bool.false_eq_true, if_false]
  split
  · exact ⟨s.drainAll, .inr rfl, fun q hq => absurd hq List.not_mem_nil, rfl⟩
  · rename_i hnone
    exact ⟨s, .inl rfl, by simpa using hnone, rfl⟩

/-- What the processor sees after a write that hits no cache: the bytes of the write, and every other byte as before. -/
theorem State.storeData_coherentByte {s : State} (hs : s.MemoryWf) {c : Bool} (hc : s.cacheHit c = false) (b : Bool)
    (pa : Word) {data : List Byte} (hlen : data.length ≤ 2 ^ 32) (x : Word) :
    (s.storeData pa c b data).coherentByte x =
      ((⟨pa, data⟩ : PendingWrite).byteAt x).getD (s.coherentByte x) := by
  cases hb : holdsBack s.cfg c b with
  | true =>
    have haddr : s.writeAddress pa c = pa := if_neg (Bool.eq_false_iff.mp hc)
    have hnewest : pendingByte (s.pending ++ [⟨pa, data⟩]) x =
        ((⟨pa, data⟩ : PendingWrite).byteAt x).or (pendingByte s.pending x) := pendingByte_append _ _ _
    rw [State.storeData_of_holdsBack hb, haddr, State.coherentByte, State.withPending_pending, hnewest]
    cases (⟨pa, data⟩ : PendingWrite).byteAt x <;> rfl
  | false =>
    obtain ⟨t, ht, hover, heq⟩ := State.storeData_of_not_holdsBack hb pa data
    have htwf : t.MemoryWf := by
      rcases ht with rfl | rfl
      · exact hs
      · exact hs.drainAll
    have hview : t.coherentByte x = s.coherentByte x := by
      rcases ht with rfl | rfl
      · rfl
      · exact State.drainAll_coherentByte hs x
    have hread : (t.mem.writeBytes pa data).read x.toNat =
        ((⟨pa, data⟩ : PendingWrite).byteAt x).getD (t.memByte x) := Memory.read_writeBytes htwf.mem pa x data hlen
    have hstored : (s.storeData pa c b data).coherentByte x =
        (pendingByte t.pending x).getD (((⟨pa, data⟩ : PendingWrite).byteAt x).getD (t.memByte x)) := by
      rw [heq, ← hread]
      rfl
    rw [hstored, ← hview]
    cases hbyte : (⟨pa, data⟩ : PendingWrite).byteAt x with
    | none => rfl
    | some v =>
      have hfree : pendingByte t.pending x = none := pendingByte_eq_none fun q hq =>
        PendingWrite.byteAt_of_not_overlaps (hover q hq) (by simp [hbyte])
      rw [hfree]
      rfl

/-- Settles O50: the processor sees the write's own bytes (`State.storeData_coherentByte`), and no others. -/
theorem writeIsSeenInProgramOrder : Obligations.WriteIsSeenInProgramOrder := by
  intro s pa c b data hs hlen hc
  have hview := State.storeData_coherentByte hs.memoryWf hc b pa hlen
  refine ⟨fun i hi => ?_, fun x hx => ?_⟩
  · rw [hview, PendingWrite.byteAt_add hlen hi]
    rfl
  · rw [hview, PendingWrite.byteAt_of_outside hx]
    rfl

/-! ## What the walk's reads see (R44) -/

/-- With nothing held back what the processor sees is main memory. -/
theorem State.coherentByte_of_drained {s : State} (h : s.drained) : s.coherentByte = s.memByte := by
  have hp : s.pending = [] := h
  funext a
  rw [State.coherentByte, hp]
  rfl

/-- The walk's reads see main memory (R44). -/
theorem State.walkWord_of_mainMemoryOnly {s : State} (h : s.cfg.walkSees = .mainMemoryOnly) (a : Word) :
    s.walkWord a = wordAt s.cfg.byteOrder s.memByte a := by
  simp only [State.walkWord, State.walkByte, h, wordAt]

/-- The walk's reads see main memory under the held writes (R44, log entry 12). -/
theorem State.walkWord_of_throughBuffer {s : State} (h : s.cfg.walkSees = .throughBuffer) (a : Word) :
    s.walkWord a = wordAt s.cfg.byteOrder s.coherentByte a := by
  simp only [State.walkWord, State.walkByte, h, wordAt]

/-- With nothing held back the walk's reads see main memory, under either value of `WALK_SEES`. -/
theorem State.walkWord_of_drained {s : State} (h : s.drained) (a : Word) :
    s.walkWord a = wordAt s.cfg.byteOrder s.memByte a := by
  cases hc : s.cfg.walkSees with
  | mainMemoryOnly => exact State.walkWord_of_mainMemoryOnly hc a
  | throughBuffer => rw [State.walkWord_of_throughBuffer hc, State.coherentByte_of_drained h]

/-- What a descriptor read leaves alone with nothing held back, wherever the walk then stands. -/
theorem State.physRead32_frame_of_drained {s : State} (h : s.drained) (a : Word) (q : Phase) :
    ((s.physRead32 a).2.withPhase q).walkReads = s.walkReads ++ [a] ∧
      ((s.physRead32 a).2.withPhase q).outputs = s.outputs ∧
      SameRegisters s ((s.physRead32 a).2.withPhase q) ∧ SameFaultState s ((s.physRead32 a).2.withPhase q) ∧
      SameTlbs s ((s.physRead32 a).2.withPhase q) ∧ SameMemory s ((s.physRead32 a).2.withPhase q) ∧
      SameInputs s ((s.physRead32 a).2.withPhase q) := by
  rw [State.physRead32_of_drained h]
  exact ⟨rfl, rfl, ⟨rfl, rfl, rfl, rfl⟩, ⟨rfl, rfl, rfl⟩, ⟨rfl, rfl, rfl⟩, ⟨fun _ => rfl, rfl, rfl⟩, ⟨rfl⟩⟩

/-- The word that a descriptor read gives with nothing held back (R44, R45). -/
theorem State.physRead32_word_of_drained {s : State} (h : s.drained) (a : Word) :
    (s.physRead32 a).1 = wordAt s.cfg.byteOrder s.memByte a := by
  rw [State.physRead32_of_drained h, State.walkWord_of_drained h]

/-- A descriptor read with writes on their way (R44, R49, D7), wherever the walk then stands. -/
theorem State.physRead32_amongArrivals {s : State} (hs : s.MemoryWf) (a : Word) (q : Phase) :
    ReadAmongArrivals a (s.physRead32 a).1 s ((s.physRead32 a).2.withPhase q) := by
  obtain ⟨hr, hf, ht, hi, ho, hw⟩ := s.physRead32_frame a
  have hmem : (s.physRead32 a).2.mem = (drainGo s.draws 0 [] s.pending s.mem).2 := rfl
  have hpending : (s.physRead32 a).2.pending = (drainGo s.draws 0 [] s.pending s.mem).1 := rfl
  have hword := s.physRead32_word a
  have hcache := s.physRead32_cacheHolds a
  generalize s.physRead32 a = r at hr hf ht hi ho hw hmem hpending hword hcache
  refine ⟨fun hc => ?_, fun hc => ?_, fun x hx => ?_, ?_, hw, ho, ⟨hr.cfg, hr.ctrl, hr.ttb, hr.dac⟩,
    ⟨hf.lastFault, hf.fsr, hf.far⟩, ⟨ht.tlb, ht.itlb, ht.dtlb⟩, ⟨hi.inputs⟩, hcache⟩
  · rw [hword, State.walkWord_of_mainMemoryOnly (by rw [hr.cfg, hc]), hr.cfg]
    rfl
  · rw [hword, State.walkWord_of_throughBuffer (by rw [hr.cfg, hc]), hr.cfg]
    rfl
  · have hread := drainGo_outside hs.mem s.draws 0 [] s.pending x hs.pending hx
    rwa [← hmem] at hread
  · rw [State.withPhase_pending, hpending]
    exact drainGo_sublist s.draws 0 [] s.pending s.mem

/-! ## The rows that read a descriptor (R92, R95, R96) -/

/-- `L1_ADDR` while a first-level descriptor address is at hand. -/
theorem exec_l1Addr {s : State} {p : Purpose} (hp : s.phase.atL1Addr = some p) (base : BitVec 18)
    (index : BitVec 12) :
    exec (.l1Addr base index) s =
      .next ((s.physRead32 (base ++ index ++ 0b00#2)).2.withPhase
        (.l1Desc (s.physRead32 (base ++ index ++ 0b00#2)).1 p)) := by
  simp only [exec, execL1Addr, hp]

/-- A second-level descriptor read while an address of its kind of table is at hand. -/
theorem readL2Desc_of_atL2Addr {t : TableKind} {s : State} {d : BitVec 4} {p : Purpose}
    (hp : s.phase.atL2Addr t = some (d, p)) (addr : Word) :
    readL2Desc t addr s = .next ((s.physRead32 addr).2.withPhase (.l2Desc t (s.physRead32 addr).1 d p)) := by
  simp only [readL2Desc, hp]

/-- `L2_ADDR_COARSE` is the read of a second-level descriptor of a coarse table. -/
theorem exec_l2AddrCoarse (base : BitVec 22) (index : BitVec 8) (s : State) :
    exec (.l2AddrCoarse base index) s = readL2Desc .coarse (base ++ index ++ 0b00#2) s := rfl

/-- `L2_ADDR_FINE` is the read of a second-level descriptor of a fine table. -/
theorem exec_l2AddrFine (base : BitVec 20) (index : BitVec 10) (s : State) :
    exec (.l2AddrFine base index) s = readL2Desc .fine (base ++ index ++ 0b00#2) s := rfl

/-- Settles O18: each of the three rows is one descriptor read, which finds nothing to let arrive. -/
theorem descriptorIsReadFromMainMemory : Obligations.DescriptorIsReadFromMainMemory := by
  intro s hd
  have hframe := fun a q => State.physRead32_frame_of_drained hd a q
  refine ⟨fun base index p hp => ?_, fun base index d p hp => ?_, fun base index d p hp => ?_⟩
  · refine ⟨_, exec_l1Addr hp base index, ?_, hframe _ _⟩
    rw [State.withPhase_phase, State.physRead32_word_of_drained hd]
  · refine ⟨_, (exec_l2AddrCoarse base index s).trans (readL2Desc_of_atL2Addr hp _), ?_, hframe _ _⟩
    rw [State.withPhase_phase, State.physRead32_word_of_drained hd]
  · refine ⟨_, (exec_l2AddrFine base index s).trans (readL2Desc_of_atL2Addr hp _), ?_, hframe _ _⟩
    rw [State.withPhase_phase, State.physRead32_word_of_drained hd]

/-- Settles O19: each of the three rows is one descriptor read, before which some of the held writes arrive. -/
theorem descriptorReadMayLetWritesArrive : Obligations.DescriptorReadMayLetWritesArrive := by
  intro s hs
  have hread := fun a q => State.physRead32_amongArrivals hs.memoryWf a q
  refine ⟨fun base index p hp => ?_, fun base index d p hp => ?_, fun base index d p hp => ?_⟩
  · exact ⟨_, _, exec_l1Addr hp base index, rfl, hread _ _⟩
  · exact ⟨_, _, (exec_l2AddrCoarse base index s).trans (readL2Desc_of_atL2Addr hp _), rfl, hread _ _⟩
  · exact ⟨_, _, (exec_l2AddrFine base index s).trans (readL2Desc_of_atL2Addr hp _), rfl, hread _ _⟩

end Sys2Proof.Machine
end

section
/-! SUPPORT. The data of an access that proceeds, the flat access of a disabled MMU, and what a lookup ends in
(20_memory.md R31 to R43). -/

namespace Sys2Proof.Machine

/-! ## The data of an access (R37, R53) -/

/-- As many bytes are read of a view as are asked for. -/
@[simp] theorem readBytes_length (view : Word → Byte) (a : Word) (n : Nat) : (readBytes view a n).length = n := by
  simp [readBytes]

/-- The `i`th byte that is read of a view is what the view has at the `i`th address. -/
@[simp] theorem getElem_readBytes {view : Word → Byte} {a : Word} {n i : Nat} (h : i < (readBytes view a n).length) :
    (readBytes view a n)[i] = view (a + BitVec.ofNat 32 i) := by
  simp [readBytes]

/-- A read gets as many bytes as it asks for. -/
theorem State.loadData_length (pa : Word) (c : Bool) (n : Nat) (s : State) : (s.loadData pa c n).length = n := by
  unfold State.loadData
  split <;> simp

/-- A fetch gets as many bytes as it asks for. -/
theorem State.fetchData_length (pa : Word) (c : Bool) (n : Nat) (s : State) : (s.fetchData pa c n).length = n := by
  unfold State.fetchData
  split <;> simp

/-- A read that hits no cache gets what the processor sees (R37). -/
theorem State.loadData_of_no_hit {s : State} {c : Bool} (h : s.cacheHit c = false) (pa : Word) (n : Nat) :
    s.loadData pa c n = readBytes s.coherentByte pa n :=
  if_neg (Bool.eq_false_iff.mp h)

/-- A fetch that hits no cache gets what the fetch sees (R53). -/
theorem State.fetchData_of_no_hit {s : State} {c : Bool} (h : s.cacheHit c = false) (pa : Word) (n : Nat) :
    s.fetchData pa c n = readBytes s.fetchByte pa n :=
  if_neg (Bool.eq_false_iff.mp h)

/-- The arrival of every held write changes only bytes that one of them has. -/
theorem State.drainAll_memByte_of_outside {s : State} (h : s.MemoryWf) {x : Word}
    (hx : pendingByte s.pending x = none) : s.drainAll.memByte x = s.memByte x := by
  have hread : s.drainAll.memByte x = (pendingByte s.pending x).getD (s.memByte x) :=
    Memory.read_writeAll h.mem x s.pending h.pending
  rw [hread, hx]
  rfl

/-- A write that is made at once changes its own bytes of main memory to those written, and others only where an older
held write has one (R49). -/
theorem State.storeData_memByte {s : State} (hs : s.MemoryWf) {c b : Bool} (hb : holdsBack s.cfg c b = false)
    (pa : Word) {data : List Byte} (hlen : data.length ≤ 2 ^ 32) :
    (∀ i (h : i < data.length), (s.storeData pa c b data).memByte (pa + BitVec.ofNat 32 i) = data[i]) ∧
      ∀ x : Word, (∀ i < data.length, x ≠ pa + BitVec.ofNat 32 i) → pendingByte s.pending x = none →
        (s.storeData pa c b data).memByte x = s.memByte x := by
  obtain ⟨t, ht, -, heq⟩ := State.storeData_of_not_holdsBack hb pa data
  have htwf : t.MemoryWf := by
    rcases ht with rfl | rfl
    · exact hs
    · exact hs.drainAll
  have hread : ∀ x : Word, (s.storeData pa c b data).memByte x =
      ((⟨pa, data⟩ : PendingWrite).byteAt x).getD (t.memByte x) := by
    rw [heq]
    exact fun x => Memory.read_writeBytes htwf.mem pa x data hlen
  refine ⟨fun i hi => ?_, fun x hx hfree => ?_⟩
  · rw [hread, PendingWrite.byteAt_add hlen hi]
    rfl
  · rw [hread, PendingWrite.byteAt_of_outside hx]
    rcases ht with rfl | rfl
    · rfl
    · exact State.drainAll_memByte_of_outside hs hfree

/-- What an access moves, whatever its kind: the bytes it gives the processor and what it does to memory. -/
theorem State.moveData_movedData {s : State} (hs : s.MemoryWf) (pa : Word) (c b : Bool) {tr : Transfer}
    (hlen : tr.size ≤ 2 ^ 32) : MovedData pa c b tr (s.moveData pa c b tr).1 s (s.moveData pa c b tr).2 := by
  cases tr with
  | fetch n =>
    refine ⟨fun _ => s.fetchData_length pa c n, nofun, ?_, fun _ => ⟨fun _ => rfl, rfl⟩, nofun, nofun, nofun, nofun⟩
    rintro _ ⟨⟩ hmiss i hi
    simp only [State.moveData, State.fetchData_of_no_hit hmiss, getElem_readBytes]
    exact s.fetchByte_cases _
  | read n =>
    refine ⟨fun _ => s.loadData_length pa c n, ?_, nofun, fun _ => ⟨fun _ => rfl, rfl⟩, nofun, nofun, nofun, nofun⟩
    rintro _ ⟨⟩ hmiss
    exact State.loadData_of_no_hit hmiss pa n
  | write data =>
    refine ⟨fun h => absurd rfl h, nofun, nofun, fun h => absurd rfl h, fun _ _ => rfl, ?held, ?stored, ?outside⟩
    case held =>
      rintro _ ⟨⟩ hb
      rw [State.moveData, State.storeData_of_holdsBack hb]
      exact ⟨fun _ => rfl, rfl⟩
    case stored =>
      rintro _ ⟨⟩ hb
      exact (State.storeData_memByte hs hb pa hlen).1
    case outside =>
      rintro _ ⟨⟩ hb
      exact (State.storeData_memByte hs hb pa hlen).2

/-! ## An access that proceeds (R31, R36) -/

/-- The answer of an access that proceeds, and what it leaves alone. -/
theorem State.proceed_proceeded {s t : State} {pa : Word} {c b : Bool} {room : Nat} {tr : Transfer}
    (h : s.proceed pa c b room tr = .next t) : Proceeded pa c b (s.moveData pa c b tr).1 s t := by
  obtain ⟨hr, hf, ht, hi, hp, hw, -⟩ := State.proceed_frame h
  refine ⟨?_, hp, hr, hf, ht, hi, hw, State.proceed_cacheHolds h⟩
  obtain ⟨-, rfl⟩ := State.proceed_next h
  obtain ⟨-, -, -, ho, -⟩ := s.moveData_frame pa c b tr
  exact congrArg (Response.ok pa c b _ :: ·) ho

/-- The data of an access that proceeds inside a region. -/
theorem State.proceed_movedData {s t : State} (hs : s.MemoryWf) {pa : Word} {c b : Bool} {room : Nat} {tr : Transfer}
    (hroom : room ≤ 2 ^ 32) (h : s.proceed pa c b room tr = .next t) :
    MovedData pa c b tr (s.moveData pa c b tr).1 s t := by
  obtain ⟨hsize, rfl⟩ := State.proceed_next h
  have hmoved := State.moveData_movedData hs pa c b (hsize.trans hroom)
  generalize s.moveData pa c b tr = r at hmoved
  exact ⟨hmoved.size, hmoved.read, hmoved.fetch, hmoved.noStore, hmoved.noData, hmoved.held, hmoved.stored,
    hmoved.outside⟩

/-! ## With the MMU disabled (R39 to R43) -/

/-- A disabled MMU's access is never bufferable (R39 to R41). -/
theorem disabledBits_b (cfg : Config) (kind : AccessKind) : (disabledBits cfg kind).2 = false := by
  unfold disabledBits
  split <;> rfl

/-- A disabled MMU's access is cacheable just when it is a fetch, the caches are split and the parameter lets it be
(R39 to R41). -/
theorem disabledBits_c_iff (cfg : Config) (kind : AccessKind) :
    (disabledBits cfg kind).1 = true ↔ cfg.cacheWithMmuOff = true ∧ kind = .fetch ∧ cfg.tlbOrg = .split := by
  unfold disabledBits
  split <;> simp [*]

/-- With the MMU disabled the next step is the flat access (R42, R43). -/
theorem step_eq_disabledAccess {s : State} {a : Access} {rest : List Request} (hp : s.phase = .idle)
    (hi : s.inputs = .access a :: rest) (hm : s.ctrl.getLsbD 0 = false) :
    step s = (s.withInputs rest).disabledAccess a :=
  (step_of_request hp hi).trans (State.beginAccess_of_disabled (s := s.withInputs rest) a hm)

/-- Settles O30: the flat access proceeds at its own address, in a region that is the address space from there on. -/
theorem disabledAccessIsFlat : Obligations.DisabledAccessIsFlat := by
  intro s a rest hp hi hm hroom
  obtain ⟨t, hflat⟩ : ∃ t, (s.withInputs rest).disabledAccess a = .next t := ⟨_, State.proceed_of_room hroom⟩
  obtain ⟨hout, hidle, hr, hf, ht, hin, hw, hcache⟩ := State.proceed_proceeded hflat
  refine ⟨t, _, _, _, (step_eq_disabledAccess hp hi hm).trans hflat, hout, hidle, hin.inputs,
    ⟨hr.cfg, hr.ctrl, hr.ttb, hr.dac⟩, ⟨hf.lastFault, hf.fsr, hf.far⟩, ⟨ht.tlb, ht.itlb, ht.dtlb⟩, hw, fun hs => ?_,
    hcache, disabledBits_b _ _, disabledBits_c_iff _ _⟩
  have hwf : ((s.withInputs rest).withWalkReads []).MemoryWf := ⟨hs.mem, hs.pending⟩
  obtain ⟨hsize, hread, hfetch, hnoStore, hnoData, hheld, hstored, houtside⟩ :=
    State.proceed_movedData hwf (Nat.sub_le _ _) hflat
  exact ⟨hsize, hread, hfetch, hnoStore, hnoData, hheld, hstored, houtside⟩

/-! ## The lookup (R31 to R34) -/

/-- A lookup that finds nothing starts the walk (R34). -/
theorem State.enabledAccess_of_miss {s : State} {a : Access}
    (h : ∀ x ∈ s.tlbOf a.kind.side, x.covers a.va = false) : s.enabledAccess a = s.startWalk (.access a) := by
  have hnone : s.tlbLookup a.kind.side a.va = [] := List.filter_eq_nil_iff.mpr fun x hx => by simp [h x hx]
  simp only [State.enabledAccess, hnone]

/-- Settles O32: the lookup of the next access finds nothing. -/
theorem tlbMissStartsTheWalk : Obligations.TlbMissStartsTheWalk := by
  intro s a rest hp hi hm hmiss
  rw [step_of_access_enabled hp hi hm, State.enabledAccess_of_miss (s := s.withInputs rest) hmiss]
  rfl

/-- What the start of a walk leaves alone, and where the MMU then stands (R90). -/
theorem State.startWalk_frame {p : Purpose} {s t : State} (h : t = s.startWalk p ∨ t = (s.startWalk p).tick) :
    SameRegisters s t ∧ SameFaultState s t ∧ SameTlbs s t ∧ SameMemory s t ∧ SameInputs s t ∧
      t.outputs = s.outputs ∧ t.walkReads = [] ∧ t.phase = .l1Addr (l1DescAddr s.ttb p.va) p := by
  rcases h with rfl | rfl
  all_goals
    refine ⟨?_, ?_, ?_, ?_, ?_, ?_, ?_, ?_⟩ <;> (try constructor) <;> simp [State.startWalk, State.memByte]

/-- What a lookup's hit leaves alone. -/
theorem State.tlbHit_frame (x : TlbLine) (a : Access) (s : State) :
    SameRegisters s (s.tlbHit x a) ∧ SameTlbs s (s.tlbHit x a) ∧ SameMemory s (s.tlbHit x a) ∧
      SameInputs s (s.tlbHit x a) := by
  cases x with
  | entry e => exact ⟨⟨rfl, rfl, rfl, rfl⟩, ⟨rfl, rfl, rfl⟩, ⟨fun _ => rfl, rfl, rfl⟩, ⟨rfl⟩⟩
  | fault f => exact s.raiseAbort_frame _ _ _ _

/-- Settles O33, by the cases of a lookup (`State.enabledAccess_cases`): a walk, or a line that it finds. -/
theorem lookupHitsOrWalks : Obligations.LookupHitsOrWalks := by
  intro s a rest hp hi hm
  refine ⟨_, step_of_access_enabled hp hi hm, ?_⟩
  rcases (s.withInputs rest).enabledAccess_cases a with ⟨hunlocked, hwalk⟩ | ⟨x, hx, hhit⟩
  · have hfree : ∀ x ∈ s.tlbOf a.kind.side, x.covers a.va = true → x.locked = false := fun x hx hcov =>
      hunlocked x (State.mem_tlbLookup.mpr ⟨hx, hcov⟩)
    obtain ⟨hr, hf, ht, hmemory, hin, ho, hw, hp⟩ := State.startWalk_frame hwalk
    exact ⟨hin.inputs, hw, ⟨hr.cfg, hr.ctrl, hr.ttb, hr.dac⟩, ⟨ht.tlb, ht.itlb, ht.dtlb⟩,
      ⟨hmemory.bytes, hmemory.pending, hmemory.cacheHolds⟩,
      .inr (.inl ⟨hp, ho, ⟨hf.lastFault, hf.fsr, hf.far⟩, hfree⟩)⟩
  · obtain ⟨hmem, hcov⟩ := State.mem_tlbLookup.mp hx
    have hw := State.tlbHit_walkReads x a ((s.withInputs rest).withWalkReads [])
    obtain ⟨hr, ht, hmemory, hin⟩ := ((s.withInputs rest).withWalkReads []).tlbHit_frame x a
    rw [hhit]
    refine ⟨hin.inputs, hw, ⟨hr.cfg, hr.ctrl, hr.ttb, hr.dac⟩, ⟨ht.tlb, ht.itlb, ht.dtlb⟩,
      ⟨hmemory.bytes, hmemory.pending, hmemory.cacheHolds⟩, ?_⟩
    cases x with
    | entry e => refine .inl ⟨e, hmem, hcov, ?_, ?_, ?_, ?_, ?_⟩ <;> simp [State.tlbHit]
    | fault f => exact .inr (.inr ⟨f, hmem, hcov, s.tlbHit_fault_raised rest f a⟩)

end Sys2Proof.Machine
end

section
/-! SUPPORT. An access from its lookup to its answer (20_memory.md R31): the walk row by row is the walk of R106, the
check row by row is the check of R139, and an access comes out the same by hit and by walk. -/

namespace Sys2Proof.Machine

/-! ## Runs of several steps -/

/-- A run of a machine that answers a next state goes on from there. -/
theorem coreRun_add (M : Host.Core) {k : Nat} (m : Nat) {s t : M.State} (h : M.run k s = .next t) :
    M.run (k + m) s = M.run m t := by
  induction k generalizing s with
  | zero =>
    cases h
    rw [Nat.zero_add]
  | succ k ih =>
    rw [Nat.succ_add]
    simp only [Host.Core.run] at h ⊢
    cases hs : M.step s with
    | next u =>
      rw [hs] at h
      exact ih h
    | fault f => simp [hs] at h
    | refused r => simp [hs] at h

/-- A step with the word of a row at hand, in that row's role, runs the row. -/
theorem step_of_encoded {s : State} {i : Instr} (hw : s.nextWord = some (i.role, encode i)) : step s = exec i s :=
  step_of_decoded hw (decodeWord_encode i)

/-! ## A state that is further along in a walk -/

/-- The second state is the first, further along in its walk: it stands elsewhere in the operation, with other
descriptor reads and free values behind it, and is otherwise the same. -/
def StillWalking (s u : State) : Prop :=
  ∃ ph reads n, u = { s with phase := ph, walkReads := reads, draws := n }

theorem StillWalking.withPhase (s : State) (q : Phase) : StillWalking s (s.withPhase q) :=
  ⟨q, s.walkReads, s.draws, rfl⟩

/-- A descriptor read that finds nothing to let arrive only moves the walk on. -/
theorem StillWalking.physRead32 {s : State} (h : s.drained) (a : Word) (q : Phase) :
    StillWalking s ((s.physRead32 a).2.withPhase q) := by
  rw [State.physRead32_of_drained h]
  exact ⟨q, s.walkReads ++ [a], s.draws + 1, rfl⟩

/-- A line that was placed later in a walk was placed, seen from earlier in it. -/
theorem Placed.of_stillWalking {s u t : State} (h : StillWalking s u) {x : TlbLine} {side : TlbSide}
    (hx : Placed x side u t) : Placed x side s t := by
  obtain ⟨ph, reads, n, rfl⟩ := h
  exact ⟨hx.line, hx.lockedStay, hx.noOther, hx.capacity, hx.otherTlb⟩

/-- What a walk is to end in, it ends in, seen from earlier in the walk. -/
theorem WalkEnds.of_stillWalking {s u t : State} (h : StillWalking s u) {e : TlbEntry} {p : Purpose}
    (he : WalkEnds e p u t) : WalkEnds e p s t := by
  have hplaced := fun {x : TlbLine} {side : TlbSide} (hx : Placed x side u t) => hx.of_stillWalking h
  obtain ⟨ph, reads, n, rfl⟩ := h
  cases p with
  | access a =>
    obtain ⟨hp, hx, hr, hf, hm, hi, ho⟩ := he
    exact ⟨hp, hplaced hx, ⟨hr.cfg, hr.ctrl, hr.ttb, hr.dac⟩, ⟨hf.lastFault, hf.fsr, hf.far⟩,
      ⟨hm.bytes, hm.pending, hm.cacheHolds⟩, ⟨hi.inputs⟩, ho⟩
  | lock side va =>
    obtain ⟨hp, hx, hall, hr, hf, hm, hi, ho⟩ := he
    exact ⟨hp, hplaced hx, hall, ⟨hr.cfg, hr.ctrl, hr.ttb, hr.dac⟩, ⟨hf.lastFault, hf.fsr, hf.far⟩,
      ⟨hm.bytes, hm.pending, hm.cacheHolds⟩, ⟨hi.inputs⟩, ho⟩

/-- An abort that was taken later in a walk was taken, seen from earlier in it. -/
theorem Aborted.of_stillWalking {s u t : State} (h : StillWalking s u) {kind : AbortKind} {va : Word}
    {domain : Option (BitVec 4)} {upd : Bool} (ha : Aborted kind va domain upd u t) :
    Aborted kind va domain upd s t := by
  obtain ⟨ph, reads, n, rfl⟩ := h
  obtain ⟨ho, hl, hregs, hp, hr, hm, hi⟩ := ha
  refine ⟨ho, hl, ⟨fun hu => ?_, hregs.kept⟩, hp, ⟨hr.cfg, hr.ctrl, hr.ttb, hr.dac⟩,
    ⟨hm.bytes, hm.pending, hm.cacheHolds⟩, ⟨hi.inputs⟩⟩
  obtain ⟨haddress, hstatus, hdomain, hbit8, hothers⟩ := hregs.written hu
  exact ⟨haddress, hstatus, hdomain, hbit8, hothers⟩

/-- A walk that faulted later on has faulted, seen from earlier in it. -/
theorem WalkFaults.of_stillWalking {s u t : State} (h : StillWalking s u) {f : HeldFault} {p : Purpose}
    (hf : WalkFaults f p u t) : WalkFaults f p s t := by
  have haborted := fun {kind va domain upd} (ha : Aborted kind va domain upd u t) => ha.of_stillWalking h
  have hplaced := fun {x : TlbLine} {side : TlbSide} (hx : Placed x side u t) => hx.of_stillWalking h
  obtain ⟨ph, reads, n, rfl⟩ := h
  refine ⟨fun hc => haborted (hf.aborts hc), fun hn hm => ?_, fun hc => ?_, fun hc => hplaced (hf.held hc)⟩
  · obtain ⟨ho, hp, hr, hfs, hmem, hi⟩ := hf.quiet hn hm
    exact ⟨ho, hp, ⟨hr.cfg, hr.ctrl, hr.ttb, hr.dac⟩, ⟨hfs.lastFault, hfs.fsr, hfs.far⟩,
      ⟨hmem.bytes, hmem.pending, hmem.cacheHolds⟩, ⟨hi.inputs⟩⟩
  · obtain ⟨h1, h2, h3⟩ := hf.tlbs hc
    exact ⟨h1, h2, h3⟩

/-- What a walk reaches from a later point it reaches from an earlier one. -/
theorem WalkResult.reached_of_stillWalking {s u : State} (h : StillWalking s u) {w : WalkResult} {p : Purpose}
    {r : Result} (hr : w.reached p u r) : w.reached p s r := by
  cases w with
  | entry e =>
    obtain ⟨t, ht, hends⟩ := hr
    exact ⟨t, ht, hends.of_stillWalking h⟩
  | abort kind domain =>
    obtain ⟨t, f, ht, hfaults, hrest⟩ := hr
    exact ⟨t, f, ht, hfaults.of_stillWalking h, hrest⟩
  | tinyInCoarse => exact hr
  | sbzNonzero => exact hr

/-! ## The ends of a walk -/

/-- A walk that meets a fault descriptor reaches its abort (R161, R162). -/
theorem WalkResult.reached_walkFault {f : HeldFault} {p : Purpose} (s : State) (h : f.covers p.va = true) :
    (WalkResult.abort (.translation f.level) f.domain).reached p s (.next (s.walkFault f p)) :=
  ⟨_, f, rfl, (s.walkFault_spec f p).1, h, rfl, rfl⟩

/-- A walk that finds an entry reaches it (R102, R147). -/
theorem WalkResult.reached_finishWalk (e : TlbEntry) (p : Purpose) (s : State) :
    (WalkResult.entry e).reached p s (.next (s.finishWalk e p)) :=
  ⟨_, rfl, (s.finishWalk_spec e p).1⟩

/-- A descriptor that `SBZ_POLICY` may refuse: it is refused, or the walk finds its entry (R82). -/
theorem WalkResult.reached_unless_refused (c : Bool) (e : TlbEntry) (p : Purpose) (s : State) :
    (if c then WalkResult.sbzNonzero else .entry e).reached p s
      (if c then .refused .sbzNonzero else .next (s.finishWalk e p)) := by
  cases c
  · exact WalkResult.reached_finishWalk e p s
  · rfl

/-- The four values of the type bits of a descriptor (R63, R68), and of a domain field (R76). -/
theorem two_bits_cases (v : BitVec 2) : v = 0 ∨ v = 1 ∨ v = 2 ∨ v = 3 := by
  revert v
  decide

/-! ## The second-level descriptor (R97 to R100) -/

section SecondLevel

variable {t : TableKind} {s : State} {d : Word} {dom : BitVec 4} {p : Purpose}

theorem Phase.atL2Desc_of_eq (hp : s.phase = .l2Desc t d dom p) : s.phase.atL2Desc t = some (dom, p) := by
  simp only [hp, Phase.atL2Desc, if_true]

/-- A small page descriptor while a second-level descriptor of its table is at hand (R71, R99). -/
theorem smallPageTranslate_of_atL2Desc (hp : s.phase.atL2Desc t = some (dom, p)) (base : BitVec 20)
    (ap3 ap2 ap1 ap0 : BitVec 2) (c b : Bool) :
    smallPageTranslate t base ap3 ap2 ap1 ap0 c b s =
      .next (s.finishWalk (smallEntry p.va base ap3 ap2 ap1 ap0 dom c b) p) := by
  simp only [smallPageTranslate, hp]

/-- `L2C_SMALL` is the small page descriptor of a coarse table. -/
theorem exec_l2cSmall (base : BitVec 20) (ap3 ap2 ap1 ap0 : BitVec 2) (c b : Bool) (s : State) :
    exec (.l2cSmall base ap3 ap2 ap1 ap0 c b) s = smallPageTranslate .coarse base ap3 ap2 ap1 ap0 c b s := rfl

/-- `L2F_SMALL` is the small page descriptor of a fine table. -/
theorem exec_l2fSmall (base : BitVec 20) (ap3 ap2 ap1 ap0 : BitVec 2) (c b : Bool) (s : State) :
    exec (.l2fSmall base ap3 ap2 ap1 ap0 c b) s = smallPageTranslate .fine base ap3 ap2 ap1 ap0 c b s := rfl

/-- The word at hand is the second-level descriptor that was read. -/
theorem State.nextWord_of_l2Desc (hp : s.phase = .l2Desc t d dom p) : s.nextWord = some (.l2Desc t, d) := by
  simp only [State.nextWord, hp]

/-- A second-level fault descriptor ends the walk in a translation fault (R69, R97). -/
theorem step_of_l2Desc_fault (hp : s.phase = .l2Desc t d dom p) (h : field d 0 2 = 0) :
    step s = .next (s.walkFault (.page t p.va dom) p) := by
  have hfault : pageFault t s = .next (s.walkFault (.page t p.va dom) p) := by
    simp only [pageFault, Phase.atL2Desc_of_eq hp]
  cases t <;> exact (step_of_decoded (State.nextWord_of_l2Desc hp) (congrArg Except.ok (if_pos h))).trans hfault

/-- A large page descriptor ends the walk in its entry, unless it is refused (R70, R98). -/
theorem step_of_l2Desc_large (hp : s.phase = .l2Desc t d dom p) (h : field d 0 2 = 1) :
    step s = if refusesSbz s.cfg (field d 12 4 = 0) then .refused .sbzNonzero
      else .next (s.finishWalk (largeEntry p.va (field d 16 16) (field d 10 2) (field d 8 2) (field d 6 2)
        (field d 4 2) dom (d.getLsbD 3) (d.getLsbD 2)) p) := by
  rw [← largePageTranslate_of_atL2Desc (Phase.atL2Desc_of_eq hp)]
  cases t with
  | coarse =>
    refine (step_of_decoded (State.nextWord_of_l2Desc hp) ?_).trans (exec_l2cLarge ..)
    simp only [decodeWord, decodeL2Coarse, h]
    rfl
  | fine =>
    refine (step_of_decoded (State.nextWord_of_l2Desc hp) ?_).trans (exec_l2fLarge ..)
    simp only [decodeWord, decodeL2Fine, h]
    rfl

/-- A small page descriptor ends the walk in its entry (R71, R99). -/
theorem step_of_l2Desc_small (hp : s.phase = .l2Desc t d dom p) (h : field d 0 2 = 2) :
    step s = .next (s.finishWalk (smallEntry p.va (field d 12 20) (field d 10 2) (field d 8 2) (field d 6 2)
      (field d 4 2) dom (d.getLsbD 3) (d.getLsbD 2)) p) := by
  rw [← smallPageTranslate_of_atL2Desc (Phase.atL2Desc_of_eq hp)]
  cases t with
  | coarse =>
    refine (step_of_decoded (State.nextWord_of_l2Desc hp) ?_).trans (exec_l2cSmall ..)
    simp only [decodeWord, decodeL2Coarse, h]
    rfl
  | fine =>
    refine (step_of_decoded (State.nextWord_of_l2Desc hp) ?_).trans (exec_l2fSmall ..)
    simp only [decodeWord, decodeL2Fine, h]
    rfl

/-- A tiny page descriptor in a coarse table stops the machine (R73). -/
theorem step_of_l2Desc_tinyInCoarse (hp : s.phase = .l2Desc .coarse d dom p) (h : field d 0 2 = 3) :
    step s = .fault .tinyInCoarse := by
  have htiny : exec (.l2cTiny (field d 2 30)) s = .fault .tinyInCoarse := by
    simp only [exec, execL2cTiny, Phase.atL2Desc_of_eq hp]
  refine (step_of_decoded (State.nextWord_of_l2Desc hp) ?_).trans htiny
  simp only [decodeWord, decodeL2Coarse, h]
  rfl

/-- A tiny page descriptor in a fine table ends the walk in its entry, unless it is refused (R72, R100). -/
theorem step_of_l2Desc_tiny (hp : s.phase = .l2Desc .fine d dom p) (h : field d 0 2 = 3) :
    step s = if refusesSbz s.cfg (field d 6 4 = 0) then .refused .sbzNonzero
      else .next (s.finishWalk (tinyEntry p.va (field d 10 22) (field d 4 2) dom (d.getLsbD 3) (d.getLsbD 2)) p) := by
  rw [← exec_l2fTiny (Phase.atL2Desc_of_eq hp)]
  refine step_of_decoded (State.nextWord_of_l2Desc hp) ?_
  simp only [decodeWord, decodeL2Fine, h]
  rfl

/-- From a second-level descriptor the machine's walk ends in the next step, as R106 says. -/
theorem reached_of_l2Desc (hp : s.phase = .l2Desc t d dom p) : (walkL2 s.cfg t dom p.va d).reached p s (step s) := by
  rcases two_bits_cases (field d 0 2) with h | h | h | h
  · rw [step_of_l2Desc_fault hp h]
    simp only [walkL2, h]
    cases t <;> exact WalkResult.reached_walkFault s (by simp [HeldFault.page, HeldFault.covers])
  · rw [step_of_l2Desc_large hp h]
    simp only [walkL2, h]
    exact WalkResult.reached_unless_refused ..
  · rw [step_of_l2Desc_small hp h]
    simp only [walkL2, h]
    exact WalkResult.reached_finishWalk ..
  · cases t with
    | coarse =>
      rw [step_of_l2Desc_tinyInCoarse hp h]
      simp only [walkL2, h]
      rfl
    | fine =>
      rw [step_of_l2Desc_tiny hp h]
      simp only [walkL2, h]
      exact WalkResult.reached_unless_refused ..

end SecondLevel

/-! ## The address of a second-level descriptor (R95, R96) -/

/-- At the address of a second-level descriptor in a coarse table the machine reads it (R95). -/
theorem step_of_l2Addr_coarse {s : State} {base : BitVec 22} {va : Word} {dom : BitVec 4} {p : Purpose}
    (hp : s.phase = .l2Addr .coarse (coarseDescAddr base va) dom p) :
    step s = .next ((s.physRead32 (coarseDescAddr base va)).2.withPhase
      (.l2Desc .coarse (s.physRead32 (coarseDescAddr base va)).1 dom p)) := by
  have hword : s.nextWord = some (.l2Addr .coarse, encode (.l2AddrCoarse base (coarseIndex va))) := by
    simp only [State.nextWord, hp]
    rfl
  have hat : s.phase.atL2Addr .coarse = some (dom, p) := by simp only [hp, Phase.atL2Addr, if_true]
  rw [step_of_encoded (i := .l2AddrCoarse base (coarseIndex va)) hword, exec_l2AddrCoarse]
  exact readL2Desc_of_atL2Addr hat _

/-- At the address of a second-level descriptor in a fine table the machine reads it (R96). -/
theorem step_of_l2Addr_fine {s : State} {base : BitVec 20} {va : Word} {dom : BitVec 4} {p : Purpose}
    (hp : s.phase = .l2Addr .fine (fineDescAddr base va) dom p) :
    step s = .next ((s.physRead32 (fineDescAddr base va)).2.withPhase
      (.l2Desc .fine (s.physRead32 (fineDescAddr base va)).1 dom p)) := by
  have hword : s.nextWord = some (.l2Addr .fine, encode (.l2AddrFine base (fineIndex va))) := by
    simp only [State.nextWord, hp]
    rfl
  have hat : s.phase.atL2Addr .fine = some (dom, p) := by simp only [hp, Phase.atL2Addr, if_true]
  rw [step_of_encoded (i := .l2AddrFine base (fineIndex va)) hword, exec_l2AddrFine]
  exact readL2Desc_of_atL2Addr hat _

/-- From the read of a second-level descriptor, with nothing held back, the machine's walk ends in two steps, as R106
says. -/
theorem reached_of_l2Addr {s : State} {t : TableKind} {addr : Word} {dom : BitVec 4} {p : Purpose} (hd : s.drained)
    (hstep : step s =
      .next ((s.physRead32 addr).2.withPhase (.l2Desc t (s.physRead32 addr).1 dom p))) :
    (walkL2 s.cfg t dom p.va (s.walkWord addr)).reached p s (Sys2Proof.core.run 2 s) := by
  have hread : (s.physRead32 addr).1 = s.walkWord addr := by rw [State.physRead32_of_drained hd]
  have hlater := StillWalking.physRead32 hd addr (.l2Desc t (s.physRead32 addr).1 dom p)
  obtain ⟨-, -, hr, -⟩ := State.physRead32_frame_of_drained hd addr (.l2Desc t (s.physRead32 addr).1 dom p)
  have hends := reached_of_l2Desc (State.withPhase_phase (.l2Desc t (s.physRead32 addr).1 dom p) (s.physRead32 addr).2)
  rw [hr.cfg, hread] at hends
  rw [run_succ hstep, run_one]
  rw [hread] at hlater ⊢
  exact WalkResult.reached_of_stillWalking hlater hends

/-! ## The first-level descriptor (R93 to R96) -/

/-- A walk that goes on to a second-level table ends in three steps, as the second `case` of R106 says. -/
theorem reached_of_descent {s : State} {t : TableKind} {addr : Word} {dom : BitVec 4} {p : Purpose} (hd : s.drained)
    (hstep : step s = .next (s.withPhase (.l2Addr t addr dom p)))
    (hnext : ∀ u : State, u.phase = .l2Addr t addr dom p →
      step u = .next ((u.physRead32 addr).2.withPhase (.l2Desc t (u.physRead32 addr).1 dom p))) :
    (walkL2 s.cfg t dom p.va (s.walkWord addr)).reached p s (Sys2Proof.core.run 3 s) := by
  rw [run_succ hstep]
  exact WalkResult.reached_of_stillWalking (.withPhase s _)
    (reached_of_l2Addr (s := s.withPhase (.l2Addr t addr dom p)) hd (hnext _ rfl))

section FirstLevel

variable {s : State} {d : Word} {p : Purpose}

theorem Phase.atL1Desc_of_eq (hp : s.phase = .l1Desc d p) : s.phase.atL1Desc = some p := by
  simp only [hp, Phase.atL1Desc]

/-- The word at hand is the first-level descriptor that was read. -/
theorem State.nextWord_of_l1Desc (hp : s.phase = .l1Desc d p) : s.nextWord = some (.l1Desc, d) := by
  simp only [State.nextWord, hp]

/-- A first-level fault descriptor ends the walk in a translation fault (R64, R93). -/
theorem step_of_l1Desc_fault (hp : s.phase = .l1Desc d p) (h : field d 0 2 = 0) :
    step s = .next (s.walkFault (.sect (field p.va 20 12)) p) := by
  have hfault : exec (.l1Fault (field d 2 30)) s = .next (s.walkFault (.sect (field p.va 20 12)) p) := by
    simp only [exec, execL1Fault, Phase.atL1Desc_of_eq hp]
  refine (step_of_decoded (State.nextWord_of_l1Desc hp) ?_).trans hfault
  simp only [decodeWord, decodeL1Desc, h, if_true]

/-- A coarse page table descriptor forms the address of the second-level descriptor, unless it is refused (R66,
R95). -/
theorem step_of_l1Desc_coarse (hp : s.phase = .l1Desc d p) (h : field d 0 2 = 1) :
    step s = if refusesSbz s.cfg (field d 9 1 = 0) then .refused .sbzNonzero
      else .next (s.withPhase (.l2Addr .coarse (coarseDescAddr (field d 10 22) p.va) (field d 5 4) p)) := by
  rw [← exec_l1Coarse (Phase.atL1Desc_of_eq hp) (field d 10 22) (field d 9 1) (field d 5 4) (field d 2 3)]
  refine step_of_decoded (State.nextWord_of_l1Desc hp) ?_
  simp only [decodeWord, decodeL1Desc, h]
  rfl

/-- A section descriptor ends the walk in its entry, unless it is refused (R65, R94). -/
theorem step_of_l1Desc_section (hp : s.phase = .l1Desc d p) (h : field d 0 2 = 2) :
    step s = if refusesSbz s.cfg (field d 12 8 = 0 ∧ field d 9 1 = 0) then .refused .sbzNonzero
      else .next (s.finishWalk (sectEntry p.va (field d 20 12) (field d 10 2) (field d 5 4) (d.getLsbD 3)
        (d.getLsbD 2)) p) := by
  rw [← exec_l1Section (Phase.atL1Desc_of_eq hp) (field d 20 12) (field d 12 8) (field d 10 2) (field d 9 1)
    (field d 5 4) (field d 4 1)]
  refine step_of_decoded (State.nextWord_of_l1Desc hp) ?_
  simp only [decodeWord, decodeL1Desc, h]
  rfl

/-- A fine page table descriptor forms the address of the second-level descriptor, unless it is refused (R67, R96). -/
theorem step_of_l1Desc_fine (hp : s.phase = .l1Desc d p) (h : field d 0 2 = 3) :
    step s = if refusesSbz s.cfg (field d 9 3 = 0) then .refused .sbzNonzero
      else .next (s.withPhase (.l2Addr .fine (fineDescAddr (field d 12 20) p.va) (field d 5 4) p)) := by
  rw [← exec_l1Fine (Phase.atL1Desc_of_eq hp) (field d 12 20) (field d 9 3) (field d 5 4) (field d 2 3)]
  refine step_of_decoded (State.nextWord_of_l1Desc hp) ?_
  simp only [decodeWord, decodeL1Desc, h]
  rfl

/-- From its first-level descriptor, with nothing held back, the machine's walk ends in at most three steps, as R106
says. -/
theorem reached_of_l1Desc (hp : s.phase = .l1Desc d p) (hword : d = s.walkWord (l1DescAddr s.ttb p.va))
    (hd : s.drained) : ∃ k ≤ 3, (s.walk p.va).reached p s (Sys2Proof.core.run k s) := by
  subst hword
  rcases two_bits_cases (field (s.walkWord (l1DescAddr s.ttb p.va)) 0 2) with h | h | h | h
  · refine ⟨1, by decide, ?_⟩
    rw [run_one, step_of_l1Desc_fault hp h, State.walk, if_pos h]
    exact WalkResult.reached_walkFault s (by simp [HeldFault.covers])
  · have hstep := step_of_l1Desc_coarse hp h
    simp only [State.walk, h]
    cases hc : refusesSbz s.cfg (field (s.walkWord (l1DescAddr s.ttb p.va)) 9 1 = 0) with
    | true =>
      rw [hc] at hstep
      exact ⟨1, by decide, (run_one s).trans hstep⟩
    | false =>
      rw [hc] at hstep
      exact ⟨3, le_refl 3, reached_of_descent hd hstep fun _ hu => step_of_l2Addr_coarse hu⟩
  · refine ⟨1, by decide, ?_⟩
    rw [run_one, step_of_l1Desc_section hp h]
    simp only [State.walk, h]
    exact WalkResult.reached_unless_refused ..
  · have hstep := step_of_l1Desc_fine hp h
    simp only [State.walk, h]
    cases hc : refusesSbz s.cfg (field (s.walkWord (l1DescAddr s.ttb p.va)) 9 3 = 0) with
    | true =>
      rw [hc] at hstep
      exact ⟨1, by decide, (run_one s).trans hstep⟩
    | false =>
      rw [hc] at hstep
      exact ⟨3, le_refl 3, reached_of_descent hd hstep fun _ hu => step_of_l2Addr_fine hu⟩

end FirstLevel

/-! ## The whole walk (R90, R106) -/

/-- At the address of a first-level descriptor the machine reads it (R92). -/
theorem step_of_l1Addr {s : State} {p : Purpose} (hp : s.phase = .l1Addr (l1DescAddr s.ttb p.va) p) :
    step s = .next ((s.physRead32 (l1DescAddr s.ttb p.va)).2.withPhase
      (.l1Desc (s.physRead32 (l1DescAddr s.ttb p.va)).1 p)) := by
  have hword : s.nextWord = some (.l1Addr, encode (.l1Addr (field s.ttb 14 18) (l1Index p.va))) := by
    simp only [State.nextWord, hp]
    rfl
  have hat : s.phase.atL1Addr = some p := by simp only [hp, Phase.atL1Addr]
  rw [step_of_encoded (i := .l1Addr (field s.ttb 14 18) (l1Index p.va)) hword]
  exact exec_l1Addr hat _ _

/-- What the walk's reads see is said by the parameters, main memory and the held writes. -/
theorem State.walkWord_of_same {s t : State} (hr : SameRegisters s t) (hm : SameMemory s t) (a : Word) :
    t.walkWord a = s.walkWord a := by
  have hmem : t.memByte = s.memByte := funext hm.bytes
  have hview : t.coherentByte = s.coherentByte := by
    funext x
    rw [State.coherentByte, State.coherentByte, hm.pending, hm.bytes]
  cases hc : s.cfg.walkSees with
  | mainMemoryOnly =>
    rw [State.walkWord_of_mainMemoryOnly hc, State.walkWord_of_mainMemoryOnly (by rw [hr.cfg, hc]), hr.cfg, hmem]
  | throughBuffer =>
    rw [State.walkWord_of_throughBuffer hc, State.walkWord_of_throughBuffer (by rw [hr.cfg, hc]), hr.cfg, hview]

/-- What the tables say of an address is said by the registers, main memory and the held writes. -/
theorem State.walk_of_same {s t : State} (hr : SameRegisters s t) (hm : SameMemory s t) (va : Word) :
    t.walk va = s.walk va := by
  simp only [State.walk, State.walkWord_of_same hr hm, hr.cfg, hr.ttb]

/-- From its first-level descriptor address, with nothing held back, the machine's walk ends in at most four steps, as
R106 says. -/
theorem reached_of_l1Addr {s : State} {p : Purpose} (hp : s.phase = .l1Addr (l1DescAddr s.ttb p.va) p)
    (hd : s.drained) : ∃ k ≤ 4, (s.walk p.va).reached p s (Sys2Proof.core.run k s) := by
  have hstep := step_of_l1Addr hp
  have hread := State.physRead32_of_drained hd (l1DescAddr s.ttb p.va)
  obtain ⟨-, -, hr, -, -, hm, -⟩ := State.physRead32_frame_of_drained hd (l1DescAddr s.ttb p.va)
    (.l1Desc (s.physRead32 (l1DescAddr s.ttb p.va)).1 p)
  have hlater := StillWalking.physRead32 hd (l1DescAddr s.ttb p.va)
    (.l1Desc (s.physRead32 (l1DescAddr s.ttb p.va)).1 p)
  have hphase := State.withPhase_phase (.l1Desc (s.physRead32 (l1DescAddr s.ttb p.va)).1 p)
    (s.physRead32 (l1DescAddr s.ttb p.va)).2
  generalize (s.physRead32 (l1DescAddr s.ttb p.va)).2.withPhase
    (.l1Desc (s.physRead32 (l1DescAddr s.ttb p.va)).1 p) = u at hstep hr hm hlater hphase
  have hword : (s.physRead32 (l1DescAddr s.ttb p.va)).1 = u.walkWord (l1DescAddr u.ttb p.va) := by
    rw [hread, hr.ttb, State.walkWord_of_same hr hm]
  obtain ⟨k, hk, hends⟩ := reached_of_l1Desc hphase hword (hm.pending.trans hd)
  rw [State.walk_of_same hr hm] at hends
  refine ⟨k + 1, by omega, ?_⟩
  rw [run_succ hstep]
  exact WalkResult.reached_of_stillWalking hlater hends

/-! ## The check (R121 to R125, R139) -/

section Check

variable {s : State} {e : TlbEntry} {a : Access}

/-- At a check the word at hand is the field of the entry's domain, and a row whose word it is runs (R121). -/
theorem step_of_domainField (hp : s.phase = .check e a) {v : BitVec 2} (hv : s.domainField e.domain = v) {i : Instr}
    (hd : decodeWord .dacField (v.setWidth 32) = .ok i) : step s = exec i s := by
  refine step_of_decoded (r := .dacField) (w := v.setWidth 32) ?_ hd
  simp only [State.nextWord, hp, hv]

/-- `DAC_NOACCESS` while an access is being checked (R122). -/
theorem exec_dacNoAccess (hp : s.phase = .check e a) :
    exec .dacNoAccess s = .next (checkAbort (.domain e.mapping.level) e a s) := by
  simp only [exec, execDacNoAccess, hp, Phase.atCheck]

/-- `DAC_RESERVED` while an access is being checked (R124). -/
theorem exec_dacReserved (hp : s.phase = .check e a) : exec .dacReserved s = .fault .domainReserved := by
  simp only [exec, execDacReserved, hp, Phase.atCheck]

/-- What the check step answers, by the verdict of the whole check. -/
def Verdict.answer (v : Verdict) (e : TlbEntry) (a : Access) (s : State) : Result :=
  match v with
  | .allowed => s.proceedThrough e a
  | .abort kind => .next (checkAbort kind e a s)
  | .unpredictable f => .fault f

/-- `DAC_CLIENT` answers the verdict of the permission check (R123). -/
theorem exec_dacClient (hp : s.phase = .check e a) : exec .dacClient s = (s.apCheck e a).answer e a s := by
  simp only [exec, execDacClient, hp, Phase.atCheck]
  cases s.apCheck e a <;> rfl

/-- The step that checks an access answers the verdict of the whole check (R139). -/
theorem step_of_check (hp : s.phase = .check e a) : step s = (s.checkAccess e a).answer e a s := by
  rcases two_bits_cases (s.domainField e.domain) with h | h | h | h
  · rw [step_of_domainField (i := .dacNoAccess) hp h rfl, exec_dacNoAccess hp]
    simp only [State.checkAccess, h]
    rfl
  · rw [step_of_domainField (i := .dacClient) hp h rfl, exec_dacClient hp]
    simp only [State.checkAccess, h]
    rfl
  · rw [step_of_domainField (i := .dacReserved) hp h rfl, exec_dacReserved hp]
    simp only [State.checkAccess, h]
    rfl
  · rw [step_of_domainField (i := .dacManager) hp h rfl, exec_dacManager hp]
    simp only [State.checkAccess, h]
    rfl

/-- The check reads the parameters, CP15 register 1 and the domain access control register alone (R138, D14). -/
theorem State.checkAccess_of_same {t : State} (hr : SameRegisters s t) (e : TlbEntry) (a : Access) :
    t.checkAccess e a = s.checkAccess e a := by
  have hfield : t.domainField e.domain = s.domainField e.domain := by rw [State.domainField, hr.cfg, hr.dac]; rfl
  have hsystem : t.systemBit = s.systemBit := by rw [State.systemBit, hr.cfg, hr.ctrl]; rfl
  have hrom : t.romBit = s.romBit := by rw [State.romBit, hr.cfg, hr.ctrl]; rfl
  have hap : t.apCheck e a = s.apCheck e a := by rw [State.apCheck, hsystem, hrom]; rfl
  rw [State.checkAccess, hfield, hap]
  rfl

end Check

/-! ## The whole access (R31) -/

section WholeAccess

variable {s : State} {a : Access}

/-- The outcome of an access whose walk faults. -/
theorem State.accessOutcome_of_abort {kind : AbortKind} {domain : Option (BitVec 4)}
    (h : s.walk a.va = .abort kind domain) : s.accessOutcome a = .aborts kind domain := by
  simp only [State.accessOutcome, h]

/-- An entry that the tables give an access, locked or not, decides it: the check of that entry carries out the outcome
of the access, wherever the machine stands when it makes it (R36, R139). -/
theorem carriedOut_of_check {u : State} {e : TlbEntry} {l : Bool} (hw : s.walk a.va = .entry { e with locked := l })
    (hp : u.phase = .check e a) (hr : SameRegisters s u) (ho : u.outputs = s.outputs)
    (hf : u.lastFault = s.lastFault)
    (hroom : ∀ pa c b, s.accessOutcome a = .proceeds pa c b → a.transfer.size ≤ s.accessRoom a) :
    (s.accessOutcome a).carriedOut a.va s (step u) := by
  have hcheck : s.checkAccess { e with locked := l } a = s.checkAccess e a := rfl
  rw [step_of_check hp, State.checkAccess_of_same hr]
  simp only [State.accessOutcome, State.accessRoom, hw, hcheck] at hroom ⊢
  cases hv : s.checkAccess e a with
  | allowed =>
    simp only [hv] at hroom
    have hproceeds : u.proceedThrough e a = .next _ := State.proceed_of_room (hroom _ _ _ rfl)
    obtain ⟨-, hfault, -, -, hidle, -, data, hout⟩ := State.proceed_frame hproceeds
    exact ⟨_, data, hproceeds, hout.trans (congrArg _ ho), hidle, hfault.lastFault.trans hf⟩
  | abort kind =>
    obtain ⟨hlast, hout, hidle, -⟩ := u.raiseAbort_spec kind a.va (some e.domain) (a.kind.updatesFaultRegs u.cfg)
    exact ⟨_, rfl, hout.trans (congrArg _ ho), hidle, hlast⟩
  | unpredictable f => rfl

/-- An access that has started its walk, with nothing held back, comes out in at most five steps. -/
theorem carriedOut_of_walk {u : State} (hp : u.phase = .l1Addr (l1DescAddr u.ttb a.va) (.access a)) (hd : u.drained)
    (hr : SameRegisters s u) (hm : SameMemory s u) (ho : u.outputs = s.outputs) (hf : u.lastFault = s.lastFault)
    (hroom : ∀ pa c b, s.accessOutcome a = .proceeds pa c b → a.transfer.size ≤ s.accessRoom a) :
    ∃ k ≤ 5, (s.accessOutcome a).carriedOut a.va s (Sys2Proof.core.run k u) := by
  obtain ⟨k, hk, hends⟩ := reached_of_l1Addr (p := .access a) hp hd
  rw [State.walk_of_same hr hm] at hends
  cases hw : s.walk a.va with
  | entry e =>
    simp only [Purpose.va, hw] at hends
    obtain ⟨t, hrun, hfilled⟩ := hends
    obtain ⟨hphase, -, hr', hf', -, -, ho'⟩ := hfilled
    refine ⟨k + 1, by omega, ?_⟩
    rw [coreRun_add Sys2Proof.core 1 hrun, run_one]
    exact carriedOut_of_check (l := e.locked) hw hphase
      ⟨hr'.cfg.trans hr.cfg, hr'.ctrl.trans hr.ctrl, hr'.ttb.trans hr.ttb, hr'.dac.trans hr.dac⟩ (ho'.trans ho)
      (hf'.lastFault.trans hf) hroom
  | abort kind domain =>
    simp only [Purpose.va, hw] at hends
    obtain ⟨t, f, hrun, hfaults, -, rfl, rfl⟩ := hends
    obtain ⟨hout, hlast, -, hidle, -⟩ := hfaults.aborts (.inl ⟨a, rfl⟩)
    rw [State.accessOutcome_of_abort hw]
    exact ⟨k, by omega, t, hrun, hout.trans (congrArg _ ho), hidle, hlast⟩
  | tinyInCoarse =>
    simp only [Purpose.va, hw] at hends
    simp only [State.accessOutcome, hw]
    exact ⟨k, by omega, hends⟩
  | sbzNonzero =>
    simp only [Purpose.va, hw] at hends
    simp only [State.accessOutcome, hw]
    exact ⟨k, by omega, hends⟩

end WholeAccess

/-- Settles O36, by what the lookup ends in: a line that it finds says what the walk says, and the walk is that of
R106. -/
theorem accessComesOutAsTheSpecSays : Obligations.AccessComesOutAsTheSpecSays := by
  intro s a rest hp hi hm hd hagrees hroom
  obtain ⟨t, hstep, -, -, hr, -, hmem, hends⟩ := lookupHitsOrWalks s a rest hp hi hm
  rcases hends with ⟨e, hline, hcov, hphase, ho, hf⟩ | ⟨hphase, ho, hf, -⟩ | ⟨f, hline, hcov, hraised⟩
  · have hw : s.walk a.va = .entry { e with locked := false } := hagrees (.entry e) hline a.va hcov
    refine ⟨2, by decide, ?_⟩
    rw [run_succ hstep, run_one]
    exact carriedOut_of_check hw hphase hr ho hf.lastFault hroom
  · rw [← hr.ttb] at hphase
    obtain ⟨k, hk, hout⟩ := carriedOut_of_walk hphase (hmem.pending.trans hd) hr hmem ho hf.lastFault hroom
    refine ⟨k + 1, by omega, ?_⟩
    rw [run_succ hstep]
    exact hout
  · have hw : s.walk a.va = .abort (.translation f.level) f.domain := hagrees (.fault f) hline a.va hcov
    refine ⟨1, by decide, ?_⟩
    rw [run_one, hstep, State.accessOutcome_of_abort hw]
    exact ⟨t, rfl, hraised.outputs, hraised.phase, hraised.lastFault⟩

end Sys2Proof.Machine
end

section
/-! SUPPORT. The patterns of 30_encoding.md field by field: the type bits select a descriptor's row (R63, R68), and a
descriptor address and a physical address are read back in the parts that they are joined of (R62, R74, R75, R79). -/

namespace Sys2Proof

/-! ## Parts joined in a word (R7) -/

/-- Two joined parts are read back as they were. -/
theorem fields_of_append {n m : Nat} (x : BitVec n) (y : BitVec m) :
    (x ++ y).extractLsb' m n = x ∧ (x ++ y).extractLsb' 0 m = y := by
  refine ⟨?_, (field_append_low x y 0 m (by omega)).trans (field_whole y)⟩
  rw [field_append_high x y m n (le_refl m), Nat.sub_self, field_whole]

/-- A descriptor address is read back as its base, its table index and two zero bits. -/
theorem fields_of_descAddr {n m : Nat} (base : BitVec n) (index : BitVec m) :
    (base ++ index ++ 0b00#2).extractLsb' (m + 2) n = base ∧
      (base ++ index ++ 0b00#2).extractLsb' 2 m = index ∧ (base ++ index ++ 0b00#2).extractLsb' 0 2 = 0b00 := by
  obtain ⟨hbase, hindex⟩ := fields_of_append base index
  refine ⟨?_, ?_, (fields_of_append _ _).2⟩
  · rw [field_append_high _ _ _ _ (by omega), Nat.add_sub_cancel, hbase]
  · rw [field_append_high _ _ _ _ (le_refl 2), Nat.sub_self, hindex]

/-! ## The statements -/

/-- Settles O4: each word is the word of its row, which decodes to that row. -/
theorem wordsOfTheSpecDecode : Obligations.WordsOfTheSpecDecode :=
  ⟨decodeWord_encode (.l1Coarse 0x100B 0 2 0), decodeWord_encode (.l1Section 0x456 0 3 0 0 1 false false),
    decodeWord_encode (.l1Fine 0x405 0 1 0), decodeWord_encode (.l2cLarge 0x89AB 0 3 2 1 0 true false),
    decodeWord_encode (.l2fTiny 0x2EB71 0 2 true true), decodeWord_encode (.mcrMrc 14 0 false 2 0 0 0)⟩

/-- Settles O5: under each value of the type bits the decoder answers one row, and no two of the rows are equal. -/
theorem firstLevelTypeSelectsTheKind : Obligations.FirstLevelTypeSelectsTheKind := by
  intro w
  rcases Machine.two_bits_cases (field w 0 2) with h | h | h | h
  all_goals simp [decodeWord, decodeL1Desc, h]

/-- Settles O6, as O5, for the coarse and for the fine table. -/
theorem secondLevelTypeSelectsTheKind : Obligations.SecondLevelTypeSelectsTheKind := by
  intro w
  rcases Machine.two_bits_cases (field w 0 2) with h | h | h | h
  all_goals simp [decodeWord, decodeL2Coarse, decodeL2Fine, h]

/-- Settles O7: each of the three is a base field joined with a table index and two zero bits. -/
theorem descriptorAddressesAreJoined : Obligations.DescriptorAddressesAreJoined :=
  ⟨fun _ _ => fields_of_descAddr _ _, fun _ _ => fields_of_descAddr _ _, fun _ _ => fields_of_descAddr _ _⟩

/-- Settles O8: in each of the four kinds it is the physical base joined with the low bits of the virtual address. -/
theorem physicalAddressesAreJoined : Obligations.PhysicalAddressesAreJoined :=
  ⟨fun _ _ _ _ => fields_of_append _ _, fun _ _ _ _ _ _ _ => fields_of_append _ _,
    fun _ _ _ _ _ _ _ => fields_of_append _ _, fun _ _ _ _ => fields_of_append _ _⟩

end Sys2Proof
end

section
/-! SUPPORT. What the walk does with the descriptor at hand (R93 to R100): the equation of each row in its phase, and
from it, by what a faulting walk and the end of a walk do, the statements about the rows. -/

namespace Sys2Proof.Machine

/-! ## The rows in their phase -/

/-- A should-be-zero field that is zero, or that the policy ignores, is not refused (R82, D13). -/
theorem not_refusesSbz {s : State} {z : Prop} [Decidable z] (h : s.ignoresSbz ∨ z) :
    ¬ refusesSbz s.cfg (decide z) = true := by
  rcases h with hpolicy | hzero
  · rw [refusesSbz, show s.cfg.sbzPolicy = .ignoreBits from hpolicy]
    exact Bool.false_ne_true
  · rw [decide_eq_true hzero, refusesSbz]
    cases s.cfg.sbzPolicy <;> exact Bool.false_ne_true

/-- `L1_FAULT` while a first-level descriptor is at hand (R64). -/
theorem exec_l1Fault {s : State} {p : Purpose} (hp : s.phase.atL1Desc = some p) (ignored : BitVec 30) :
    exec (.l1Fault ignored) s = .next (s.walkFault (.sect (field p.va 20 12)) p) := by
  simp only [exec, execL1Fault, hp]

/-- A fault descriptor while a second-level descriptor of its table is at hand (R69, R97). -/
theorem pageFault_of_atL2Desc {t : TableKind} {s : State} {d : BitVec 4} {p : Purpose}
    (hp : s.phase.atL2Desc t = some (d, p)) : pageFault t s = .next (s.walkFault (.page t p.va d) p) := by
  simp only [pageFault, hp]

/-- `L2C_TINY` while a second-level descriptor of a coarse table is at hand (R73). -/
theorem exec_l2cTiny {s : State} {d : BitVec 4} {p : Purpose} (hp : s.phase.atL2Desc .coarse = some (d, p))
    (undescribed : BitVec 30) : exec (.l2cTiny undescribed) s = .fault .tinyInCoarse := by
  simp only [exec, execL2cTiny, hp]

/-- A row that meets a fault descriptor ends the walk as R161 and R162 say. -/
theorem walkFaults_of_eq {r : Result} {f : HeldFault} {p : Purpose} {s : State} (h : r = .next (s.walkFault f p)) :
    ∃ t, r = .next t ∧ WalkFaults f p s t ∧ t.walkReads = s.walkReads :=
  ⟨_, h, s.walkFault_spec f p⟩

/-- A row that finds its entry ends the walk as R102 and R147 say. -/
theorem walkEnds_of_eq {r : Result} {e : TlbEntry} {p : Purpose} {s : State} (h : r = .next (s.finishWalk e p)) :
    ∃ t, r = .next t ∧ WalkEnds e p s t ∧ t.walkReads = s.walkReads :=
  ⟨_, h, s.finishWalk_spec e p⟩

/-- A large page descriptor of either kind of table ends the walk in its entry (R70, R98). -/
theorem largePageTranslate_walkEnds {t : TableKind} {s : State} {d : BitVec 4} {p : Purpose}
    (hp : s.phase.atL2Desc t = some (d, p)) {sbz : BitVec 4} (hz : s.ignoresSbz ∨ sbz = 0) (base : BitVec 16)
    (ap3 ap2 ap1 ap0 : BitVec 2) (c b : Bool) :
    ∃ u, largePageTranslate t base sbz ap3 ap2 ap1 ap0 c b s = .next u ∧
      WalkEnds (largeEntry p.va base ap3 ap2 ap1 ap0 d c b) p s u ∧ u.walkReads = s.walkReads :=
  walkEnds_of_eq ((largePageTranslate_of_atL2Desc hp ..).trans (if_neg (not_refusesSbz hz)))

/-! ## First-level descriptors -/

/-- Settles O10, by what a walk that meets a fault descriptor does. -/
theorem firstLevelFaultAborts : Obligations.FirstLevelFaultAborts :=
  fun ignored _ _ hp => walkFaults_of_eq (exec_l1Fault hp ignored)

/-- Settles O11: with the should-be-zero field let through, each row only moves the walk on. -/
theorem pageTableDescriptorFormsTheNextAddress : Obligations.PageTableDescriptorFormsTheNextAddress :=
  ⟨fun _ _ _ _ _ _ hp hz => (exec_l1Coarse hp ..).trans (if_neg (not_refusesSbz hz)),
    fun _ _ _ _ _ _ hp hz => (exec_l1Fine hp ..).trans (if_neg (not_refusesSbz hz))⟩

/-- Settles O12, by what the end of a walk does with its entry. -/
theorem sectionDescriptorEndsTheWalk : Obligations.SectionDescriptorEndsTheWalk :=
  fun _ _ _ _ _ _ _ _ _ _ hp hz =>
    walkEnds_of_eq ((exec_l1Section hp ..).trans (if_neg (not_refusesSbz hz)))

/-! ## Second-level descriptors -/

/-- Settles O13, by what a walk that meets a fault descriptor does, in either kind of table. -/
theorem secondLevelFaultAborts : Obligations.SecondLevelFaultAborts :=
  fun _ _ _ _ => ⟨fun hp => walkFaults_of_eq (pageFault_of_atL2Desc hp),
    fun hp => walkFaults_of_eq (pageFault_of_atL2Desc hp)⟩

/-- Settles O14, by the large page translation that both kinds of table share. -/
theorem largePageDescriptorEndsTheWalk : Obligations.LargePageDescriptorEndsTheWalk :=
  fun _ _ _ _ _ _ _ _ _ _ _ hz => ⟨fun hp => largePageTranslate_walkEnds hp hz ..,
    fun hp => largePageTranslate_walkEnds hp hz ..⟩

/-- Settles O15, by the small page translation that both kinds of table share. -/
theorem smallPageDescriptorEndsTheWalk : Obligations.SmallPageDescriptorEndsTheWalk :=
  fun _ _ _ _ _ _ _ _ _ _ => ⟨fun hp => walkEnds_of_eq (smallPageTranslate_of_atL2Desc hp ..),
    fun hp => walkEnds_of_eq (smallPageTranslate_of_atL2Desc hp ..)⟩

/-- Settles O16, by what the end of a walk does with its entry. -/
theorem tinyPageDescriptorEndsTheWalk : Obligations.TinyPageDescriptorEndsTheWalk :=
  fun _ _ _ _ _ _ _ _ hz hp => walkEnds_of_eq ((exec_l2fTiny hp ..).trans (if_neg (not_refusesSbz hz)))

/-- Settles O17: the two rows stop, whatever the access they are met for. -/
theorem unpredictableRowsStop : Obligations.UnpredictableRowsStop :=
  ⟨fun undescribed _ _ _ hp => exec_l2cTiny hp undescribed, fun _ _ _ hp => exec_dacReserved hp⟩

end Sys2Proof.Machine
end

section
/-! SUPPORT. The coprocessor register transfer (R86): what an MCR writes, what an MCR of register 8 leaves in the TLBs,
and what an MRC reads back (R145, R146, R169). -/

namespace Sys2Proof.Machine

/-! ## The transfer by its condition and direction -/

section Transfer

variable {s : State} {w v codeVa : Word} {cp : Bool} {cond : BitVec 4}

/-- A transfer whose condition is not met only ends. -/
theorem exec_mcrMrc_of_not_met {priv : Priv} (hp : s.phase = .coproc w v codeVa false priv) (hc : cond ≠ 0b1110)
    (opc1 : BitVec 3) (load : Bool) (crn rd : BitVec 4) (opc2 : BitVec 3) (crm : BitVec 4) :
    exec (.mcrMrc cond opc1 load crn rd opc2 crm) s = .next (s.respond .done) := by
  simp only [exec, execMcrMrc, hp]
  exact if_pos ⟨hc, trivial⟩

/-- A privileged MCR whose condition is met writes its register. -/
theorem exec_mcr_of_met (hp : s.phase = .coproc w v codeVa cp .privileged) (hc : cond = 0b1110 ∨ cp = true)
    (crn rd : BitVec 4) (opc2 : BitVec 3) (crm : BitVec 4) :
    exec (.mcrMrc cond 0 false crn rd opc2 crm) s = s.cp15Write crn crm opc2 v codeVa :=
  exec_mcrMrc_of_met hp hc 0 false crn rd opc2 crm

/-- A privileged MRC whose condition is met reads its register. -/
theorem exec_mrc_of_met (hp : s.phase = .coproc w v codeVa cp .privileged) (hc : cond = 0b1110 ∨ cp = true)
    (crn rd : BitVec 4) (opc2 : BitVec 3) (crm : BitVec 4) :
    exec (.mcrMrc cond 0 true crn rd opc2 crm) s = s.cp15Read crn rd crm opc2 :=
  exec_mcrMrc_of_met hp hc 0 true crn rd opc2 crm

end Transfer

/-- In a well-formed configuration the domain access control register has a number of its own (R5, R15). -/
theorem Config.dacrRegnum_ne {cfg : Config} (h : cfg.wellFormed = true) :
    cfg.dacrRegnum ≠ 1 ∧ cfg.dacrRegnum ≠ 2 ∧ cfg.dacrRegnum ≠ 5 ∧ cfg.dacrRegnum ≠ 6 ∧ cfg.dacrRegnum ≠ 8 := by
  simp only [Config.wellFormed, Bool.and_eq_true, decide_eq_true_eq] at h
  tauto

/-! ## What an MCR writes (R140, R143, R144, R169) -/

/-- `WriteControl` writes where it leaves M alone or its code is mapped to itself (R140, R141, D24). -/
theorem State.writeControl_of_allowed {s : State} {v codeVa : Word}
    (h : v.getLsbD 0 = s.ctrl.getLsbD 0 ∨ s.identityMapped codeVa) :
    s.writeControl v codeVa = .next ((s.withCtrl v).respond .done) := by
  refine if_neg fun ⟨hchanges, hunmapped⟩ => ?_
  rcases h with hsame | hmapped
  · exact hchanges hsame
  · exact Bool.false_ne_true (hunmapped.symm.trans (State.mapsToItself_iff.mpr hmapped))

/-- `WriteTTB` writes where the policy lets the should-be-zero field through (R143, D13). -/
theorem State.writeTtb_of_allowed {s : State} {v : Word} (h : s.ignoresSbz ∨ field v 0 14 = 0) :
    s.writeTtb v = .next ((s.withTtb v).respond .done) :=
  if_neg (not_refusesSbz h)

section Cp15Write

variable {s : State} (hcfg : s.cfg.wellFormed = true) (v codeVa : Word)

include hcfg

/-- An MCR of the domain access control register is `WriteDAC` (R144). -/
theorem State.cp15Write_dac : s.cp15Write s.cfg.dacrRegnum 0 0 v codeVa = s.writeDac v := by
  obtain ⟨h1, h2, -, -, h8⟩ := Config.dacrRegnum_ne hcfg
  simp only [State.cp15Write, h1, h2, h8, ne_eq, not_true_eq_false, or_self, if_false, if_true]

/-- An MCR of CP15 register 5 writes the fault status register (R169). -/
theorem State.cp15Write_fsr : s.cp15Write 5 0 0 v codeVa = .next ((s.withFsr v).respond .done) := by
  obtain ⟨-, -, h5, -, -⟩ := Config.dacrRegnum_ne hcfg
  simp only [State.cp15Write, h5.symm]
  rfl

/-- An MCR of CP15 register 6 writes the fault address register (R169). -/
theorem State.cp15Write_far : s.cp15Write 6 0 0 v codeVa = .next ((s.withFar v).respond .done) := by
  obtain ⟨-, -, -, h6, -⟩ := Config.dacrRegnum_ne hcfg
  simp only [State.cp15Write, h6.symm]
  rfl

end Cp15Write

/-- Settles O45, by what the write of each register does. -/
theorem mcrWritesTheRegister : Obligations.McrWritesTheRegister := by
  intro cond rd s w v codeVa cp hp hmet hcfg
  have hwrite := fun crn => exec_mcr_of_met hp hmet crn rd 0 0
  exact ⟨fun h => (hwrite 1).trans (State.writeControl_of_allowed h),
    fun h => (hwrite 2).trans (State.writeTtb_of_allowed h),
    (hwrite s.cfg.dacrRegnum).trans (State.cp15Write_dac hcfg v codeVa),
    (hwrite 5).trans (State.cp15Write_fsr hcfg v codeVa), (hwrite 6).trans (State.cp15Write_far hcfg v codeVa)⟩

/-- Settles O48: the condition is looked at before the direction, the register and the state of privilege. -/
theorem transferWithFailedConditionDoesNothing : Obligations.TransferWithFailedConditionDoesNothing :=
  fun _ opc1 load crn rd opc2 crm _ _ _ _ _ hp hc => exec_mcrMrc_of_not_met hp hc opc1 load crn rd opc2 crm

/-! ## What a flush leaves (R146) -/

/-- A removal keeps, on any side, the lines that are locked or do not meet its test. -/
theorem State.mem_tlbRemove_of_kept {s : State} {test : TlbLine → Bool} {x : TlbLine}
    (hx : x.locked = true ∨ test x = false) (which : TlbSide) {side : TlbSide} (hmem : x ∈ s.tlbOf side) :
    x ∈ (s.tlbRemove which test).tlbOf side := by
  rcases s.sides_cases side which with ⟨hsplit, hne⟩ | ⟨-, hsame⟩
  · have hother : (s.tlbRemove which test).tlbOf side = s.tlbOf side :=
      State.tlbOf_withTlbOf_of_ne which side _ s hsplit hne
    rwa [hother]
  · rw [hsame (s.tlbRemove which test) (State.withTlbOf_cfg ..)]
    exact State.mem_tlbRemove.mpr ⟨hsame s rfl ▸ hmem, hx⟩

/-- A flush chooses the TLB of a side. -/
def FlushWhich.chooses (which : FlushWhich) (side : TlbSide) : Prop :=
  which = .all ∨ (which = .instruction ∧ side = .instruction) ∨ (which = .data ∧ side = .data)

/-- What a chosen TLB holds after a flush: the lines that are locked or do not meet the test. -/
theorem State.mem_tlbFlush {which : FlushWhich} {side : TlbSide} (h : which.chooses side) {s : State}
    {test : TlbLine → Bool} {x : TlbLine} :
    x ∈ (s.tlbFlush which test).tlbOf side ↔ x ∈ s.tlbOf side ∧ (x.locked = true ∨ test x = false) := by
  rcases h with rfl | ⟨rfl, rfl⟩ | ⟨rfl, rfl⟩
  · constructor
    · intro hx
      have hfirst := (State.tlbRemove_lostUnlocked .data side test _).part hx
      refine ⟨(s.tlbFlush_lostUnlocked .all side test).part hx, ?_⟩
      cases side with
      | instruction => exact (State.mem_tlbRemove.mp hfirst).2
      | data => exact (State.mem_tlbRemove.mp hx).2
    · rintro ⟨hx, hkept⟩
      exact State.mem_tlbRemove_of_kept hkept .data (State.mem_tlbRemove_of_kept hkept .instruction hx)
  · exact State.mem_tlbRemove
  · exact State.mem_tlbRemove

/-- In a split organisation a flush of one TLB leaves the other as it was (R146). -/
theorem State.tlbFlush_other {s : State} (hs : s.cfg.tlbOrg = .split) (which : FlushWhich) (test : TlbLine → Bool) :
    (which = .instruction → (s.tlbFlush which test).tlbOf .data = s.tlbOf .data) ∧
      (which = .data → (s.tlbFlush which test).tlbOf .instruction = s.tlbOf .instruction) := by
  refine ⟨?_, ?_⟩ <;> rintro rfl
  · exact State.tlbOf_withTlbOf_of_ne .instruction .data _ s hs (by decide)
  · exact State.tlbOf_withTlbOf_of_ne .data .instruction _ s hs (by decide)

/-- The fields that a flush leaves alone (R146). -/
theorem State.tlbFlush_frame (which : FlushWhich) (test : TlbLine → Bool) (s : State) :
    SameRegisters s (s.tlbFlush which test) ∧ SameFaultState s (s.tlbFlush which test) ∧
      SameMemory s (s.tlbFlush which test) ∧ SameInputs s (s.tlbFlush which test) ∧
      (s.tlbFlush which test).outputs = s.outputs := by
  cases which with
  | all =>
    refine ⟨?_, ?_, ?_, ?_, by simp [State.tlbFlush, State.tlbRemove]⟩
    all_goals constructor <;> simp [State.tlbFlush, State.tlbRemove, State.memByte]
  | instruction =>
    obtain ⟨hr, hf, hm, hi⟩ := s.tlbRemove_frame .instruction test
    exact ⟨hr, hf, hm, hi, State.withTlbOf_outputs ..⟩
  | data =>
    obtain ⟨hr, hf, hm, hi⟩ := s.tlbRemove_frame .data test
    exact ⟨hr, hf, hm, hi, State.withTlbOf_outputs ..⟩

/-- The CRm of each flush (R146). -/
theorem flushOfCrm_eq {crm : BitVec 4} {which : FlushWhich}
    (h : crm = 7 ∧ which = .all ∨ crm = 5 ∧ which = .instruction ∨ crm = 6 ∧ which = .data) :
    flushOfCrm crm = some which := by
  rcases h with ⟨rfl, rfl⟩ | ⟨rfl, rfl⟩ | ⟨rfl, rfl⟩ <;> rfl

/-- The test of each opc2 fails just for the lines that a flush by address spares (R146). -/
theorem flushTest_eq {opc2 : BitVec 3} (h : opc2 = 0 ∨ opc2 = 1) (va : Word) :
    ∃ test, flushTest opc2 va = some test ∧ ∀ x, test x = false ↔ opc2 = 1 ∧ x.covers va = false := by
  rcases h with rfl | rfl
  · exact ⟨_, rfl, fun x => by simp⟩
  · exact ⟨_, rfl, fun x => by simp⟩

/-- An MCR of CP15 register 8 flushes (R146). -/
theorem State.cp15Write_flush {crm : BitVec 4} {opc2 : BitVec 3} {v : Word} {which : FlushWhich}
    {test : TlbLine → Bool} (hw : flushOfCrm crm = some which) (ht : flushTest opc2 v = some test) (codeVa : Word)
    (s : State) : s.cp15Write 8 crm opc2 v codeVa = .next ((s.tlbFlush which test).respond .done) := by
  simp only [State.cp15Write, if_true, hw, ht]

/-- Settles O46, by what a flush leaves in a chosen TLB and in the other one. -/
theorem mcrFlushesTheTlb : Obligations.McrFlushesTheTlb := by
  intro cond rd s w v codeVa cp which crm hp hmet hcrm opc2 hopc2
  obtain ⟨test, htest, hspares⟩ := flushTest_eq hopc2 v
  obtain ⟨hr, hf, hm, hi, ho⟩ := s.tlbFlush_frame which test
  refine ⟨(s.tlbFlush which test).respond .done,
    (exec_mcr_of_met hp hmet ..).trans (State.cp15Write_flush (flushOfCrm_eq hcrm) htest codeVa s),
    congrArg (Response.done :: ·) ho, rfl, ⟨hr.cfg, hr.ctrl, hr.ttb, hr.dac⟩, ⟨hf.lastFault, hf.fsr, hf.far⟩,
    ⟨hm.bytes, hm.pending, hm.cacheHolds⟩, ⟨hi.inputs⟩, fun hs => (State.tlbFlush_other hs which test).1,
    fun hs => (State.tlbFlush_other hs which test).2, fun side hside x => ?_⟩
  rw [State.tlbOf_respond, State.mem_tlbFlush hside, hspares]

/-! ## What an MRC reads (R145, R169) -/

/-- A described bit is read back as it is stored. -/
theorem bit_readBack {mask : Word} {i : Nat} (h : mask.getLsbD i = true) (stored free : Word) :
    (readBack mask stored free).getLsbD i = stored.getLsbD i := by
  simp [readBack, h]

/-- A field of described bits is read back as it is stored. -/
theorem field_readBack {mask : Word} {lo len : Nat} (h : ∀ i < len, mask.getLsbD (lo + i) = true)
    (stored free : Word) : field (readBack mask stored free) lo len = field stored lo len := by
  apply BitVec.eq_of_getLsbD_eq
  intro i hi
  rw [BitVec.getLsbD_extractLsb', BitVec.getLsbD_extractLsb', bit_readBack (h i hi)]

/-- The bit that a one is shifted to is set. -/
theorem bit_one_shiftLeft (k : Fin 32) : (1#32 <<< k.val).getLsbD k = true := by
  simp

/-- M, S and R are described bits of CP15 register 1 (R11 to R13). -/
theorem ctrlMask_bits (cfg : Config) :
    (ctrlMask cfg).getLsbD 0 = true ∧ (ctrlMask cfg).getLsbD cfg.sBitPos = true ∧
      (ctrlMask cfg).getLsbD cfg.rBitPos = true := by
  refine ⟨?_, ?_, ?_⟩ <;> simp [ctrlMask]

/-- CP15 register 1 is read back with its M, S and R bits (R145). -/
theorem State.ctrlValue_bits (s : State) :
    s.ctrlValue.getLsbD 0 = s.ctrl.getLsbD 0 ∧ s.ctrlValue.getLsbD s.cfg.sBitPos = s.systemBit ∧
      s.ctrlValue.getLsbD s.cfg.rBitPos = s.romBit := by
  obtain ⟨hm, hs, hr⟩ := ctrlMask_bits s.cfg
  exact ⟨bit_readBack hm _ _, bit_readBack hs _ _, bit_readBack hr _ _⟩

/-- CP15 register 2 is read back with its translation base (R145). -/
theorem State.ttbValue_base (s : State) : field s.ttbValue 14 18 = field s.ttb 14 18 :=
  field_readBack (by decide) _ _

/-- The fault status register is read back with its status and domain, and bit 8 zero (R169). -/
theorem State.fsrValue_bits (s : State) : field s.fsrValue 0 8 = field s.fsr 0 8 ∧ s.fsrValue.getLsbD 8 = false := by
  constructor
  · refine (field_readBack (by decide) _ _).trans ?_
    apply BitVec.eq_of_getLsbD_eq
    intro i hi
    have hbit : (0x000000FF : Word).getLsbD i = true := by
      revert i
      decide
    simp only [BitVec.getLsbD_extractLsb', Nat.zero_add, BitVec.getLsbD_and, hbit, Bool.and_true]
  · refine (bit_readBack (by decide) _ _).trans ?_
    rw [BitVec.getLsbD_and]
    exact Bool.and_false _

section Cp15Value

variable {s : State} (hcfg : s.cfg.wellFormed = true)

include hcfg

/-- The number of the domain access control register reads it (R15). -/
theorem State.cp15Value_dac : s.cp15Value s.cfg.dacrRegnum = some s.dac := by
  obtain ⟨h1, h2, -, -, -⟩ := Config.dacrRegnum_ne hcfg
  simp only [State.cp15Value, h1, h2, if_true, if_false]

/-- Register 5 reads the fault status register (R169). -/
theorem State.cp15Value_fsr : s.cp15Value 5 = some s.fsrValue := by
  obtain ⟨-, -, h5, -, -⟩ := Config.dacrRegnum_ne hcfg
  simp only [State.cp15Value, h5.symm]
  rfl

/-- Register 6 reads the fault address register (R169). -/
theorem State.cp15Value_far : s.cp15Value 6 = some s.far := by
  obtain ⟨-, -, -, h6, -⟩ := Config.dacrRegnum_ne hcfg
  simp only [State.cp15Value, h6.symm]
  rfl

/-- Each described register but register 8 has a value to read. -/
theorem State.cp15Value_of_described {crn : BitVec 4}
    (h : crn = 1 ∨ crn = 2 ∨ crn = s.cfg.dacrRegnum ∨ crn = 5 ∨ crn = 6) : ∃ x, s.cp15Value crn = some x := by
  rcases h with rfl | rfl | rfl | rfl | rfl
  · exact ⟨s.ctrlValue, rfl⟩
  · exact ⟨s.ttbValue, rfl⟩
  · exact ⟨_, State.cp15Value_dac hcfg⟩
  · exact ⟨_, State.cp15Value_fsr hcfg⟩
  · exact ⟨_, State.cp15Value_far hcfg⟩

end Cp15Value

/-- An MRC of a register that has a value transfers it (R86, R145). -/
theorem State.cp15Read_of_value {s : State} {crn : BitVec 4} {x : Word} (h : s.cp15Value crn = some x)
    (rd : BitVec 4) : s.cp15Read crn rd 0 0 = .next (s.tick.respond (.coprocValue rd x)) := by
  simp [State.cp15Read, h]

/-- Settles O47: the register has a value, which is transferred, and each described bit of it is as it is stored. -/
theorem mrcReadsTheRegister : Obligations.MrcReadsTheRegister := by
  intro cond crn rd s w v codeVa cp hp hmet hcfg hcrn
  obtain ⟨x, hx⟩ := State.cp15Value_of_described hcfg hcrn
  have hvalue : ∀ {y}, s.cp15Value crn = some y → x = y := fun hy => Option.some.inj (hx.symm.trans hy)
  refine ⟨s.tick.respond (.coprocValue rd x), x, (exec_mrc_of_met hp hmet ..).trans (State.cp15Read_of_value hx rd),
    rfl, rfl, ⟨rfl, rfl, rfl, rfl⟩, ⟨rfl, rfl, rfl⟩, ⟨rfl, rfl, rfl⟩, ⟨fun _ => rfl, rfl, rfl⟩, ⟨rfl⟩,
    ?ctrl, ?ttb, ?dac, ?fsr, ?far⟩ <;> rintro rfl
  case ctrl =>
    rw [hvalue (y := s.ctrlValue) rfl]
    exact s.ctrlValue_bits
  case ttb =>
    rw [hvalue (y := s.ttbValue) rfl]
    exact s.ttbValue_base
  case dac => exact hvalue (State.cp15Value_dac hcfg)
  case fsr =>
    rw [hvalue (State.cp15Value_fsr hcfg)]
    exact s.fsrValue_bits
  case far => exact hvalue (State.cp15Value_far hcfg)

end Sys2Proof.Machine
end

section
/-! SUPPORT. The walk of the machine and the permission bits of an entry (40_translation.md R101, R106). -/

namespace Sys2Proof.Machine

/-! ## The whole walk (R106) -/

/-- Settles O35, by the walk from the first-level descriptor address: each row either ends the walk as R106 does, or
goes on to a state in which only the place in the walk, its reads and its free values differ. -/
theorem machineWalkIsTheWalkOfTheSpec : Obligations.MachineWalkIsTheWalkOfTheSpec :=
  fun _ _ hp hd => reached_of_l1Addr hp hd

/-! ## The permission bits of an entry (R101, R135) -/

section Ap

variable (va : Word)

/-- A section has one permission (R135). -/
theorem Mapping.ap_sect (v p : BitVec 12) (ap : BitVec 2) : (Mapping.sect v p ap).ap va = ap := rfl

/-- A large page is divided into four 16KB subpages, which the top two bits of its page index name (R101). -/
theorem Mapping.ap_large (v p : BitVec 16) (ap3 ap2 ap1 ap0 : BitVec 2) :
    (Mapping.large v p ap3 ap2 ap1 ap0).ap va = subpage (field va 14 2) ap3 ap2 ap1 ap0 := rfl

/-- A small page is divided into four 1KB subpages, which the top two bits of its page index name (R101). -/
theorem Mapping.ap_small (v p : BitVec 20) (ap3 ap2 ap1 ap0 : BitVec 2) :
    (Mapping.small v p ap3 ap2 ap1 ap0).ap va = subpage (field va 10 2) ap3 ap2 ap1 ap0 := rfl

/-- A tiny page has one permission (R135). -/
theorem Mapping.ap_tiny (v p : BitVec 22) (ap : BitVec 2) : (Mapping.tiny v p ap).ap va = ap := rfl

end Ap

/-- Settles O27, by the kind of mapping: the two with subpages choose among four permissions by the subpage of the
address, AP0 lowest, and the other two have one. -/
theorem subpageSelectsThePermission : Obligations.SubpageSelectsThePermission := by
  refine ⟨?large, ?small, ?sect, ?tiny⟩
  case large =>
    intro v p ap3 ap2 ap1 ap0 va
    rw [Mapping.ap_large, subpage]
  case small =>
    intro v p ap3 ap2 ap1 ap0 va
    rw [Mapping.ap_small, subpage]
  case sect => exact fun v p ap va => Mapping.ap_sect va v p ap
  case tiny => exact fun v p ap va => Mapping.ap_tiny va v p ap

end Sys2Proof.Machine
end

section
/-! SUPPORT. The access check (41_access_control.md R121 to R139): table 3-3 and the verdict of each permission level,
the rows of the domain access control field in their phase, and the step that checks an access. -/

namespace Sys2Proof.Machine

/-! ## Table 3-3 (R126 to R133) -/

/-- Settles O25, by the AP value and, under `0b00`, by S and R: the four values are the four branches of the table. -/
theorem permissionTable : Obligations.PermissionTable := by
  refine ⟨?plain, ?systemPrivileged, ?systemUser, ?rom, ?both, ?ap01, ?ap10, ?ap11⟩
  case plain => exact fun _ => rfl
  case systemPrivileged => rfl
  case systemUser => rfl
  case rom => exact fun _ => rfl
  case both => exact fun _ => rfl
  case ap01 => exact fun _ _ => ⟨rfl, rfl⟩
  case ap10 => exact fun _ _ => ⟨rfl, rfl⟩
  case ap11 => exact fun _ _ _ => rfl

/-- No access refuses every kind of access (R133). -/
@[simp] theorem Permission.noAccess_allows (k : AccessKind) : Permission.noAccess.allows k = false := by
  cases k <;> rfl

/-- Read-only refuses writes and nothing else: a fetch is checked as a read (R133, R134, D12). -/
@[simp] theorem Permission.readOnly_allows_iff (k : AccessKind) :
    Permission.readOnly.allows k = true ↔ k ≠ .write := by
  cases k <;> decide

/-- Read/write refuses no kind of access (R133). -/
@[simp] theorem Permission.readWrite_allows (k : AccessKind) : Permission.readWrite.allows k = true := by
  cases k <;> rfl

/-- Settles O26, level by level. -/
theorem verdictOfEachLevel : Obligations.VerdictOfEachLevel := by
  refine ⟨Permission.noAccess_allows, ?read, ?fetch, ?write, Permission.readWrite_allows⟩
  case read => exact (Permission.readOnly_allows_iff .read).mpr nofun
  case fetch => exact (Permission.readOnly_allows_iff .fetch).mpr nofun
  case write => exact Bool.eq_false_iff.mpr fun h => (Permission.readOnly_allows_iff .write).mp h rfl

/-- A fault of an entry is qualified as a section's just when the entry is a section (R139). -/
theorem Mapping.level_eq_sect_iff (m : Mapping) : m.level = .sect ↔ ∃ v p ap, m = .sect v p ap := by
  cases m <;> simp [Mapping.level]

/-! ## The two ends of a check (R107, R163, R164) -/

section CheckEnds

variable {s : State} {e : TlbEntry} {a : Access}

/-- A check that refuses its access aborts it and leaves the TLBs and the record of the walk alone (R163, R164). -/
theorem aborted_of_checkAbort {r : Result} {kind : AbortKind} (h : r = .next (checkAbort kind e a s)) :
    ∃ t, r = .next t ∧ Aborted kind a.va (some e.domain) (a.kind.updatesFaultRegs s.cfg) s t ∧ SameTlbs s t ∧
      t.walkReads = s.walkReads := by
  obtain ⟨-, -, -, hreads⟩ := s.raiseAbort_spec kind a.va (some e.domain) (a.kind.updatesFaultRegs s.cfg)
  obtain ⟨-, htlbs, -, -⟩ := s.raiseAbort_frame kind a.va (some e.domain) (a.kind.updatesFaultRegs s.cfg)
  exact ⟨_, h, s.raiseAbort_aborted .., htlbs, hreads⟩

/-- A check that lets its access through gives it its data at the entry's physical address, inside the region
(R31, R107). -/
theorem proceeded_of_proceedThrough {r : Result} (h : r = s.proceedThrough e a)
    (hroom : a.transfer.size ≤ e.mapping.room a.va) :
    ∃ t data, r = .next t ∧ Proceeded (e.mapping.physAddr a.va) e.c e.b data s t ∧
      (s.Inv → MovedData (e.mapping.physAddr a.va) e.c e.b a.transfer data s t) := by
  obtain ⟨t, ht⟩ : ∃ t, s.proceedThrough e a = .next t := ⟨_, State.proceed_of_room hroom⟩
  exact ⟨t, _, h.trans ht, State.proceed_proceeded ht,
    fun hs => State.proceed_movedData hs.memoryWf (Mapping.room_le _ _) ht⟩

/-! ## The client's check (R123, R133) -/

/-- `DAC_CLIENT` refuses an access that its permission level does not allow (R133, R164). -/
theorem exec_dacClient_of_not_allows {lvl : Permission} (hp : s.phase = .check e a)
    (hl : permission (e.mapping.ap a.va) s.systemBit s.romBit a.priv = some lvl) (ha : lvl.allows a.kind = false) :
    exec .dacClient s = .next (checkAbort (.permission e.mapping.level) e a s) := by
  have hcheck : s.apCheck e a = .abort (.permission e.mapping.level) := by
    simp only [State.apCheck, hl, ha, Bool.false_eq_true, if_false]
  rw [exec_dacClient hp, hcheck]
  rfl

/-- `DAC_CLIENT` stops where table 3-3 says unpredictable (R129). -/
theorem exec_dacClient_of_unpredictable (hp : s.phase = .check e a)
    (hl : permission (e.mapping.ap a.va) s.systemBit s.romBit a.priv = none) :
    exec .dacClient s = .fault .apWithSystemAndRom := by
  have hcheck : s.apCheck e a = .unpredictable .apWithSystemAndRom := by simp only [State.apCheck, hl]
  rw [exec_dacClient hp, hcheck]
  rfl

end CheckEnds

/-! ## The rows (R122 to R125) -/

/-- Settles O21: the row takes the domain fault whatever the access is. -/
theorem noAccessDomainAborts : Obligations.NoAccessDomainAborts := by
  intro s e a hp
  obtain ⟨t, hexec, haborted, htlbs, hreads⟩ := aborted_of_checkAbort (exec_dacNoAccess hp)
  exact ⟨t, hexec, haborted, htlbs, hreads, e.mapping.level_eq_sect_iff⟩

/-- Settles O22: the row looks at no permission, so the access proceeds. -/
theorem managerDomainAllows : Obligations.ManagerDomainAllows := by
  intro s e a hs hp hroom
  obtain ⟨t, data, hexec, hproceeded, hmoved⟩ := proceeded_of_proceedThrough (exec_dacManager hp) hroom
  exact ⟨t, data, hexec, hproceeded, hmoved hs⟩

/-- Settles O23: the permission check lets the access proceed. -/
theorem clientDomainAllowsByPermission : Obligations.ClientDomainAllowsByPermission := by
  intro s e a lvl hs hp hl ha hroom
  obtain ⟨t, data, hexec, hproceeded, hmoved⟩ :=
    proceeded_of_proceedThrough (exec_dacClient_of_allows hp hl ha) hroom
  exact ⟨t, data, hexec, hproceeded, hmoved hs⟩

/-- Settles O24: the permission check takes the permission fault. -/
theorem clientDomainAbortsByPermission : Obligations.ClientDomainAbortsByPermission :=
  fun _ _ _ _ hp hl ha => aborted_of_checkAbort (exec_dacClient_of_not_allows hp hl ha)

/-! ## The step that checks an access (R139) -/

/-- Settles O28: the step runs the row of the domain's field, and that row ends the check. -/
theorem checkStepFollowsTheWholeCheck : Obligations.CheckStepFollowsTheWholeCheck := by
  intro s e a hp hroom
  refine ⟨fun hfield => ?noAccess, fun hfield => ?reserved, fun hfield => ?manager, fun hfield => ?client⟩
  case noAccess =>
    have hstep : step s = exec .dacNoAccess s := step_of_domainField hp hfield rfl
    obtain ⟨t, hnext, haborted, htlbs, -⟩ := aborted_of_checkAbort (hstep.trans (exec_dacNoAccess hp))
    exact ⟨t, hnext, htlbs, haborted⟩
  case reserved =>
    have hstep : step s = exec .dacReserved s := step_of_domainField hp hfield rfl
    exact hstep.trans (exec_dacReserved hp)
  case manager =>
    have hstep : step s = exec .dacManager s := step_of_domainField hp hfield rfl
    exact proceeded_of_proceedThrough (hstep.trans (exec_dacManager hp)) hroom
  case client =>
    have hstep : step s = exec .dacClient s := step_of_domainField hp hfield rfl
    cases hl : permission (e.mapping.ap a.va) s.systemBit s.romBit a.priv with
    | none => exact hstep.trans (exec_dacClient_of_unpredictable hp hl)
    | some lvl =>
      dsimp only
      split
      next ha => exact proceeded_of_proceedThrough (hstep.trans (exec_dacClient_of_allows hp hl ha)) hroom
      next ha =>
        obtain ⟨t, hnext, haborted, htlbs, -⟩ := aborted_of_checkAbort
          (hstep.trans (exec_dacClient_of_not_allows hp hl (Bool.eq_false_iff.mpr ha)))
        exact ⟨t, hnext, htlbs, haborted⟩

end Sys2Proof.Machine
end

section
/-! SUPPORT. What a step does to the parameters and the control registers (42_control_operations.md R140, R143, R144,
R148): it leaves them alone, or privileged software writes one of them. -/

namespace Sys2Proof.Machine

/-! ## Who writes a control register -/

/-- An MCR of CP15 register `crn` by privileged software is the word at hand, with `v` in Rd (R86). -/
def State.transfersTo (s : State) (crn : BitVec 4) (v : Word) : Prop :=
  ∃ w codeVa cp cond rd, s.phase = .coproc w v codeVa cp .privileged ∧
    decodeWord .coproc w = .ok (.mcrMrc cond 0 false crn rd 0 0)

/-- Privileged software is writing a value to CP15 register 2 (R143). -/
def State.writesTtb (s : State) (v : Word) : Prop :=
  s.phase = .ttbWrite v .privileged ∨ s.transfersTo 2 v

/-- Privileged software is writing a value to the domain access control register (R144). -/
def State.writesDac (s : State) (v : Word) : Prop :=
  (∃ rest, s.phase = .idle ∧ s.inputs = .control (.writeDac v) .privileged :: rest) ∨
    s.transfersTo s.cfg.dacrRegnum v

/-- What one step does to the parameters and the control registers: it leaves them as they are, or as they are once
privileged software has written one of them. -/
inductive RegistersEffect (s t : State) : Prop
  | kept : SameRegisters s t → RegistersEffect s t
  | ctrl (v : Word) : s.writesCtrl v → SameRegisters (s.withCtrl v) t → RegistersEffect s t
  | ttb (v : Word) : s.writesTtb v → SameRegisters (s.withTtb v) t → RegistersEffect s t
  | dac (v : Word) : s.writesDac v → SameRegisters (s.withDac v) t → RegistersEffect s t

/-! ## What a step does to them -/

/-- A walk that finds its entry leaves the control registers alone (R102, R147). -/
theorem State.finishWalk_registers (e : TlbEntry) (p : Purpose) (s : State) : SameRegisters s (s.finishWalk e p) := by
  obtain ⟨hends, -⟩ := s.finishWalk_spec e p
  cases p with
  | access a => exact Filled.registers hends
  | lock side va => exact LockedIn.registers hends

/-- The word of a value being written to CP15 register 2 is the value (R77). -/
theorem ttb_eq_of_decoded {w : Word} {base : BitVec 18} {sbz : BitVec 14}
    (hd : decodeWord .ttbReg w = .ok (.ttb base sbz)) : base ++ sbz = w := by
  cases hd
  exact (field_join w 0 14 18 14 rfl).trans (field_whole w)

/-- A row leaves the control registers alone, or writes the one that its word names. -/
theorem RowEffect.registersEffect {r : Role} {w : Word} {i : Instr} {s t : State} (h : RowEffect i s t)
    (hw : s.nextWord = some (r, w)) (hd : decodeWord r w = .ok i) : RegistersEffect s t := by
  cases h with
  | ctrl v hv =>
    rcases hv with ⟨rfl, w', codeVa, hp⟩ | ⟨w', codeVa, cp, cond, rd, rfl, hp⟩
    all_goals
      simp only [State.nextWord, hp, Option.some.injEq, Prod.mk.injEq] at hw
      obtain ⟨rfl, rfl⟩ := hw
    · cases hd
      exact .ctrl v (.inl ⟨codeVa, hp⟩) ⟨rfl, rfl, rfl, rfl⟩
    · exact .ctrl v (.inr ⟨w', codeVa, cp, cond, rd, hp, hd⟩) ⟨rfl, rfl, rfl, rfl⟩
  | ttb v hv =>
    rcases hv with ⟨base, sbz, w', rfl, rfl, hp⟩ | ⟨w', codeVa, cp, cond, rd, rfl, hp⟩
    all_goals
      simp only [State.nextWord, hp, Option.some.injEq, Prod.mk.injEq] at hw
      obtain ⟨rfl, rfl⟩ := hw
    · rw [ttb_eq_of_decoded hd]
      exact .ttb w' (.inl hp) ⟨rfl, rfl, rfl, rfl⟩
    · exact .ttb v (.inr ⟨w', codeVa, cp, cond, rd, hp, hd⟩) ⟨rfl, rfl, rfl, rfl⟩
  | dac w' v codeVa cp cond rd hi hp =>
    subst hi
    simp only [State.nextWord, hp, Option.some.injEq, Prod.mk.injEq] at hw
    obtain ⟨rfl, rfl⟩ := hw
    exact .dac v (.inr ⟨w', codeVa, cp, cond, rd, hp, hd⟩) ⟨rfl, rfl, rfl, rfl⟩
  | walkFault f p _ _ => exact .kept (s.walkFault_registers f p)
  | found e p _ _ _ => exact .kept (s.finishWalk_registers e p)
  | checkAbort kind e a _ => exact .kept (s.raiseAbort_frame kind a.va (some e.domain) _).1
  | proceed e a _ _ hpr => exact .kept (State.proceed_frame hpr).1
  | flush w v codeVa cp which test _ =>
    obtain ⟨hr, -⟩ := s.tlbFlush_frame which test
    exact .kept ⟨hr.cfg, hr.ctrl, hr.ttb, hr.dac⟩
  | readL1 w addr p _ =>
    obtain ⟨hr, -⟩ := s.physRead32_frame addr
    exact .kept ⟨hr.cfg, hr.ctrl, hr.ttb, hr.dac⟩
  | readL2 tk w addr domain p _ =>
    obtain ⟨hr, -⟩ := s.physRead32_frame addr
    exact .kept ⟨hr.cfg, hr.ctrl, hr.ttb, hr.dac⟩
  | descend | fsr | far | read | skip => exact .kept ⟨rfl, rfl, rfl, rfl⟩

/-- Taking the processor's next operation leaves the control registers alone, or is a `WriteDAC`. -/
theorem AcceptEffect.registersEffect {s t : State} (h : AcceptEffect s t) (hp : s.phase = .idle) :
    RegistersEffect s t := by
  cases h with
  | dac v rest hi => exact .dac v (.inl ⟨rest, hp, hi⟩) ⟨rfl, rfl, rfl, rfl⟩
  | flat a rest _ _ _ hflat =>
    obtain ⟨hr, -⟩ := State.proceed_frame hflat
    exact .kept ⟨hr.cfg, hr.ctrl, hr.ttb, hr.dac⟩
  | walks a rest _ _ _ _ ht =>
    obtain ⟨hr, -⟩ := State.startWalk_frame ht
    exact .kept ⟨hr.cfg, hr.ctrl, hr.ttb, hr.dac⟩
  | hitsFault a rest f _ _ _ =>
    obtain ⟨hr, -⟩ := ((s.withInputs rest).withWalkReads []).raiseAbort_frame (.translation f.level) a.va f.domain
      (a.kind.updatesFaultRegs s.cfg)
    exact .kept ⟨hr.cfg, hr.ctrl, hr.ttb, hr.dac⟩
  | flush which rest _ =>
    obtain ⟨hr, -⟩ := (s.withInputs rest).tlbFlush_frame which fun _ => true
    exact .kept ⟨hr.cfg, hr.ctrl, hr.ttb, hr.dac⟩
  | unlock other e rest _ =>
    have hr := (s.withInputs rest).sameRegisters_withTlbOf other (tlbUnlocked e (s.tlbOf other))
    exact .kept ⟨hr.cfg, hr.ctrl, hr.ttb, hr.dac⟩
  | waits | hits | asksCtrl | asksTtb | asksTransfer | reads | readsFault | lock | cacheFlush | drain =>
    exact .kept ⟨rfl, rfl, rfl, rfl⟩

/-- What a step does to the parameters and the control registers (R148, D23). -/
theorem step_registersEffect {s t : State} (h : step s = .next t) : RegistersEffect s t := by
  rcases step_effect h with ⟨hp, h⟩ | ⟨r, w, i, hw, hd, h⟩
  · exact h.registersEffect hp
  · exact h.registersEffect hw hd

/-- Settles O58: of the effects a step can have on the registers, each changes the one register that the statement
gives it, to the value being written. -/
theorem onlyPrivilegedWritesChangeTheRegisters : Obligations.OnlyPrivilegedWritesChangeTheRegisters := by
  intro s t h
  cases step_registersEffect h with
  | kept hr =>
    exact ⟨hr.cfg, fun hne => absurd hr.ctrl hne, fun hne => absurd hr.ttb hne, fun hne => absurd hr.dac hne⟩
  | ctrl v hv hr =>
    refine ⟨hr.cfg, fun _ => ?_, fun hne => absurd hr.ttb hne, fun hne => absurd hr.dac hne⟩
    rcases hv with ⟨codeVa, hp⟩ | ⟨w, codeVa, cp, cond, rd, hp, hd⟩
    · exact .inl ⟨v, codeVa, hp, hr.ctrl⟩
    · exact .inr ⟨w, v, codeVa, cp, cond, rd, hp, hd, hr.ctrl⟩
  | ttb v hv hr =>
    refine ⟨hr.cfg, fun hne => absurd hr.ctrl hne, fun _ => ?_, fun hne => absurd hr.dac hne⟩
    rcases hv with hp | ⟨w, codeVa, cp, cond, rd, hp, hd⟩
    · exact .inl ⟨v, hp, hr.ttb⟩
    · exact .inr ⟨w, v, codeVa, cp, cond, rd, hp, hd, hr.ttb⟩
  | dac v hv hr =>
    refine ⟨hr.cfg, fun hne => absurd hr.ctrl hne, fun hne => absurd hr.ttb hne, fun _ => ?_⟩
    rcases hv with ⟨rest, hp, hi⟩ | ⟨w, codeVa, cp, cond, rd, hp, hd⟩
    · exact .inl ⟨v, rest, hp, hi, hr.dac⟩
    · exact .inr ⟨w, v, codeVa, cp, cond, rd, hp, hd, hr.dac⟩

end Sys2Proof.Machine
end

section
/-! SUPPORT. The control operations as the processor asks for them (42_control_operations.md R140 to R148): what each
writes, answers or removes, and that none has an effect from user state. -/

namespace Sys2Proof.Machine

/-! ## The request and its operation -/

/-- With no operation in progress a control operation is the next step. -/
theorem step_of_control {s : State} {op : ControlOp} {priv : Priv} {rest : List Request} (hp : s.phase = .idle)
    (hi : s.inputs = .control op priv :: rest) : step s = (s.withInputs rest).control op priv :=
  step_of_request hp hi

/-- With lockdown an operation that needs it is performed (R147). -/
theorem ifLockdown_of_lockdown {cfg : Config} (h : cfg.tlbLockdown = true) (r : Result) : ifLockdown cfg r = r :=
  if_pos h

/-! ## Writes of one register (R140, R143, R144) -/

/-- Settles O37: the should-be-zero field of the value is the policy's, and the write is `WriteTTB`. -/
theorem writeTtbWritesOnlyTtb : Obligations.WriteTtbWritesOnlyTtb := by
  intro base sbz s v hp hsbz
  have hallowed : s.ignoresSbz ∨ field (base ++ sbz) 0 14 = 0 := by rwa [field_ttb_sbz]
  exact (exec_ttb hp base sbz).trans (State.writeTtb_of_allowed hallowed)

/-- Settles O38: the write leaves M alone or comes from code that is mapped to itself, so it is allowed. -/
theorem writeControlWritesOnlyCtrl : Obligations.WriteControlWritesOnlyCtrl := by
  intro v codeVa w s hp hallowed
  exact (exec_ctrl hp v).trans (State.writeControl_of_allowed hallowed)

/-- A bit of a domain's field is the bit of the pair that `DACR_FIELD_ORDER` gives the domain (R15). -/
theorem dacField_bit (cfg : Config) (v : Word) (n : BitVec 4) {i : Nat} (hi : i < 2) :
    (dacField cfg v n).getLsbD i = v.getLsbD (2 * (cfg.dacrFieldOrder[n.toNat]'n.isLt).val + i) := by
  simp only [dacField, BitVec.getLsbD_extractLsb', hi, decide_true, Bool.true_and]

/-- At reset the field of domain `n` is the pair `n` (log entry 9). -/
theorem resetConfig_fieldOrder (n : BitVec 4) : (resetConfig.dacrFieldOrder[n.toNat]'n.isLt).val = n.toNat := by
  revert n
  decide

/-- Settles O40: the next step is `WriteDAC`, and each field is read from the pair of its domain. -/
theorem writeDacWritesOnlyDac : Obligations.WriteDacWritesOnlyDac := by
  intro v s rest hp hi
  refine ⟨step_of_control hp hi, fun n i hlt => ⟨dacField_bit s.cfg v n hlt, ?_⟩⟩
  rw [dacField_bit resetConfig v n hlt, resetConfig_fieldOrder]

/-! ## From user state (R148, D23) -/

/-- A transfer from user state whose condition is met is refused. -/
theorem exec_mcrMrc_of_user {s : State} {w v codeVa : Word} {cp : Bool} {cond : BitVec 4}
    (hp : s.phase = .coproc w v codeVa cp .user) (hc : cond = 0b1110 ∨ cp = true) (opc1 : BitVec 3) (load : Bool)
    (crn rd : BitVec 4) (opc2 : BitVec 3) (crm : BitVec 4) :
    exec (.mcrMrc cond opc1 load crn rd opc2 crm) s = .refused .userControlOperation := by
  have hmet : ¬ (cond ≠ 0b1110 ∧ cp = false) := by
    rintro ⟨hne, rfl⟩
    exact hc.elim hne Bool.false_ne_true
  simp only [exec, execMcrMrc, hp, if_neg hmet, asPrivileged]

/-- A control operation from user state that does not first bring a word to hand is refused. -/
theorem State.control_of_user {op : ControlOp} (hctrl : ∀ v codeVa, op ≠ .writeControl v codeVa)
    (httb : ∀ v, op ≠ .writeTtb v) (s : State) : s.control op .user = .refused .userControlOperation := by
  cases op with
  | writeControl v codeVa => exact absurd rfl (hctrl v codeVa)
  | writeTtb v => exact absurd rfl (httb v)
  | writeDac | readControl | readTtb | readDac | readFault | tlbFlush | tlbLock | tlbUnlock | cacheFlush => rfl

/-- A request that only brings a word to hand is refused in two steps where the row of that word is refused. -/
theorem run_two_refused {s t : State} {r : Role} {w : Word} {i : Instr} {c : Refusal} (hstep : step s = .next t)
    (hw : t.nextWord = some (r, w)) (hd : decodeWord r w = .ok i) (hexec : exec i t = .refused c) :
    Sys2Proof.core.run 2 s = .refused c :=
  (run_succ hstep).trans ((run_one t).trans ((step_of_decoded hw hd).trans hexec))

/-- Settles O41: at the word at hand by its row, from the request by the operation or by the word it brings to hand. -/
theorem userControlOperationIsRefused : Obligations.UserControlOperationIsRefused := by
  refine ⟨fun base sbz s v hp => exec_ttb hp base sbz, fun v w codeVa s hp => exec_ctrl hp v,
    fun cond opc1 load crn rd opc2 crm s w v codeVa cp hp hc => exec_mcrMrc_of_user hp hc opc1 load crn rd opc2 crm,
    fun op s rest hp hi hctrl httb => (step_of_control hp hi).trans (State.control_of_user hctrl httb _),
    fun v codeVa s rest hp hi => ?writeControl, fun v s rest hp hi => ?writeTtb,
    fun w v codeVa cp s rest hp hi hw hc => ?transfer⟩
  case writeControl => exact run_two_refused (step_of_control hp hi) rfl rfl (exec_ctrl (priv := .user) rfl v)
  case writeTtb => exact run_two_refused (step_of_control hp hi) rfl rfl (exec_ttb (priv := .user) rfl _ _)
  case transfer =>
    exact run_two_refused (step_of_request hp hi) rfl (if_pos hw) (exec_mcrMrc_of_user rfl hc _ _ _ _ _ _)

/-! ## Reading a register back (R145, R168) -/

/-- An answer to the processor changes only the answers, where the MMU stands, and the free values that were drawn. -/
theorem State.answer_frame {s t : State} {rest : List Request} {r : Response}
    (h : t = (s.withInputs rest).respond r ∨ t = (s.withInputs rest).tick.respond r) :
    t.phase = .idle ∧ t.inputs = rest ∧ SameRegisters s t ∧ SameFaultState s t ∧ SameTlbs s t ∧ SameMemory s t := by
  rcases h with rfl | rfl
  all_goals exact ⟨rfl, rfl, ⟨rfl, rfl, rfl, rfl⟩, ⟨rfl, rfl, rfl⟩, ⟨rfl, rfl, rfl⟩, ⟨fun _ => rfl, rfl, rfl⟩⟩

/-- Settles O44: each read answers with the register's value, whose described bits are the register's. -/
theorem readBackGivesTheDescribedBits : Obligations.ReadBackGivesTheDescribedBits := by
  intro s rest hp
  refine ⟨fun hi => ?ttb, fun hi => ?ctrl, fun hi => ?dac, fun hi => ?fault⟩
  case ttb => exact ⟨_, s.ttbValue, step_of_control hp hi, rfl, s.ttbValue_base, State.answer_frame (.inr rfl)⟩
  case ctrl =>
    obtain ⟨hm, hs, hr⟩ := s.ctrlValue_bits
    exact ⟨_, s.ctrlValue, step_of_control hp hi, rfl, hm, hs, hr, State.answer_frame (.inr rfl)⟩
  case dac => exact ⟨_, step_of_control hp hi, rfl, State.answer_frame (.inr rfl)⟩
  case fault => exact ⟨_, step_of_control hp hi, rfl, State.answer_frame (.inl rfl)⟩

/-! ## Operations on the TLBs (R146, R147) -/

/-- Settles O42, by what a flush of every line leaves in a chosen TLB and in the other one. -/
theorem tlbFlushRemovesTheUnlocked : Obligations.TlbFlushRemovesTheUnlocked := by
  intro which s rest hp hi
  obtain ⟨hr, hf, hm, hin, ho⟩ := (s.withInputs rest).tlbFlush_frame which fun _ => true
  have hother := fun hs => State.tlbFlush_other (s := s.withInputs rest) hs which fun _ => true
  refine ⟨_, step_of_control hp hi, hin.inputs, congrArg (Response.done :: ·) ho, rfl,
    ⟨hr.cfg, hr.ctrl, hr.ttb, hr.dac⟩, ⟨hf.lastFault, hf.fsr, hf.far⟩, ⟨hm.bytes, hm.pending, hm.cacheHolds⟩,
    fun side hside x => ?_, fun hs => (hother hs).1, fun hs => (hother hs).2⟩
  rw [State.tlbOf_respond, State.mem_tlbFlush hside, State.tlbOf_withInputs]
  simp only [Bool.true_eq_false, or_false]

/-- The fields that replacing the contents of a TLB leaves alone. -/
theorem State.withTlbOf_frame (side : TlbSide) (xs : List TlbLine) (s : State) :
    SameRegisters s (s.withTlbOf side xs) ∧ SameFaultState s (s.withTlbOf side xs) ∧
      SameMemory s (s.withTlbOf side xs) ∧ SameInputs s (s.withTlbOf side xs) ∧
      (s.withTlbOf side xs).outputs = s.outputs := by
  refine ⟨s.sameRegisters_withTlbOf side xs, s.sameFaultState_withTlbOf side xs, ⟨fun a => ?_, ?_, ?_⟩, ⟨?_⟩, ?_⟩
  all_goals simp only [State.memByte, State.withTlbOf_mem, State.withTlbOf_pending, State.withTlbOf_cacheHolds,
    State.withTlbOf_inputs, State.withTlbOf_outputs]

/-- What `TLBUnlock` of a locked entry leaves in its TLB: the entry without the lock, and every other line (R147). -/
theorem mem_tlbUnlocked_iff {e : TlbEntry} {x : TlbLine} {xs : List TlbLine} (he : .entry e ∈ xs)
    (hl : e.locked = true) :
    x ∈ tlbUnlocked e xs ↔ x = .entry { e with locked := false } ∨ (x ∈ xs ∧ x ≠ .entry e) := by
  rw [tlbUnlocked, if_pos ⟨hl, he⟩, mem_tlbInsert_none, List.mem_filter, decide_eq_true_eq]

/-- `TLBUnlock` of an entry that is not there, or not locked, changes nothing (log entry 27). -/
theorem tlbUnlocked_of_not_lockedIn {e : TlbEntry} {xs : List TlbLine} (h : .entry e ∉ xs ∨ e.locked = false) :
    tlbUnlocked e xs = xs := by
  refine if_neg fun ⟨hl, he⟩ => ?_
  rcases h with habsent | hunlocked
  · exact habsent he
  · exact Bool.false_ne_true (hunlocked.symm.trans hl)

/-- With lockdown a `TLBUnlock` of privileged state is the next step (R147). -/
theorem step_of_tlbUnlock {s : State} {side : TlbSide} {e : TlbEntry} {rest : List Request} (hp : s.phase = .idle)
    (hi : s.inputs = .control (.tlbUnlock side e) .privileged :: rest) (hl : s.cfg.tlbLockdown = true) :
    step s = .next (((s.withInputs rest).withTlbOf side (tlbUnlocked e (s.tlbOf side))).respond .done) :=
  (step_of_control hp hi).trans (ifLockdown_of_lockdown hl _)

/-- Settles O43: a lock by the start of its walk, an unlock by what it leaves in its TLB and in the other one. -/
theorem tlbLockAndUnlock : Obligations.TlbLockAndUnlock := by
  refine ⟨fun side va s rest hp hi hl => ?lock, fun side e s rest hp hi hl he hlocked => ?unlock,
    fun side e s rest hp hi hl hnot => ?nothing⟩
  case lock =>
    obtain ⟨hr, hf, ht, hm, hin, ho, hw, hph⟩ :=
      State.startWalk_frame (p := .lock side va) (s := s.withInputs rest) (.inl rfl)
    exact ⟨_, (step_of_control hp hi).trans (ifLockdown_of_lockdown hl _), hph, hin.inputs, ho, hw,
      ⟨hr.cfg, hr.ctrl, hr.ttb, hr.dac⟩, ⟨hf.lastFault, hf.fsr, hf.far⟩, ⟨ht.tlb, ht.itlb, ht.dtlb⟩,
      ⟨hm.bytes, hm.pending, hm.cacheHolds⟩⟩
  case unlock =>
    obtain ⟨hr, hf, hm, hin, ho⟩ := (s.withInputs rest).withTlbOf_frame side (tlbUnlocked e (s.tlbOf side))
    refine ⟨_, step_of_tlbUnlock hp hi hl, hin.inputs, congrArg (Response.done :: ·) ho, rfl, fun x => ?_,
      fun hs other hne => State.tlbOf_withTlbOf_of_ne side other _ (s.withInputs rest) hs hne,
      ⟨hr.cfg, hr.ctrl, hr.ttb, hr.dac⟩, ⟨hf.lastFault, hf.fsr, hf.far⟩, ⟨hm.bytes, hm.pending, hm.cacheHolds⟩⟩
    rw [State.tlbOf_respond, State.tlbOf_withTlbOf, mem_tlbUnlocked_iff he hlocked]
  case nothing =>
    rw [step_of_tlbUnlock hp hi hl, tlbUnlocked_of_not_lockedIn hnot, ← s.tlbOf_withInputs side rest,
      State.withTlbOf_tlbOf]
    rfl

end Sys2Proof.Machine
end

section
/-! SUPPORT. What a step does to the cache (20_memory.md R38, R54): only an access that proceeds may fill it, only
`CacheFlush` empties it (42_control_operations.md R149). -/

namespace Sys2Proof.Machine

/-- What one step answers the processor and does to the cache. -/
inductive CacheEffect (s t : State) : Prop
  /-- The operation goes on. -/
  | silent : t.outputs = s.outputs → t.cacheHolds = s.cacheHolds → CacheEffect s t
  /-- The answer is not that of an access that proceeds. -/
  | answers (r : Response) : (∀ pa c b data, r ≠ .ok pa c b data) → t.outputs = r :: s.outputs →
      t.cacheHolds = s.cacheHolds → CacheEffect s t
  /-- An access proceeds: a cacheable one may fill the cache (R38, R54). -/
  | proceeds (pa : Word) (c b : Bool) (data : List Byte) : t.outputs = .ok pa c b data :: s.outputs →
      t.cacheHolds = (s.cacheHolds || (c && s.cfg.hasCache)) → CacheEffect s t
  /-- `CacheFlush` in privileged state (R149). -/
  | flushes (rest : List Request) : s.phase = .idle → s.inputs = .control .cacheFlush .privileged :: rest →
      t.outputs = .done :: s.outputs → t.cacheHolds = false → CacheEffect s t

/-- An access that proceeds, whatever of the cache it finds (R31). -/
theorem State.proceed_cacheEffect {pa : Word} {c b : Bool} {room : Nat} {tr : Transfer} {s t : State}
    (h : s.proceed pa c b room tr = .next t) : CacheEffect s t := by
  obtain ⟨-, -, -, -, -, -, data, hout⟩ := State.proceed_frame h
  exact .proceeds pa c b data hout (State.proceed_cacheHolds h)

/-- An abort fills no cache (R170). -/
theorem Aborted.cacheEffect {kind : AbortKind} {va : Word} {domain : Option (BitVec 4)} {upd : Bool} {s t : State}
    (h : Aborted kind va domain upd s t) : CacheEffect s t :=
  .answers (.abort kind va) nofun h.outputs h.memory.cacheHolds

/-- A walk that finds its entry fills no cache (log entry 13). -/
theorem State.finishWalk_cacheEffect (e : TlbEntry) (p : Purpose) (s : State) :
    CacheEffect s (s.finishWalk e p) := by
  obtain ⟨hends, -⟩ := s.finishWalk_spec e p
  cases p with
  | access a => exact .silent (Filled.outputs hends) (Filled.memory hends).cacheHolds
  | lock side va => exact .answers .done nofun (LockedIn.outputs hends) (LockedIn.memory hends).cacheHolds

/-- A walk that meets a fault descriptor fills no cache, whether it aborts or ends quietly (R42, R170). -/
theorem State.walkFault_cacheEffect (f : HeldFault) (p : Purpose) (s : State) :
    CacheEffect s (s.walkFault f p) := by
  obtain ⟨hfaults, -⟩ := s.walkFault_spec f p
  rcases s.walkFault_cases f p with ⟨haborts, -⟩ | ⟨hlock, hm, -⟩
  · exact (hfaults.aborts haborts).cacheEffect
  · have hquiet := hfaults.quiet hlock hm
    exact .answers .done nofun hquiet.outputs hquiet.memory.cacheHolds

/-- A descriptor read fills no cache (log entry 13). -/
theorem State.physRead32_cacheEffect (addr : Word) (q : Phase) (s : State) :
    CacheEffect s ((s.physRead32 addr).2.withPhase q) := by
  obtain ⟨-, -, -, -, ho, -⟩ := s.physRead32_frame addr
  exact .silent ho (s.physRead32_cacheHolds addr)

/-- What a row does to the cache. -/
theorem RowEffect.cacheEffect {i : Instr} {s t : State} (h : RowEffect i s t) : CacheEffect s t := by
  cases h with
  | walkFault f p _ _ => exact s.walkFault_cacheEffect f p
  | found e p _ _ _ => exact s.finishWalk_cacheEffect e p
  | checkAbort kind e a _ => exact (s.raiseAbort_aborted kind a.va (some e.domain) _).cacheEffect
  | proceed e a _ _ hpr => exact State.proceed_cacheEffect hpr
  | flush w v codeVa cp which test _ =>
    obtain ⟨-, -, hm, -, ho⟩ := s.tlbFlush_frame which test
    exact .answers .done nofun (congrArg (Response.done :: ·) ho) hm.cacheHolds
  | readL1 w addr p _ => exact s.physRead32_cacheEffect addr _
  | readL2 tk w addr domain p _ => exact s.physRead32_cacheEffect addr _
  | descend => exact .silent rfl rfl
  | ctrl | ttb | dac | fsr | far | skip => exact .answers .done nofun rfl rfl
  | read w v codeVa x cp rd _ => exact .answers (.coprocValue rd x) nofun rfl rfl

/-- What taking the processor's next operation does to the cache. -/
theorem AcceptEffect.cacheEffect {s t : State} (h : AcceptEffect s t) (hp : s.phase = .idle) : CacheEffect s t := by
  cases h with
  | cacheFlush rest hi => exact .flushes rest hp hi rfl rfl
  | flat a rest _ _ _ hflat =>
    obtain ⟨-, -, -, -, -, -, data, hout⟩ := State.proceed_frame hflat
    exact .proceeds _ _ _ data hout (State.proceed_cacheHolds (s := (s.withInputs rest).withWalkReads []) hflat)
  | walks a rest _ _ _ _ ht =>
    obtain ⟨-, -, -, hm, -, ho, -⟩ := State.startWalk_frame ht
    exact .silent ho hm.cacheHolds
  | hitsFault a rest f _ _ _ =>
    have hraised := s.tlbHit_fault_raised rest f a
    obtain ⟨-, -, hm, -⟩ := ((s.withInputs rest).withWalkReads []).tlbHit_frame (.fault f) a
    exact .answers (.abort (.translation f.level) a.va) nofun hraised.outputs hm.cacheHolds
  | flush which rest _ =>
    obtain ⟨-, -, hm, -, ho⟩ := (s.withInputs rest).tlbFlush_frame which fun _ => true
    exact .answers .done nofun (congrArg (Response.done :: ·) ho) hm.cacheHolds
  | unlock side e rest _ =>
    obtain ⟨-, -, hm, -, ho⟩ := (s.withInputs rest).withTlbOf_frame side (tlbUnlocked e (s.tlbOf side))
    exact .answers .done nofun (congrArg (Response.done :: ·) ho) hm.cacheHolds
  | waits | hits | asksCtrl | asksTtb | asksTransfer | lock => exact .silent rfl rfl
  | dac | drain => exact .answers .done nofun rfl rfl
  | reads v rest _ => exact .answers (.value v) nofun rfl rfl
  | readsFault rest _ => exact .answers (.faultRecord s.lastFault) nofun rfl rfl

/-- What a step does to the cache (R38, R54, R149). -/
theorem step_cacheEffect {s t : State} (h : step s = .next t) : CacheEffect s t := by
  rcases step_effect h with ⟨hp, h⟩ | ⟨r, w, i, -, -, h⟩
  · exact h.cacheEffect hp
  · exact h.cacheEffect

/-- A cache that holds nothing is not hit (R38, R149). -/
theorem State.cacheHit_of_empty {s : State} (h : s.cacheHolds = false) (c : Bool) : s.cacheHit c = false := by
  simp only [State.cacheHit, h, Bool.and_false, Bool.false_and]

/-- An empty cache stays empty until a cacheable access proceeds in a system with a cache (R38, R54). -/
theorem CacheEffect.of_empty {s t : State} (h : CacheEffect s t) (he : s.cacheHolds = false) :
    t.cacheHolds = false ∨ s.cfg.hasCache = true ∧ ∃ pa b data, t.outputs = .ok pa true b data :: s.outputs := by
  cases h with
  | silent _ hc | answers _ _ _ hc => exact .inl (hc.trans he)
  | flushes _ _ _ _ hc => exact .inl hc
  | proceeds pa c b data ho hc =>
    cases hfill : c && s.cfg.hasCache with
    | false => exact .inl (by rw [hc, he, hfill]; rfl)
    | true =>
      obtain ⟨rfl, hcache⟩ := Bool.and_eq_true_iff.mp hfill
      exact .inr ⟨hcache, pa, b, data, ho⟩

/-- A cache that may hold something keeps so until a `CacheFlush` in privileged state (R54, R149). -/
theorem CacheEffect.of_holding {s t : State} (h : CacheEffect s t) (hh : s.cacheHolds = true) :
    t.cacheHolds = true ∨ ∃ rest, s.phase = .idle ∧ s.inputs = .control .cacheFlush .privileged :: rest := by
  cases h with
  | silent _ hc | answers _ _ _ hc => exact .inl (hc.trans hh)
  | proceeds _ _ _ _ _ hc => exact .inl (by rw [hc, hh]; rfl)
  | flushes rest hp hi _ _ => exact .inr ⟨rest, hp, hi⟩

/-- A cacheable access that proceeds in a system with a cache leaves one that may hold something (R38). -/
theorem CacheEffect.of_cacheable {s t : State} (h : CacheEffect s t) (hcache : s.cfg.hasCache = true) {pa : Word}
    {b : Bool} {data : List Byte} (ho : t.outputs = .ok pa true b data :: s.outputs) : t.cacheHolds = true := by
  cases h with
  | silent ho' _ => exact absurd (ho'.symm.trans ho) List.ne_cons_self
  | answers r hr ho' _ => exact absurd (List.cons.inj (ho'.symm.trans ho)).1 (hr pa true b data)
  | flushes _ _ _ ho' _ => cases (List.cons.inj (ho'.symm.trans ho)).1
  | proceeds _ _ _ _ ho' hc =>
    cases (List.cons.inj (ho'.symm.trans ho)).1
    rw [hc, hcache, Bool.and_true, Bool.or_true]

/-- Settles O49: the flush by its step, and who fills or empties the cache by what a step does to it. -/
theorem cacheFlushEmptiesTheCache : Obligations.CacheFlushEmptiesTheCache := by
  refine ⟨fun s rest hp hi => ?flush, fun s c he => State.cacheHit_of_empty he c,
    fun s t he h => (step_cacheEffect h).of_empty he, fun s t hh h => (step_cacheEffect h).of_holding hh,
    fun s t pa b data hcache h ho => (step_cacheEffect h).of_cacheable hcache ho⟩
  case flush =>
    exact ⟨_, step_of_control hp hi, rfl, rfl, rfl, rfl, fun _ => rfl, rfl, ⟨rfl, rfl, rfl, rfl⟩, ⟨rfl, rfl, rfl⟩,
      ⟨rfl, rfl, rfl⟩⟩

end Sys2Proof.Machine
end

section
/-! SUPPORT. Memory aborts seen from every step (60_exceptions.md R160, R166 to R170): what an abort writes and what it
leaves alone, and that there is none while the MMU is disabled. -/

namespace Sys2Proof.Machine

/-! ## What a step makes of memory aborts -/

/-- A step has taken the memory abort of an operation (R160): the walk, the check or the access that is in progress
or comes next. The processor is told, the fault is recorded (R168, R169), and of all else only the TLBs can have
changed, where they hold faults (R170, D6). -/
structure AbortTaken (kind : AbortKind) (p : Purpose) (domain : Option (BitVec 4)) (s t : State) : Prop where
  purpose : s.purpose = some p
  enabled : s.phase.translates ∨ s.ctrl.getLsbD 0 = true
  outputs : t.outputs = .abort kind p.va :: s.outputs
  lastFault : t.lastFault = some ⟨kind, p.va, domain⟩
  faultRegs : FaultRegs kind p.va domain (p.updatesFaultRegs s.cfg) s t
  registers : SameRegisters s t
  memory : SameMemory s t
  inputs : t.inputs = s.inputs ∨ s.phase = .idle ∧ ∃ a, s.inputs = .access a :: t.inputs
  tlbs : SameTlbs s t ∨ s.cfg.tlbCachesFaults = true ∧ ∃ f, Placed (.fault f) p.side s t

/-- What one step makes of memory aborts: none, and then the record of the last one stays, or one. -/
inductive AbortEffect (s t : State) : Prop
  | quiet : t.lastFault = s.lastFault → (∀ kind va, t.outputs ≠ .abort kind va :: s.outputs) → AbortEffect s t
  | aborts (kind : AbortKind) (p : Purpose) (domain : Option (BitVec 4)) : AbortTaken kind p domain s t →
      AbortEffect s t

/-- A step that answers the processor nothing and keeps the record takes no abort. -/
theorem AbortEffect.of_silent {s t : State} (hl : t.lastFault = s.lastFault) (ho : t.outputs = s.outputs) :
    AbortEffect s t :=
  .quiet hl fun _ _ h => List.cons_ne_self _ _ (h.symm.trans ho)

/-- A step that gives the processor an answer other than an abort and keeps the record takes no abort. -/
theorem AbortEffect.of_answer {s t : State} {r : Response} (hl : t.lastFault = s.lastFault)
    (ho : t.outputs = r :: s.outputs) (hr : ∀ kind va, r ≠ .abort kind va) : AbortEffect s t :=
  .quiet hl fun kind va h => hr kind va (List.cons.inj (ho.symm.trans h)).1

/-- An access that proceeds takes no abort (R31). -/
theorem State.proceed_abortEffect {pa : Word} {c b : Bool} {room : Nat} {tr : Transfer} {s t : State}
    (h : s.proceed pa c b room tr = .next t) : AbortEffect s t := by
  obtain ⟨-, hf, -, -, -, -, data, hout⟩ := State.proceed_frame h
  exact .of_answer hf.lastFault hout nofun

/-- A walk that finds its entry takes no abort (R102, R147). -/
theorem State.finishWalk_abortEffect (e : TlbEntry) (p : Purpose) (s : State) :
    AbortEffect s (s.finishWalk e p) := by
  obtain ⟨hends, -⟩ := s.finishWalk_spec e p
  cases p with
  | access a => exact .of_silent (Filled.faultState hends).lastFault (Filled.outputs hends)
  | lock side va => exact .of_answer (LockedIn.faultState hends).lastFault (LockedIn.outputs hends) nofun

/-- A walk for an access that has a descriptor at hand translates that access. -/
theorem State.translates_of_descriptor {s : State} {a : Access}
    (h : (∃ d, s.phase = .l1Desc d (.access a)) ∨ ∃ t d domain, s.phase = .l2Desc t d domain (.access a)) :
    s.phase.translates := by
  rcases h with ⟨d, h⟩ | ⟨t, d, domain, h⟩ <;> rw [h] <;> exact ⟨a, rfl⟩

/-- A walk that meets a fault descriptor takes the abort of its operation, but a `TLBLock` with the MMU disabled
takes none (R42, R161, R162). -/
theorem State.walkFault_abortEffect {s : State} {p : Purpose}
    (hp : (∃ d, s.phase = .l1Desc d p) ∨ ∃ t d domain, s.phase = .l2Desc t d domain p) (f : HeldFault) :
    AbortEffect s (s.walkFault f p) := by
  obtain ⟨hfaults, -⟩ := s.walkFault_spec f p
  rcases s.walkFault_cases f p with ⟨hcause, -⟩ | ⟨hlock, hm, -⟩
  · have haborted := hfaults.aborts hcause
    refine .aborts _ p f.domain ⟨(State.purpose_of_descriptor hp).1, ?enabled, haborted.outputs, haborted.lastFault,
      haborted.faultRegs, haborted.registers, haborted.memory, .inl haborted.inputs.inputs, ?tlbs⟩
    case enabled =>
      rcases hcause with ⟨a, rfl⟩ | hm
      · exact .inl (State.translates_of_descriptor hp)
      · exact .inr hm
    case tlbs =>
      cases hc : s.cfg.tlbCachesFaults with
      | false => exact .inl (hfaults.tlbs hc)
      | true => exact .inr ⟨rfl, f, hfaults.held hc⟩
  · have hquiet := hfaults.quiet hlock hm
    exact .of_answer hquiet.faultState.lastFault hquiet.outputs nofun

/-- A check that refuses its access takes the abort of that access (R163, R164). -/
theorem State.checkAbort_abortTaken {s : State} {e : TlbEntry} {a : Access} (hp : s.phase = .check e a)
    (kind : AbortKind) : AbortTaken kind (.access a) (some e.domain) s (checkAbort kind e a s) := by
  obtain ⟨t, ht, haborted, htlbs, -⟩ := aborted_of_checkAbort (s := s) (e := e) (a := a) (kind := kind) rfl
  cases ht
  exact ⟨by simp only [State.purpose, hp], .inl (by rw [hp]; trivial), haborted.outputs, haborted.lastFault,
    haborted.faultRegs, haborted.registers, haborted.memory, .inl haborted.inputs.inputs, .inl htlbs⟩

/-- A held fault that the lookup of the next access hits is taken as the abort of that access (D6). -/
theorem State.hitFault_abortTaken {s : State} {a : Access} {rest : List Request} (hp : s.phase = .idle)
    (hi : s.inputs = .access a :: rest) (hm : s.ctrl.getLsbD 0 = true) (f : HeldFault) :
    AbortTaken (.translation f.level) (.access a) f.domain s
      (((s.withInputs rest).withWalkReads []).tlbHit (.fault f) a).tick := by
  have hraised := s.tlbHit_fault_raised rest f a
  obtain ⟨hr, ht, hmem, hin⟩ := ((s.withInputs rest).withWalkReads []).tlbHit_frame (.fault f) a
  refine ⟨by simp only [State.purpose, hp, hi], .inr hm, hraised.outputs, hraised.lastFault, hraised.faultRegs,
    ⟨hr.cfg, hr.ctrl, hr.ttb, hr.dac⟩, ⟨hmem.bytes, hmem.pending, hmem.cacheHolds⟩, .inr ⟨hp, a, ?_⟩,
    .inl ⟨ht.tlb, ht.itlb, ht.dtlb⟩⟩
  rw [hi]
  exact congrArg (Request.access a :: ·) hin.inputs.symm

/-- A descriptor read takes no abort (R44). -/
theorem State.physRead32_abortEffect (addr : Word) (q : Phase) (s : State) :
    AbortEffect s ((s.physRead32 addr).2.withPhase q) := by
  obtain ⟨-, hf, -, -, ho, -⟩ := s.physRead32_frame addr
  exact .of_silent hf.lastFault ho

/-- What a row makes of memory aborts. -/
theorem RowEffect.abortEffect {i : Instr} {s t : State} (h : RowEffect i s t) : AbortEffect s t := by
  cases h with
  | walkFault f p hp _ => exact State.walkFault_abortEffect hp f
  | checkAbort kind e a hp => exact .aborts _ _ _ (State.checkAbort_abortTaken hp kind)
  | found e p _ _ _ => exact s.finishWalk_abortEffect e p
  | proceed e a _ _ hpr => exact State.proceed_abortEffect hpr
  | readL1 w addr p _ => exact s.physRead32_abortEffect addr _
  | readL2 tk w addr domain p _ => exact s.physRead32_abortEffect addr _
  | flush w v codeVa cp which test _ =>
    obtain ⟨-, hf, -, -, ho⟩ := s.tlbFlush_frame which test
    exact .of_answer hf.lastFault (congrArg (Response.done :: ·) ho) nofun
  | descend => exact .of_silent rfl rfl
  | ctrl | ttb | dac | fsr | far | skip => exact .of_answer rfl rfl nofun
  | read w v codeVa x cp rd _ => exact .of_answer rfl rfl nofun

/-- What taking the processor's next operation makes of memory aborts. -/
theorem AcceptEffect.abortEffect {s t : State} (h : AcceptEffect s t) (hp : s.phase = .idle) : AbortEffect s t := by
  cases h with
  | hitsFault a rest f hi hm _ => exact .aborts _ _ _ (State.hitFault_abortTaken hp hi hm f)
  | flat a rest _ _ _ hflat =>
    obtain ⟨-, hf, -, -, -, -, data, hout⟩ := State.proceed_frame hflat
    exact .of_answer hf.lastFault hout nofun
  | walks a rest _ _ _ _ ht =>
    obtain ⟨-, hf, -, -, -, ho, -⟩ := State.startWalk_frame ht
    exact .of_silent hf.lastFault ho
  | flush which rest _ =>
    obtain ⟨-, hf, -, -, ho⟩ := (s.withInputs rest).tlbFlush_frame which fun _ => true
    exact .of_answer hf.lastFault (congrArg (Response.done :: ·) ho) nofun
  | unlock side e rest _ =>
    obtain ⟨-, hf, -, -, ho⟩ := (s.withInputs rest).withTlbOf_frame side (tlbUnlocked e (s.tlbOf side))
    exact .of_answer hf.lastFault (congrArg (Response.done :: ·) ho) nofun
  | waits | hits | asksCtrl | asksTtb | asksTransfer | lock => exact .of_silent rfl rfl
  | dac | cacheFlush | drain => exact .of_answer rfl rfl nofun
  | reads v rest _ => exact .of_answer rfl rfl nofun
  | readsFault rest _ => exact .of_answer rfl rfl nofun

/-- What a step makes of memory aborts. -/
theorem step_abortEffect {s t : State} (h : step s = .next t) : AbortEffect s t := by
  rcases step_effect h with ⟨hp, h⟩ | ⟨r, w, i, -, -, h⟩
  · exact h.abortEffect hp
  · exact h.abortEffect

/-- A step that answers an abort has taken it for the operation at hand, and its address is that operation's. -/
theorem abortTaken_of_output {s t : State} {kind : AbortKind} {va : Word} (h : step s = .next t)
    (ho : t.outputs = .abort kind va :: s.outputs) : ∃ p domain, p.va = va ∧ AbortTaken kind p domain s t := by
  cases step_abortEffect h with
  | quiet _ hn => exact absurd ho (hn kind va)
  | aborts kind' p domain htaken =>
    cases (List.cons.inj (ho.symm.trans htaken.outputs)).1
    exact ⟨p, domain, rfl, htaken⟩

/-! ## The record of the last abort (R166, R168) -/

/-- Settles O52: a step takes no abort and keeps the record, or takes one and writes it. -/
theorem lastFaultIsWrittenByAbortsOnly : Obligations.LastFaultIsWrittenByAbortsOnly := by
  intro s t h
  cases step_abortEffect h with
  | quiet hl hn => exact .inl ⟨hl, hn⟩
  | aborts kind p domain htaken => exact .inr ⟨kind, p.va, domain, htaken.outputs, htaken.lastFault⟩

/-- Settles O31: an abort is taken by an enabled MMU or while an access is translated, which only an enabled one
does in a state that meets the invariant. -/
theorem disabledMmuGeneratesNoAbort : Obligations.DisabledMmuGeneratesNoAbort := by
  intro s t hs hm h
  cases step_abortEffect h with
  | quiet hl hn => exact ⟨hl, hn⟩
  | aborts kind p domain htaken =>
    have hon : s.ctrl.getLsbD 0 = true := htaken.enabled.elim hs.enabled id
    exact absurd (hon.symm.trans hm) Bool.noConfusion

/-! ## What an abort leaves alone (R170) -/

/-- An abort brings no entry into a TLB and takes no locked one out of it: at most a fault has come in (R170, D6). -/
theorem AbortTaken.entries {kind : AbortKind} {p : Purpose} {domain : Option (BitVec 4)} {s t : State}
    (h : AbortTaken kind p domain s t) (side : TlbSide) (e : TlbEntry) :
    (.entry e ∈ t.tlbOf side → .entry e ∈ s.tlbOf side) ∧
      (.entry e ∈ s.tlbOf side → e.locked = true → .entry e ∈ t.tlbOf side) := by
  have hcases : t.tlbOf side = s.tlbOf side ∨ ∃ f, LineCame (.fault f) (s.tlbOf side) (t.tlbOf side) := by
    rcases h.tlbs with hsame | ⟨-, f, hplaced⟩
    · exact .inl (hsame.tlbOf_eq h.registers.cfg side)
    · exact (hplaced.atSide h.registers.cfg side).imp id fun ⟨_, hcame⟩ => ⟨f, hcame⟩
  rcases hcases with heq | ⟨f, hcame⟩
  · rw [heq]
    exact ⟨id, fun he _ => he⟩
  · exact ⟨fun he => (hcame.noOther _ he).resolve_left nofun, hcame.lockedStay _⟩

/-- Settles O53, by what taking an abort leaves alone. -/
theorem abortedAccessDoesNotHappen : Obligations.AbortedAccessDoesNotHappen := by
  intro s t kind va h ho
  obtain ⟨p, domain, -, htaken⟩ := abortTaken_of_output h ho
  refine ⟨htaken.memory, htaken.registers, htaken.inputs, fun side e => (htaken.entries side e).1,
    fun side e => (htaken.entries side e).2, fun hc => htaken.tlbs.resolve_right fun ⟨hc', _⟩ => ?_⟩
  exact absurd (hc'.symm.trans hc) Bool.noConfusion

/-! ## The fault status and fault address registers (R169) -/

/-- An abort of a data access is recorded in the fault registers, and one of a fetch where the chip records those. -/
theorem AccessKind.updatesFaultRegs_iff (cfg : Config) (kind : AccessKind) :
    kind.updatesFaultRegs cfg = true ↔ kind ≠ .fetch ∨ cfg.fetchAbortRecorded = true := by
  cases kind <;> simp [AccessKind.updatesFaultRegs]

/-- An abort of no access that the chip records is not recorded in the fault registers (log entry 18). -/
theorem Purpose.updatesFaultRegs_of_unrecorded {cfg : Config} {p : Purpose}
    (h : ∀ a, p = .access a → a.kind = .fetch ∧ cfg.fetchAbortRecorded = false) :
    p.updatesFaultRegs cfg = false := by
  cases p with
  | access a =>
    obtain ⟨hfetch, hcfg⟩ := h a rfl
    simp only [Purpose.updatesFaultRegs, AccessKind.updatesFaultRegs, hfetch, hcfg]
  | lock side va => rfl

/-- Settles O54, by whether the abort of the operation updates the registers. -/
theorem dataAbortUpdatesTheFaultRegisters : Obligations.DataAbortUpdatesTheFaultRegisters := by
  intro s t kind va h ho
  obtain ⟨p, domain, rfl, htaken⟩ := abortTaken_of_output h ho
  refine ⟨p, htaken.purpose, rfl, ?written, fun hn =>
    htaken.faultRegs.kept (Purpose.updatesFaultRegs_of_unrecorded hn)⟩
  rintro ⟨a, rfl, ha⟩
  obtain ⟨haddress, hstatus, hdomain, hbit8, -⟩ :=
    htaken.faultRegs.written ((AccessKind.updatesFaultRegs_iff s.cfg a.kind).mpr ha)
  refine ⟨haddress, hbit8, fun d hd => hdomain d ?_, hstatus.trans ?_⟩
  · rw [htaken.lastFault] at hd
    exact congrArg FaultRecord.domain (Option.some.inj hd)
  · cases kind with
    | translation l | domain l | permission l => cases l <;> rfl

end Sys2Proof.Machine
end

section
/-! SUPPORT. Where the machine stops as UNPREDICTABLE (60_exceptions.md R165): at a tiny page descriptor of a coarse
table (R73), at a reserved domain field (R124) and at the open row of table 3-3 (R129), and nowhere else. -/

namespace Sys2Proof.Machine

/-! ## What never stops -/

/-- A result that is a next state or a refusal, whatever became of the operation. -/
def NeverStops (r : Result) : Prop := ∀ f, r ≠ .fault f

/-- A next state is no stop. -/
theorem NeverStops.next (s : State) : NeverStops (.next s) := nofun

/-- A refusal is no stop (R165). -/
theorem NeverStops.refused (r : Refusal) : NeverStops (.refused r) := nofun

/-- Of two results that never stop, either one. -/
theorem NeverStops.ite {c : Prop} [Decidable c] {r r' : Result} (h : NeverStops r) (h' : NeverStops r') :
    NeverStops (if c then r else r') := by
  split
  · exact h
  · exact h'

/-- An operation that privileged state alone performs stops only as the operation does (R148). -/
theorem NeverStops.asPrivileged {r : Result} (h : NeverStops r) (priv : Priv) :
    NeverStops (asPrivileged priv r) := by
  cases priv with
  | privileged => exact h
  | user => exact .refused _

/-- An operation that needs lockdown stops only as the operation does (R147). -/
theorem NeverStops.ifLockdown {r : Result} (h : NeverStops r) (cfg : Config) : NeverStops (ifLockdown cfg r) :=
  .ite h (.refused _)

/-- An access that passed its check proceeds or runs past its region (R31, R47). -/
theorem State.proceed_neverStops (pa : Word) (c b : Bool) (room : Nat) (tr : Transfer) (s : State) :
    NeverStops (s.proceed pa c b room tr) :=
  .ite (.refused _) (.next _)

/-- A write of CP15 register 1 is made or refused (R140, R141). -/
theorem State.writeControl_neverStops (v codeVa : Word) (s : State) : NeverStops (s.writeControl v codeVa) :=
  .ite (.refused _) (.next _)

/-- A write of CP15 register 2 is made or refused (R82, R143). -/
theorem State.writeTtb_neverStops (v : Word) (s : State) : NeverStops (s.writeTtb v) :=
  .ite (.refused _) (.next _)

/-- A transfer writes the register it names or is refused (R86). -/
theorem State.cp15Write_neverStops (crn crm : BitVec 4) (opc2 : BitVec 3) (v codeVa : Word) (s : State) :
    NeverStops (s.cp15Write crn crm opc2 v codeVa) := by
  unfold State.cp15Write
  refine .ite ?flush (.ite (.refused _) (.ite (s.writeControl_neverStops v codeVa) (.ite (s.writeTtb_neverStops v)
    (.ite (.next _) (.ite (.next _) (.ite (.next _) (.refused _)))))))
  case flush =>
    split
    · exact .next _
    · exact .refused _

/-- A transfer reads the register it names or is refused (R86). -/
theorem State.cp15Read_neverStops (crn rd crm : BitVec 4) (opc2 : BitVec 3) (s : State) :
    NeverStops (s.cp15Read crn rd crm opc2) := by
  unfold State.cp15Read
  refine .ite (.refused _) ?_
  split
  · exact .next _
  · exact .refused _

/-- A control operation never stops the machine (R140 to R149). -/
theorem State.control_neverStops (op : ControlOp) (priv : Priv) (s : State) : NeverStops (s.control op priv) := by
  cases op with
  | writeControl | writeTtb => exact .next _
  | tlbLock | tlbUnlock => exact ((NeverStops.next _).ifLockdown _).asPrivileged priv
  | writeDac | readControl | readTtb | readDac | readFault | tlbFlush | cacheFlush =>
    exact (NeverStops.next _).asPrivileged priv

/-- Taking the processor's next operation never stops the machine. -/
theorem State.accept_neverStops (s : State) : NeverStops s.accept := by
  unfold State.accept
  split
  · exact .next _
  · rename_i r rest _
    cases r with
    | access a => exact .ite (.next _) (State.proceed_neverStops _ _ _ _ _ _)
    | control op priv => exact State.control_neverStops op priv _
    | coproc | drain => exact .next _

/-! ## The rows that can stop -/

/-- A row that stops stands at a second-level descriptor of a coarse table or at a check: every other row goes on or is
refused. -/
theorem exec_fault_phase {i : Instr} {s : State} {f : Fault} (h : exec i s = .fault f) :
    (∃ d domain p, s.phase = .l2Desc .coarse d domain p) ∨ ∃ e a, s.phase = .check e a := by
  cases i with
  | l2cTiny undescribed =>
    simp only [exec, execL2cTiny] at h
    split at h
    · cases h
    · rename_i hp
      obtain ⟨d, hd⟩ := Phase.atL2Desc_some hp
      exact .inl ⟨d, _, _, hd⟩
  | dacNoAccess | dacClient | dacReserved | dacManager =>
    cases hp : s.phase.atCheck with
    | none => simp [exec, execDacNoAccess, execDacClient, execDacReserved, execDacManager, hp] at h
    | some x => exact .inr ⟨x.1, x.2, Phase.atCheck_some hp⟩
  | ttb base sbz =>
    simp only [exec, execTtb] at h
    split at h
    · exact absurd h ((s.writeTtb_neverStops _).asPrivileged _ f)
    · cases h
  | ctrl value =>
    simp only [exec, execCtrl] at h
    split at h
    · exact absurd h ((s.writeControl_neverStops _ _).asPrivileged _ f)
    · cases h
  | mcrMrc cond opc1 load crn rd opc2 crm =>
    simp only [exec, execMcrMrc] at h
    split at h
    · have hnever (v codeVa : Word) : NeverStops (if opc1 ≠ 0 then .refused (.cp15NotDescribed crn crm opc2)
          else if load then s.cp15Read crn rd crm opc2 else s.cp15Write crn crm opc2 v codeVa) :=
        .ite (.refused _) (.ite (s.cp15Read_neverStops crn rd crm opc2) (s.cp15Write_neverStops crn crm opc2 v codeVa))
      exact absurd h (NeverStops.ite (.next _) ((hnever _ _).asPrivileged _) f)
    · cases h
  | l1Fault | l2cFault | l2cSmall | l2fFault | l2fSmall | l1Addr | l2AddrCoarse | l2AddrFine =>
    simp only [exec, execL1Fault, execL2cFault, execL2cSmall, execL2fFault, execL2fSmall, execL1Addr, execL2AddrCoarse,
      execL2AddrFine, pageFault, smallPageTranslate, readL2Desc] at h
    split at h <;> cases h
  | l1Coarse | l1Section | l1Fine | l2cLarge | l2fLarge | l2fTiny =>
    simp only [exec, execL1Coarse, execL1Section, execL1Fine, execL2cLarge, execL2fLarge, execL2fTiny,
      largePageTranslate] at h
    split at h
    · cases h
    · exact absurd h (NeverStops.ite (.refused _) (.next _) f)

/-- A step that stops stands at a second-level descriptor of a coarse table or at a check. -/
theorem step_fault_phase {s : State} {f : Fault} (h : step s = .fault f) :
    (∃ d domain p, s.phase = .l2Desc .coarse d domain p) ∨ ∃ e a, s.phase = .check e a := by
  unfold step at h
  split at h
  · exact absurd h (s.accept_neverStops f)
  · split at h
    · exact exec_fault_phase h
    · cases h

/-! ## The two places where the machine can stop -/

/-- At a second-level descriptor of a coarse table the machine stops just for a tiny page descriptor (R73). -/
theorem step_fault_iff_of_l2Desc {s : State} {d : Word} {domain : BitVec 4} {p : Purpose}
    (hp : s.phase = .l2Desc .coarse d domain p) (f : Fault) :
    step s = .fault f ↔ f = .tinyInCoarse ∧ field d 0 2 = 0b11 := by
  constructor
  · intro h
    rcases two_bits_cases (field d 0 2) with htype | htype | htype | htype
    · rw [step_of_l2Desc_fault hp htype] at h
      cases h
    · rw [step_of_l2Desc_large hp htype] at h
      exact absurd h (NeverStops.ite (.refused _) (.next _) f)
    · rw [step_of_l2Desc_small hp htype] at h
      cases h
    · rw [step_of_l2Desc_tinyInCoarse hp htype] at h
      cases h
      exact ⟨rfl, htype⟩
  · rintro ⟨rfl, htype⟩
    exact step_of_l2Desc_tinyInCoarse hp htype

/-- At a check the machine stops just where the whole check gives no verdict (R139). -/
theorem step_fault_iff_of_check {s : State} {e : TlbEntry} {a : Access} (hp : s.phase = .check e a) (f : Fault) :
    step s = .fault f ↔ s.checkAccess e a = .unpredictable f := by
  rw [step_of_check hp]
  cases s.checkAccess e a with
  | allowed => exact ⟨fun h => absurd h (State.proceed_neverStops _ _ _ _ _ _ f), nofun⟩
  | abort kind => exact ⟨nofun, nofun⟩
  | unpredictable f' => simp only [Verdict.answer, Host.Outcome.fault.injEq, Verdict.unpredictable.injEq]

/-- Table 3-3 is open in one row: AP 0b00 with S and R both set (R129). -/
theorem permission_eq_none_iff (ap : BitVec 2) (system rom : Bool) (priv : Priv) :
    permission ap system rom priv = none ↔ ap = 0b00 ∧ system = true ∧ rom = true := by
  rcases two_bits_cases ap with rfl | rfl | rfl | rfl
  · cases system <;> cases rom <;> cases priv <;> decide
  all_goals cases priv <;> simp [permission]

/-- The permission check gives no verdict just in the open row of table 3-3 (R129). -/
theorem State.apCheck_unpredictable_iff (s : State) (e : TlbEntry) (a : Access) (f : Fault) :
    s.apCheck e a = .unpredictable f ↔
      f = .apWithSystemAndRom ∧ e.mapping.ap a.va = 0b00 ∧ s.systemBit = true ∧ s.romBit = true := by
  rw [← permission_eq_none_iff _ _ _ a.priv, State.apCheck]
  cases permission (e.mapping.ap a.va) s.systemBit s.romBit a.priv with
  | none => simp [eq_comm (a := f)]
  | some level => cases hallows : level.allows a.kind <;> simp [hallows]

/-- The whole check gives no verdict for a reserved domain field (R124), and in a client domain where the permission
check gives none (R129). -/
theorem State.checkAccess_unpredictable_iff (s : State) (e : TlbEntry) (a : Access) (f : Fault) :
    s.checkAccess e a = .unpredictable f ↔
      (f = .domainReserved ∧ s.domainField e.domain = 0b10) ∨
        (f = .apWithSystemAndRom ∧ s.domainField e.domain = 0b01 ∧ e.mapping.ap a.va = 0b00 ∧
          s.systemBit = true ∧ s.romBit = true) := by
  rw [State.checkAccess]
  rcases two_bits_cases (s.domainField e.domain) with h | h | h | h
  · simp [h]
  · simp [h, s.apCheck_unpredictable_iff]
  · simp [h, eq_comm (a := f)]
  · simp [h]

/-! ## The statement -/

/-- Settles O29: a step that stops stands at one of the two places, and there it stops just in the named conditions. -/
theorem unpredictableExactlyInTheThreeConditions : Obligations.UnpredictableExactlyInTheThreeConditions := by
  intro s
  have htiny : step s = .fault .tinyInCoarse ↔
      ∃ d dom p, s.phase = .l2Desc .coarse d dom p ∧ field d 0 2 = 0b11 := by
    refine ⟨fun h => ?_, fun ⟨d, dom, p, hp, htype⟩ => step_of_l2Desc_tinyInCoarse hp htype⟩
    rcases step_fault_phase h with ⟨d, dom, p, hp⟩ | ⟨e, a, hp⟩
    · exact ⟨d, dom, p, hp, ((step_fault_iff_of_l2Desc hp _).mp h).2⟩
    · rw [step_fault_iff_of_check hp, State.checkAccess_unpredictable_iff] at h
      rcases h with ⟨hf, -⟩ | ⟨hf, -⟩ <;> cases hf
  have hcheck (f : Fault) (hf : f ≠ .tinyInCoarse) : step s = .fault f ↔
      ∃ e a, s.phase = .check e a ∧ s.checkAccess e a = .unpredictable f := by
    refine ⟨fun h => ?_, fun ⟨e, a, hp, hv⟩ => (step_fault_iff_of_check hp f).mpr hv⟩
    rcases step_fault_phase h with ⟨d, dom, p, hp⟩ | ⟨e, a, hp⟩
    · exact absurd ((step_fault_iff_of_l2Desc hp f).mp h).1 hf
    · exact ⟨e, a, hp, (step_fault_iff_of_check hp f).mp h⟩
  have hreserved := hcheck .domainReserved nofun
  have hopen := hcheck .apWithSystemAndRom nofun
  simp only [State.checkAccess_unpredictable_iff, reduceCtorEq, false_and, true_and, or_false, false_or]
    at hreserved hopen
  refine ⟨htiny, hreserved, hopen, fun hdomains hboth hcoarse f h => ?_⟩
  cases f with
  | tinyInCoarse =>
    obtain ⟨d, dom, p, hp, htype⟩ := htiny.mp h
    exact hcoarse d dom p hp htype
  | domainReserved =>
    obtain ⟨e, -, -, hfield⟩ := hreserved.mp h
    exact hdomains e.domain hfield
  | apWithSystemAndRom =>
    obtain ⟨-, -, -, -, -, hsystem, hrom⟩ := hopen.mp h
    exact hboth ⟨hsystem, hrom⟩

end Sys2Proof.Machine
end

section
/-! SUPPORT. What draining the writes leaves (70_reset_and_hazards.md R199): nothing held back, main memory as the
processor saw it, and everything else as it was. -/

namespace Sys2Proof.Machine

/-! ## The arrival of every held write (R199) -/

/-- The arrival of every held write leaves none on its way. -/
theorem State.drainAll_drained (s : State) : s.drainAll.drained := rfl

/-- The arrival of every held write changes main memory and the held writes only. -/
theorem State.drainAll_frame (s : State) :
    SameRegisters s s.drainAll ∧ SameFaultState s s.drainAll ∧ SameTlbs s s.drainAll ∧ SameInputs s s.drainAll ∧
      s.drainAll.outputs = s.outputs ∧ s.drainAll.cacheHolds = s.cacheHolds :=
  ⟨⟨rfl, rfl, rfl, rfl⟩, ⟨rfl, rfl, rfl⟩, ⟨rfl, rfl, rfl⟩, ⟨rfl⟩, rfl, rfl⟩

/-- When every held write has arrived main memory holds what the processor saw (R49): its view is unchanged, and with
nothing held back that view is main memory. -/
theorem State.drainAll_memByte {s : State} (h : s.MemoryWf) (x : Word) : s.drainAll.memByte x = s.coherentByte x :=
  calc s.drainAll.memByte x = s.drainAll.coherentByte x := by rw [State.coherentByte_of_drained s.drainAll_drained]
    _ = s.coherentByte x := State.drainAll_coherentByte h x

/-! ## The statement -/

/-- Settles O51: the step is the arrival of every held write and the answer, and neither taking the request nor giving
the answer touches memory. -/
theorem drainPutsEveryWriteInMainMemory : Obligations.DrainPutsEveryWriteInMainMemory := by
  intro s rest hs hp hi
  obtain ⟨⟨hcfg, hctrl, httb, hdac⟩, ⟨hlast, hfsr, hfar⟩, ⟨htlb, hitlb, hdtlb⟩, ⟨hinputs⟩, houtputs, hcache⟩ :=
    (s.withInputs rest).drainAll_frame
  have hwf : (s.withInputs rest).MemoryWf := ⟨hs.mem, hs.pending⟩
  exact ⟨(s.withInputs rest).drainAll.respond .done, step_of_request hp hi, (s.withInputs rest).drainAll_drained,
    hinputs, congrArg (Response.done :: ·) houtputs, rfl, State.drainAll_memByte hwf, hcache,
    ⟨hcfg, hctrl, httb, hdac⟩, ⟨hlast, hfsr, hfar⟩, ⟨htlb, hitlb, hdtlb⟩⟩

end Sys2Proof.Machine
end

section
/-! SUPPORT. Encoding undoes decoding (30_encoding.md R60, R63, R68): the fields that a decoder reads from a word cover
it without gap or overlap, so that joined again in the encoder's order they are that word. -/

namespace Sys2Proof

/-! ## The format of a row covers the word (R7) -/

/-- The type bits that are none of the first three values are the fourth (R63, R68). -/
theorem typeBits_eq_three {t : BitVec 2} (h0 : t ≠ 0) (h1 : t ≠ 1) (h2 : t ≠ 2) : t = 0b11#2 :=
  (((Machine.two_bits_cases t).resolve_left h0).resolve_left h1).resolve_left h2

/-- The type bits of a word joined below its other bits (R64, R69, R73). -/
theorem join_typeBits {w : Word} {t : BitVec 2} (h : field w 0 2 = t) : field w 2 30 ++ t = w := by
  rw [← h, field_join w 0 2 30 2 rfl]
  exact field_whole w

/-- The format of a coarse page table descriptor (R66). -/
theorem encode_l1Coarse_fields {w : Word} (h : field w 0 2 = 0b01#2) :
    encode (.l1Coarse (field w 10 22) (field w 9 1) (field w 5 4) (field w 2 3)) = w := by
  simp (disch := rfl) only [encode, ← h, field_join, -Nat.reduceAdd]
  exact field_whole w

/-- The format of a section descriptor (R65). -/
theorem encode_l1Section_fields {w : Word} (h : field w 0 2 = 0b10#2) :
    encode (.l1Section (field w 20 12) (field w 12 8) (field w 10 2) (field w 9 1) (field w 5 4) (field w 4 1)
      (w.getLsbD 3) (w.getLsbD 2)) = w := by
  simp (disch := rfl) only [encode, ← h, ofBool_bit, field_join, -Nat.reduceAdd]
  exact field_whole w

/-- The format of a fine page table descriptor (R67). -/
theorem encode_l1Fine_fields {w : Word} (h : field w 0 2 = 0b11#2) :
    encode (.l1Fine (field w 12 20) (field w 9 3) (field w 5 4) (field w 2 3)) = w := by
  simp (disch := rfl) only [encode, ← h, field_join, -Nat.reduceAdd]
  exact field_whole w

/-- The format of a large page descriptor, in either kind of table (R70). -/
theorem encodeLarge_fields {w : Word} (h : field w 0 2 = 0b01#2) :
    encodeLarge (field w 16 16) (field w 12 4) (field w 10 2) (field w 8 2) (field w 6 2) (field w 4 2)
      (w.getLsbD 3) (w.getLsbD 2) = w := by
  simp (disch := rfl) only [encodeLarge, ← h, ofBool_bit, field_join, -Nat.reduceAdd]
  exact field_whole w

/-- The format of a small page descriptor, in either kind of table (R71). -/
theorem encodeSmall_fields {w : Word} (h : field w 0 2 = 0b10#2) :
    encodeSmall (field w 12 20) (field w 10 2) (field w 8 2) (field w 6 2) (field w 4 2)
      (w.getLsbD 3) (w.getLsbD 2) = w := by
  simp (disch := rfl) only [encodeSmall, ← h, ofBool_bit, field_join, -Nat.reduceAdd]
  exact field_whole w

/-- The format of a tiny page descriptor (R72). -/
theorem encode_l2fTiny_fields {w : Word} (h : field w 0 2 = 0b11#2) :
    encode (.l2fTiny (field w 10 22) (field w 6 4) (field w 4 2) (w.getLsbD 3) (w.getLsbD 2)) = w := by
  simp (disch := rfl) only [encode, ← h, ofBool_bit, field_join, -Nat.reduceAdd]
  exact field_whole w

/-- The format of a translation table base (R77). -/
theorem encode_ttb_fields (w : Word) : encode (.ttb (field w 14 18) (field w 0 14)) = w :=
  (field_join w 0 14 18 14 rfl).trans (field_whole w)

/-- The format of a descriptor address, whose base and table index have widths `n` and `m` (R62, R74, R75). -/
theorem join_descAddr {w : Word} {n m : Nat} (h : field w 0 2 = 0b00#2) :
    field w (m + 2) n ++ field w 2 m ++ 0b00#2 = field w 0 (n + m + 2) := by
  rw [← h, field_join w 2 (m + 2) n m (Nat.add_comm m 2), field_join w 0 2 (n + m) 2 rfl]

/-- The format of a coprocessor register transfer, with its three fixed fields (R86). -/
theorem encode_mcrMrc_fields {w : Word} (h : isCoprocTransfer w = true) :
    encode (.mcrMrc (field w 28 4) (field w 21 3) (w.getLsbD 20) (field w 16 4) (field w 12 4) (field w 5 3)
      (field w 0 4)) = w := by
  obtain ⟨hop, hcp, hbit⟩ : field w 24 4 = 0b1110#4 ∧ field w 8 4 = 0b1111#4 ∧ field w 4 1 = 0b1#1 :=
    of_decide_eq_true h
  simp (disch := rfl) only [encode, ← hop, ← hcp, ← hbit, ofBool_bit, field_join, -Nat.reduceAdd]
  exact field_whole w

/-! ## The row of a decoded word, by decoder (R60) -/

/-- The row has the role in which the word was decoded, and the word is the row's. -/
def Instr.IsRowOf (i : Instr) (r : Role) (w : Word) : Prop :=
  i.role = r ∧ encode i = w

/-- The first-level decoder (R63): one row for each value of the type bits. -/
theorem decodeL1Desc_isRowOf (w : Word) : (decodeL1Desc w).IsRowOf .l1Desc w := by
  unfold decodeL1Desc
  split_ifs with h0 h1 h2
  · exact ⟨rfl, join_typeBits h0⟩
  · exact ⟨rfl, encode_l1Coarse_fields h1⟩
  · exact ⟨rfl, encode_l1Section_fields h2⟩
  · exact ⟨rfl, encode_l1Fine_fields (typeBits_eq_three h0 h1 h2)⟩

/-- The second-level decoder of a coarse table (R68). -/
theorem decodeL2Coarse_isRowOf (w : Word) : (decodeL2Coarse w).IsRowOf (.l2Desc .coarse) w := by
  unfold decodeL2Coarse
  split_ifs with h0 h1 h2
  · exact ⟨rfl, join_typeBits h0⟩
  · exact ⟨rfl, encodeLarge_fields h1⟩
  · exact ⟨rfl, encodeSmall_fields h2⟩
  · exact ⟨rfl, join_typeBits (typeBits_eq_three h0 h1 h2)⟩

/-- The second-level decoder of a fine table (R68). -/
theorem decodeL2Fine_isRowOf (w : Word) : (decodeL2Fine w).IsRowOf (.l2Desc .fine) w := by
  unfold decodeL2Fine
  split_ifs with h0 h1 h2
  · exact ⟨rfl, join_typeBits h0⟩
  · exact ⟨rfl, encodeLarge_fields h1⟩
  · exact ⟨rfl, encodeSmall_fields h2⟩
  · exact ⟨rfl, encode_l2fTiny_fields (typeBits_eq_three h0 h1 h2)⟩

/-- The decoder of a domain access control field (R76): a word it accepts is zero above its two low bits. -/
theorem decodeDacField_isRowOf {w : Word} {i : Instr} (h : decodeDacField w = .ok i) : i.IsRowOf .dacField w := by
  unfold decodeDacField at h
  split_ifs at h with hwide h0 h1 h2
  all_goals
    have hzero : field w 2 30 = 0#30 := not_not.mp hwide
    obtain rfl := Except.ok.inj h
    refine ⟨rfl, ?_⟩
    rw [encode, ← hzero]
  · exact join_typeBits h0
  · exact join_typeBits h1
  · exact join_typeBits h2
  · exact join_typeBits (typeBits_eq_three h0 h1 h2)

/-- A decoder that answers one row, and only for words with that row's fixed bits. -/
theorem isRowOf_of_fixedBits {fixed : Prop} [Decidable fixed] {e : DecodeError} {r : Role} {w : Word} {i j : Instr}
    (h : (if fixed then .ok i else .error e : Except DecodeError Instr) = .ok j) (hrow : fixed → i.IsRowOf r w) :
    j.IsRowOf r w := by
  split_ifs at h with hfixed
  exact Except.ok.inj h ▸ hrow hfixed

/-- A word that decodes in a role is the word of the row it decodes to, and the row has that role. -/
theorem decodeWord_isRowOf {r : Role} {w : Word} {i : Instr} (h : decodeWord r w = .ok i) : i.IsRowOf r w := by
  cases r with
  | l1Desc => exact Except.ok.inj h ▸ decodeL1Desc_isRowOf w
  | l2Desc t =>
    cases t with
    | coarse => exact Except.ok.inj h ▸ decodeL2Coarse_isRowOf w
    | fine => exact Except.ok.inj h ▸ decodeL2Fine_isRowOf w
  | dacField => exact decodeDacField_isRowOf h
  | ttbReg => exact Except.ok.inj h ▸ ⟨rfl, encode_ttb_fields w⟩
  | ctrlReg => exact Except.ok.inj h ▸ ⟨rfl, rfl⟩
  | l1Addr => exact isRowOf_of_fixedBits h fun h0 => ⟨rfl, (join_descAddr h0).trans (field_whole w)⟩
  | l2Addr t =>
    cases t with
    | coarse => exact isRowOf_of_fixedBits h fun h0 => ⟨rfl, (join_descAddr h0).trans (field_whole w)⟩
    | fine => exact isRowOf_of_fixedBits h fun h0 => ⟨rfl, (join_descAddr h0).trans (field_whole w)⟩
  | coproc => exact isRowOf_of_fixedBits h fun hfixed => ⟨rfl, encode_mcrMrc_fields hfixed⟩

/-! ## The statements -/

/-- Settles O1: the decoder reads each field back from where the encoder joined it, row by row. -/
theorem decodeOfEncodeIsTheRow : Obligations.DecodeOfEncodeIsTheRow :=
  decodeWord_encode

/-- Settles O2, role by role: the fields of the row chosen cover the word, and the bits that choose it are those that
the encoder writes. -/
theorem encodeOfDecodeIsTheWord : Obligations.EncodeOfDecodeIsTheWord :=
  fun _ _ _ => decodeWord_isRowOf

end Sys2Proof
end
